-- ==== Sys2Proof/Word.lean ====
section
/-! DEFINITION. The words of the machine: a byte and a level (00_scope.md R7). -/

namespace Sys2Proof

/-- A byte is 8 bits; bit 7 is the most significant (R7). -/
abbrev Byte := BitVec 8

/-- A level is low (false, 0) or high (true, 1) (R7). -/
abbrev Level := Bool

/-- A pin identifier, an opaque natural number in the abstract (R52, D2). -/
abbrev Pin := Nat

/-- A reference to a platform SPI peripheral, opaque to the block (R29); 0 names the primary one (R85). -/
abbrev PeriphRef := Nat

end Sys2Proof
end

