-- ==== Sys2Proof/Config.lean ====
section
/-! DEFINITION. What the spec leaves to the platform or open: free values without a body, and the widths of descriptors. -/

namespace Sys2Proof

/-- The level the `n`-th PinRead(MISO) returns where the state's script `env.miso` says nothing: "free inputs of each
step under no law" (D29, U18, 20_memory.md R60). Log 4. -/
opaque Config.misoLevel : Nat → Level

/-- The `n`-th byte PeriphTransfer returns where the script `env.periph` says nothing: "The bytes `r` are a free input"
(41_transfer_engine.md R143). Log 4. -/
opaque Config.periphByte : Nat → Byte

/-- MOSI_INIT_LEVEL, the open parameter: the level BEGIN writes to the data-out pin (R6, D7, U20). Log 6. -/
opaque Config.mosiInitLevel : Level

/-- The `n`-th value of a working register outside an engine invocation, which 10_state.md R40 calls unspecified. Log 7. -/
opaque Config.freeByte : Nat → Byte

/-- The same for the one-bit register `last_mosi`. Log 7. -/
opaque Config.freeLevel : Nat → Level

/-- CLK_RELATIVE_TO_IDLE: false is the spec's reading of "raise" and "lower" as absolute levels (30_encoding.md R89,
D3). DESIGN CHOICE of the spec, log 13. -/
def Config.clkRelativeToIdle : Bool := false

/-- A 16-bit length field holds less than this (R83; LEN_WIDTH of D2, descriptors only). -/
abbrev Config.lenLimit : Nat := 65536

/-- A 32-bit frequency field holds less than this (FREQ_WIDTH of D2, descriptors only). -/
abbrev Config.freqLimit : Nat := 4294967296

/-- A one-byte pin or peripheral field holds less than this (PIN_WIDTH of D2, descriptors only). -/
abbrev Config.pinLimit : Nat := 256

end Sys2Proof
end

