-- ==== Sys2Proof/Syntax.lean ====
section
/-! DEFINITION. The sixteen operations of 30_encoding.md R81 with their operands, in the abstract form of R80. -/

namespace Sys2Proof

/-- `bit_order` (10_state.md R23). -/
inductive BitOrder
  | msbFirst
  | lsbFirst
  deriving DecidableEq, Repr

/-- A caller's buffer that an operation reads: its bytes (`none` is a null buffer) and the length operand, which the
caller passes beside it (20_memory.md R51, R61). Log 10. -/
structure SrcBuf where
  bytes : Option (List Byte)
  len   : Nat
  deriving DecidableEq, Repr

/-- A caller's buffer that an operation only fills: its size in bytes (`none` is a null buffer) and the length operand.
Its old contents are overwritten before anything reads them (R59, R183, R184). Log 10. -/
structure DstBuf where
  size : Option Nat
  len  : Nat
  deriving DecidableEq, Repr

/-- One constructor for each row of spec/opcode_table.json. `none` for a pin is `unset` (R90). -/
inductive Instr
  /-- CONSTRUCT_HW (R110). -/
  | constructHw (cs : Option Pin) (freq : Nat) (order : BitOrder) (mode : Nat) (periph : PeriphRef)
  /-- CONSTRUCT_SW, operands in call order (R111, R92). -/
  | constructSw (cs : Option Pin) (clk : Pin) (miso mosi : Option Pin) (freq : Nat) (order : BitOrder) (mode : Nat)
  /-- BEGIN (R113). -/
  | beginInit
  /-- END (R115). -/
  | endRelease
  /-- BEGIN_TRANSACTION (R116). -/
  | beginTransaction
  /-- END_TRANSACTION (R117). -/
  | endTransaction
  /-- DISABLE_CS_TOGGLE (R118). -/
  | disableCsToggle
  /-- ENABLE_CS_TOGGLE (R119). -/
  | enableCsToggle
  /-- WRITE (R182); `lead` is the source's `prefix_buffer` with `prefix_len`. -/
  | write (buffer : SrcBuf) (lead : SrcBuf) (invert : Bool)
  /-- READ (R183). -/
  | read (buffer : DstBuf) (fill : Byte)
  /-- WRITE_THEN_READ (R184). -/
  | writeThenRead (source : SrcBuf) (buffer : DstBuf) (fill : Byte)
  /-- REPEATED (R185). -/
  | repeated (value : Byte) (times : Nat) (lead : SrcBuf)
  /-- TRANSFER (R140). -/
  | transfer (buffer : SrcBuf)
  /-- TRANSFER_BYTE (R141). -/
  | transferByte (byte : Byte)
  /-- WRITE_AND_READ (R186). -/
  | writeAndRead (byte : Byte)
  /-- DESTROY (R120). -/
  | destroy
  deriving DecidableEq, Repr

/-- The two operations that need no handle (60_exceptions.md R216, row NoHandle). -/
def Instr.isConstructor : Instr → Bool
  | .constructHw .. => true
  | .constructSw .. => true
  | .beginInit | .endRelease | .beginTransaction | .endTransaction | .disableCsToggle | .enableCsToggle
  | .write .. | .read .. | .writeThenRead .. | .repeated .. | .transfer .. | .transferByte .. | .writeAndRead ..
  | .destroy => false

/-- The five operations that return a success indicator (60_exceptions.md R211). -/
def Instr.returnsSuccess : Instr → Bool
  | .beginInit | .write .. | .read .. | .writeThenRead .. | .repeated .. => true
  | .constructHw .. | .constructSw .. | .endRelease | .beginTransaction | .endTransaction | .disableCsToggle
  | .enableCsToggle | .transfer .. | .transferByte .. | .writeAndRead .. | .destroy => false

end Sys2Proof
end

