-- ==== Sys2Proof/WellFormed.lean ====
section
/-! DEFINITION. Which operations a descriptor can carry (30_encoding.md R83 to R85, R95): the bounds of the fields. An
operation that is not well-formed can still be called in the abstract (R80); what it does then is `exec`'s to say. -/

namespace Sys2Proof

/-- A buffer carried inline: not null, its length operand its own length, and that length fits 16 bits (R83, D19). That an absent
prefix, a null one, is not what `plen = 0` stands for is a DESIGN CHOICE, log 34. -/
def SrcBuf.wf (b : SrcBuf) : Bool :=
  match b.bytes with
  | some bs => decide (b.len = bs.length) && decide (b.len < Config.lenLimit)
  | none => false

/-- A buffer of which the descriptor carries only the length (R83). -/
def DstBuf.wf (b : DstBuf) : Bool :=
  decide (b.size = some b.len) && decide (b.len < Config.lenLimit)

/-- An optional pin that a one-byte field can carry (R85). -/
def pinFits : Option Pin → Bool
  | some p => decide (p < Config.pinLimit)
  | none => true

/-- The chip-select operand: never unset (10_state.md R25), and it fits its byte. -/
def csFits : Option Pin → Bool
  | some p => decide (p < Config.pinLimit)
  | none => false

/-- The well-formed operations: those a descriptor can carry. -/
def Instr.wf : Instr → Bool
  | .constructHw cs freq _ mode periph =>
    csFits cs && decide (freq < Config.freqLimit) && decide (mode < 4) && decide (periph < Config.pinLimit)
  | .constructSw cs clk miso mosi freq _ mode =>
    csFits cs && decide (clk < Config.pinLimit) && pinFits miso && pinFits mosi && decide (freq < Config.freqLimit)
      && decide (mode < 4)
  | .write buffer lead _ => buffer.wf && lead.wf
  | .read buffer _ => buffer.wf
  | .writeThenRead source buffer _ => source.wf && buffer.wf
  | .repeated _ times lead => decide (times < Config.lenLimit) && lead.wf
  | .transfer buffer => buffer.wf
  | .beginInit | .endRelease | .beginTransaction | .endTransaction | .disableCsToggle | .enableCsToggle
  | .transferByte _ | .writeAndRead _ | .destroy => true

end Sys2Proof
end

