-- ==== Sys2Proof/Decode.lean ====
section
/-! DEFINITION. The descriptors of 30_encoding.md: reading one (R82 to R87, R94) and, after it, writing one. -/

namespace Sys2Proof

/-- Why bytes are no descriptor. The first five are R94's own; the last two are log 17's. -/
inductive DecodeError
  /-- Opcode bytes 0x10 to 0xFF name no operation (R94). -/
  | unassignedOpcode (op : Byte)
  /-- A reserved bit of the `flags` byte is set (R84, R94). -/
  | reservedFlags (flags : Byte)
  /-- A reserved bit of the `cfg` byte is set (R85, R94). -/
  | reservedCfg (cfg : Byte)
  /-- A presence bit is set in format H (R85, R94). -/
  | presenceInFormatH (cfg : Byte)
  /-- A pin byte other than 0xFF beside a cleared presence bit (R85, R94). -/
  | pinBesideClearedBit (pin : Byte)
  /-- The bytes end before the descriptor does. -/
  | truncated
  /-- Bytes follow the descriptor (R83 fixes its length). -/
  | trailing
  deriving DecidableEq, Repr

/-- A 16-bit field, least-significant byte first (R82). -/
def u16 (b0 b1 : Byte) : Nat := b0.toNat + 256 * b1.toNat

/-- A 32-bit field, least-significant byte first (R82). -/
def u32 (b0 b1 b2 b3 : Byte) : Nat :=
  b0.toNat + 256 * (b1.toNat + 256 * (b2.toNat + 256 * b3.toNat))

/-- The first `n` bytes and what follows them. -/
def takeBytes (n : Nat) (bs : List Byte) : Except DecodeError (List Byte × List Byte) :=
  if (bs.take n).length = n then .ok (bs.take n, bs.drop n) else .error .truncated

/-- `cfg` bit 0: 1 is MSB_FIRST, 0 is LSB_FIRST (R85, R86). -/
def cfgOrder (cfg : Byte) : BitOrder := if cfg.getLsbD 0 then .msbFirst else .lsbFirst

/-- `cfg` bits 2 to 1: the data mode (R85, R87). -/
def cfgMode (cfg : Byte) : Nat := (cfg.extractLsb' 1 2).toNat

/-- `cfg` bit 3: a data-out pin is present (R85). -/
def cfgHasMosi (cfg : Byte) : Bool := cfg.getLsbD 3

/-- `cfg` bit 4: a data-in pin is present (R85). -/
def cfgHasMiso (cfg : Byte) : Bool := cfg.getLsbD 4

/-- `cfg` bits 7 to 5 are reserved and must be 0 (R85). -/
def cfgReservedClear (cfg : Byte) : Bool := cfg.extractLsb' 5 3 == 0#3

/-- `flags` bits 7 to 1 are reserved and must be 0 (R84). -/
def flagsReservedClear (flags : Byte) : Bool := flags.extractLsb' 1 7 == 0#7

/-- An optional pin: its byte where the presence bit is set, and 0xFF beside a cleared bit (R85, R90). -/
def decodePin (present : Bool) (b : Byte) : Except DecodeError (Option Pin) :=
  if present then .ok (some b.toNat)
  else if b = 0xFF#8 then .ok none
  else .error (.pinBesideClearedBit b)

/-- A buffer carried inline, never null. DESIGN CHOICE, log 34: a length field of 0 reads as an empty buffer, where R84 has the one
form `plen = 0` for an empty prefix and an absent one. -/
def inlineBuf (bs : List Byte) : SrcBuf := ⟨some bs, bs.length⟩

/-- A buffer of which only the length is carried. -/
def lengthBuf (n : Nat) : DstBuf := ⟨some n, n⟩

/-- Format H after the opcode byte. -/
def decodeConstructHw : List Byte → Except DecodeError (Instr × List Byte)
  | cfg :: f0 :: f1 :: f2 :: f3 :: cs :: periph :: rest =>
    if !cfgReservedClear cfg then .error (.reservedCfg cfg)
    else if cfgHasMosi cfg || cfgHasMiso cfg then .error (.presenceInFormatH cfg)
    else .ok (.constructHw (some cs.toNat) (u32 f0 f1 f2 f3) (cfgOrder cfg) (cfgMode cfg) periph.toNat, rest)
  | _ => .error .truncated

/-- Format S after the opcode byte. -/
def decodeConstructSw : List Byte → Except DecodeError (Instr × List Byte)
  | cfg :: f0 :: f1 :: f2 :: f3 :: cs :: clk :: miso :: mosi :: rest =>
    if !cfgReservedClear cfg then .error (.reservedCfg cfg)
    else do
      let misoPin ← decodePin (cfgHasMiso cfg) miso
      let mosiPin ← decodePin (cfgHasMosi cfg) mosi
      .ok (.constructSw (some cs.toNat) clk.toNat misoPin mosiPin (u32 f0 f1 f2 f3) (cfgOrder cfg) (cfgMode cfg), rest)
  | _ => .error .truncated

/-- Format W after the opcode byte. The prefix is `inlineBuf`, an empty one where `plen = 0` (R84; log 34). -/
def decodeWrite : List Byte → Except DecodeError (Instr × List Byte)
  | flags :: p0 :: p1 :: l0 :: l1 :: rest =>
    if !flagsReservedClear flags then .error (.reservedFlags flags)
    else do
      let (lead, rest) ← takeBytes (u16 p0 p1) rest
      let (data, rest) ← takeBytes (u16 l0 l1) rest
      .ok (.write (inlineBuf data) (inlineBuf lead) (flags.getLsbD 0), rest)
  | _ => .error .truncated

/-- Format R after the opcode byte. -/
def decodeRead : List Byte → Except DecodeError (Instr × List Byte)
  | fill :: l0 :: l1 :: rest => .ok (.read (lengthBuf (u16 l0 l1)) fill, rest)
  | _ => .error .truncated

/-- Format X after the opcode byte. -/
def decodeWriteThenRead : List Byte → Except DecodeError (Instr × List Byte)
  | fill :: w0 :: w1 :: r0 :: r1 :: rest => do
    let (data, rest) ← takeBytes (u16 w0 w1) rest
    .ok (.writeThenRead (inlineBuf data) (lengthBuf (u16 r0 r1)) fill, rest)
  | _ => .error .truncated

/-- Format P after the opcode byte. The prefix is `inlineBuf`, an empty one where `plen = 0` (R84; log 34). -/
def decodeRepeated : List Byte → Except DecodeError (Instr × List Byte)
  | value :: t0 :: t1 :: p0 :: p1 :: rest => do
    let (lead, rest) ← takeBytes (u16 p0 p1) rest
    .ok (.repeated value (u16 t0 t1) (inlineBuf lead), rest)
  | _ => .error .truncated

/-- Format T after the opcode byte. -/
def decodeTransfer : List Byte → Except DecodeError (Instr × List Byte)
  | l0 :: l1 :: rest => do
    let (data, rest) ← takeBytes (u16 l0 l1) rest
    .ok (.transfer (inlineBuf data), rest)
  | _ => .error .truncated

/-- Format I after the opcode byte. -/
def decodeImm (f : Byte → Instr) : List Byte → Except DecodeError (Instr × List Byte)
  | b :: rest => .ok (f b, rest)
  | _ => .error .truncated

/-- Read one descriptor from the front of `bs`: byte 0 is the opcode of R81, the opcode fixes the format (R82, R83). -/
def decode : List Byte → Except DecodeError (Instr × List Byte)
  | [] => .error .truncated
  | op :: rest =>
    match op.toNat with
    | 0x00 => decodeConstructHw rest
    | 0x01 => decodeConstructSw rest
    | 0x02 => .ok (.beginInit, rest)
    | 0x03 => .ok (.endRelease, rest)
    | 0x04 => .ok (.beginTransaction, rest)
    | 0x05 => .ok (.endTransaction, rest)
    | 0x06 => .ok (.disableCsToggle, rest)
    | 0x07 => .ok (.enableCsToggle, rest)
    | 0x08 => decodeWrite rest
    | 0x09 => decodeRead rest
    | 0x0A => decodeWriteThenRead rest
    | 0x0B => decodeRepeated rest
    | 0x0C => decodeTransfer rest
    | 0x0D => decodeImm .transferByte rest
    | 0x0E => decodeImm .writeAndRead rest
    | 0x0F => .ok (.destroy, rest)
    | _ => .error (.unassignedOpcode op)

/-- Read bytes that are exactly one descriptor (R82, R83). -/
def decodeDescriptor (bs : List Byte) : Except DecodeError Instr :=
  match decode bs with
  | .ok (i, []) => .ok i
  | .ok (_, _ :: _) => .error .trailing
  | .error e => .error e

/-! The encoder, from the same tables. -/

/-- A 16-bit field, least-significant byte first (R82). -/
def le16 (n : Nat) : List Byte := [BitVec.ofNat 8 n, BitVec.ofNat 8 (n / 256)]

/-- A 32-bit field, least-significant byte first (R82). -/
def le32 (n : Nat) : List Byte :=
  [BitVec.ofNat 8 n, BitVec.ofNat 8 (n / 256), BitVec.ofNat 8 (n / 65536), BitVec.ofNat 8 (n / 16777216)]

/-- The number of R86: MSB_FIRST is 1, LSB_FIRST is 0. -/
def orderBit : BitOrder → Nat
  | .msbFirst => 1
  | .lsbFirst => 0

/-- The `cfg` byte of R85. -/
def cfgByte (order : BitOrder) (mode : Nat) (hasMosi hasMiso : Bool) : Byte :=
  BitVec.ofNat 8 (orderBit order + 2 * mode + 8 * hasMosi.toNat + 16 * hasMiso.toNat)

/-- A pin byte: 0xFF for an absent pin (R85). -/
def pinByte (p : Option Pin) : Byte := BitVec.ofNat 8 (p.getD 255)

/-- The bytes an inline buffer puts into its descriptor. -/
def SrcBuf.inline (b : SrcBuf) : List Byte := b.bytes.getD []

/-- The opcode of R81. -/
def Instr.opcode : Instr → Byte
  | .constructHw .. => 0x00
  | .constructSw .. => 0x01
  | .beginInit => 0x02
  | .endRelease => 0x03
  | .beginTransaction => 0x04
  | .endTransaction => 0x05
  | .disableCsToggle => 0x06
  | .enableCsToggle => 0x07
  | .write .. => 0x08
  | .read .. => 0x09
  | .writeThenRead .. => 0x0A
  | .repeated .. => 0x0B
  | .transfer .. => 0x0C
  | .transferByte .. => 0x0D
  | .writeAndRead .. => 0x0E
  | .destroy => 0x0F

/-- What follows the opcode byte, format by format (R83). -/
def Instr.operandBytes : Instr → List Byte
  | .constructHw cs freq order mode periph =>
    [cfgByte order mode false false] ++ le32 freq ++ [pinByte cs, BitVec.ofNat 8 periph]
  | .constructSw cs clk miso mosi freq order mode =>
    [cfgByte order mode mosi.isSome miso.isSome] ++ le32 freq
      ++ [pinByte cs, BitVec.ofNat 8 clk, pinByte miso, pinByte mosi]
  | .write buffer lead invert =>
    [BitVec.ofNat 8 invert.toNat] ++ le16 lead.len ++ le16 buffer.len ++ lead.inline ++ buffer.inline
  | .read buffer fill => [fill] ++ le16 buffer.len
  | .writeThenRead source buffer fill => [fill] ++ le16 source.len ++ le16 buffer.len ++ source.inline
  | .repeated value times lead => [value] ++ le16 times ++ le16 lead.len ++ lead.inline
  | .transfer buffer => le16 buffer.len ++ buffer.inline
  | .transferByte byte => [byte]
  | .writeAndRead byte => [byte]
  | .beginInit | .endRelease | .beginTransaction | .endTransaction | .disableCsToggle | .enableCsToggle
  | .destroy => []

/-- The descriptor of a well-formed operation (R82). -/
def encode (i : Instr) : List Byte := i.opcode :: i.operandBytes

/-! An opcode-table row's bits as a descriptor. -/

/-- The total length that R83 gives the descriptor at the front of `bs`; 1 for an unassigned opcode. -/
def descriptorLength : List Byte → Nat
  | [] => 0
  | op :: rest =>
    match op.toNat, rest with
    | 0x00, _ => 8
    | 0x01, _ => 10
    | 0x08, _ :: p0 :: p1 :: l0 :: l1 :: _ => 6 + u16 p0 p1 + u16 l0 l1
    | 0x09, _ => 4
    | 0x0A, _ :: w0 :: w1 :: _ => 6 + u16 w0 w1
    | 0x0B, _ :: _ :: _ :: p0 :: p1 :: _ => 6 + u16 p0 p1
    | 0x0C, l0 :: l1 :: _ => 3 + u16 l0 l1
    | 0x0D, _ => 2
    | 0x0E, _ => 2
    | _, _ => 1

/-- `n` bytes of a number, the byte of bits 7 to 0 first. -/
def leBytes : Nat → Nat → List Byte
  | 0, _ => []
  | n + 1, w => BitVec.ofNat 8 w :: leBytes n (w / 256)

/-- The longest descriptor: a WRITE with two buffers of 65 535 bytes (R83). -/
def longestDescriptor : Nat := 6 + 65535 + 65535

/-- The descriptor that a table row's bits stand for: the bytes of `w`, then zeros, as far as R83 says it reaches. -/
def tableBytes (nbits w : Nat) : List Byte :=
  let bs := leBytes ((nbits + 7) / 8) w ++ List.replicate longestDescriptor 0#8
  bs.take (descriptorLength bs)

/-- The operation the decoder reads from a table row's bits. -/
def decodeTableWord (nbits w : Nat) : Option Instr :=
  match decodeDescriptor (tableBytes nbits w) with
  | .ok i => some i
  | .error _ => none

end Sys2Proof
end

