-- ==== Sys2Proof/Machine/State.lean ====
section
/-! DEFINITION. The state of the machine (10_state.md R20 to R42), its interface (00_scope.md R8, R9, R12), and the ways a
step can stop. Plain data throughout. -/

namespace Sys2Proof.Machine

/-! The Device Handle. -/

/-- The pins of the Software variant besides chip-select (R26, R27, R28); `none` is unset. -/
structure SwPins where
  clk  : Pin
  mosi : Option Pin
  miso : Option Pin
  deriving DecidableEq, Repr

/-- `cfg.mode` with the fields that exist in that variant only: exactly one is active (R21, R26 to R29). -/
inductive Bus
  | hardware (periph : PeriphRef)
  | software (pins : SwPins)
  deriving DecidableEq, Repr

/-- The configuration record, fixed at construction (R21 to R30). -/
structure Cfg where
  csPin    : Pin
  freq     : Nat
  order    : BitOrder
  dataMode : BitVec 2
  bus      : Bus
  deriving DecidableEq, Repr

/-- The Device Handle: its configuration and its two flags (R31, R32, R41). -/
structure Handle where
  cfg              : Cfg
  csControlEnabled : Bool
  isInitialized    : Bool
  deriving DecidableEq, Repr

/-! Pins. -/

/-- The direction the block gave a pin (R34). -/
inductive Dir
  | unconfigured
  | input
  | output
  deriving DecidableEq, Repr

/-- The block's view of a pin: direction and output latch, `none` for UNKNOWN (R34). -/
structure PinState where
  dir : Dir
  out : Option Level
  deriving DecidableEq, Repr

/-- A pin the block has not touched (R40). -/
def PinState.initial : PinState := ⟨.unconfigured, none⟩

/-- Pin space: the pins that are not `initial`, keyed by pin identifier. Canonical form: `pinsWf` in Ops.lean. -/
abbrev Pins := List (Pin × PinState)

/-- Pins are written by role in events (00_scope.md R9). -/
inductive Role
  | cs
  | clk
  | mosi
  | miso
  deriving DecidableEq, Repr

/-! The interface to the platform. -/

/-- The platform primitives of 00_scope.md R8, as calls. -/
inductive Prim
  | pinMode (r : Role) (d : Dir)
  | pinWrite (r : Role) (v : Level)
  | pinRead (r : Role)
  | delayUs (n : Nat)
  | periphSetup
  | periphRelease
  | periphBeginTransaction (freq : Nat) (order : BitOrder) (mode : BitVec 2)
  | periphEndTransaction
  | periphTransfer (sent : List Byte)
  deriving DecidableEq, Repr

/-- The events of 00_scope.md R9: a primitive call that returned, with what it returned. -/
inductive Event
  /-- `M(p,OUT)`, `M(p,IN)`. -/
  | mode (r : Role) (d : Dir)
  /-- `W(p,v)`. -/
  | write (r : Role) (v : Level)
  /-- `R(p)=v`. -/
  | read (r : Role) (v : Level)
  /-- `D(n)`. -/
  | delay (n : Nat)
  /-- `PS`. -/
  | setup
  /-- `PR`. -/
  | release
  /-- `PB(freq,order,mode)`. -/
  | beginSession (freq : Nat) (order : BitOrder) (mode : BitVec 2)
  /-- `PE`. -/
  | endSession
  /-- `PT(s)=r`. -/
  | transfer (sent returned : List Byte)
  deriving DecidableEq, Repr

/-- What the environment will answer (00_scope.md R12). `miso` and `periph` are scripts of answers to come; past their end
the answers are the free values `Config.misoLevel` and `Config.periphByte` at the counters. `stall = some n` says that the
call after the next `n` never returns; `none` is the assumption PrimitivesReturn (60_exceptions.md R217). Logs 4, 5. -/
structure Env where
  miso        : List Level
  misoCount   : Nat
  periph      : List Byte
  periphCount : Nat
  stall       : Option Nat
  deriving DecidableEq, Repr

/-! Working registers and sequencer. -/

/-- The data registers of the bit engine (R35) and the hidden tracker (R36). -/
structure Regs where
  tx       : Byte
  rx       : Byte
  mask     : Byte
  lastMosi : Level
  deriving DecidableEq, Repr

/-- The phases (a) to (e) of a frame (R37, 42_transaction_framer.md R180). -/
inductive Phase
  | beginTransaction
  | csLow
  | transfers
  | csHigh
  | endTransaction
  deriving DecidableEq, Repr

/-- The sequencer's position inside a running operation (R37): the operation, the frame phase (in a framed operation), how
many bytes of the stream are done, and the primitive called last. The bit of the byte is `mask`. -/
structure Position where
  op    : Instr
  phase : Option Phase
  index : Nat
  call  : Option Prim
  deriving DecidableEq, Repr

/-! Results and requests. -/

/-- The result column of 30_encoding.md R81. -/
inductive RetVal
  | nothing
  /-- A Device Handle. -/
  | handle
  /-- The success indicator (R33). -/
  | success (ok : Bool)
  /-- The received byte. -/
  | byte (b : Byte)
  deriving DecidableEq, Repr

/-- What the block owes the caller at the end of an operation (00_scope.md R13): the result value and the final contents of
the buffers passed, `none` for a null buffer or an operand the operation lacks. Log 11. -/
structure Ret where
  value  : RetVal
  /-- `buffer`, or the `read_buffer` of WRITE_THEN_READ. -/
  buffer : Option (List Byte) := Option.none
  /-- `write_buffer`. -/
  source : Option (List Byte) := Option.none
  /-- `prefix_buffer`. -/
  lead   : Option (List Byte) := Option.none
  deriving DecidableEq, Repr

/-- How the caller issues an operation: as an abstract call (30_encoding.md R80) or as descriptor bytes (R82). Log 2. -/
inductive Request
  | call (op : Instr)
  | descriptor (bytes : List Byte)
  deriving DecidableEq, Repr

/-- The machine's state. `seq = none` is an idle sequencer. `fresh` counts the free values used (log 7). -/
structure State where
  handle  : Option Handle
  pins    : Pins
  regs    : Regs
  fresh   : Nat
  seq     : Option Position
  trace   : List Event
  ret     : Ret
  pending : List Request
  env     : Env
  deriving DecidableEq, Repr

/-- The fresh machine: no handle, every pin UNCONFIGURED and UNKNOWN, sequencer idle, nothing issued, nothing done (R40,
70_reset_and_hazards.md R240, R241; log 1). The zeros of `regs` are log 7's choice, `env` is log 4's and log 5's. -/
def State.reset : State :=
  { handle := none, pins := [], regs := ⟨0, 0, 0, false⟩, fresh := 0, seq := none, trace := [], ret := { value := .nothing },
    pending := [], env := ⟨[], 0, [], 0, none⟩ }

/-- The one fault. -/
inductive Fault
  /-- A platform primitive never returned: the machine makes no further step (60_exceptions.md R217, U13 "stuck"). Raised by
  every primitive when `env.stall` says so, and by `step` from a state in which an operation is still running. `at` is where
  it is stuck, "with the pins as the events so far left them". Safe: it is raised only where PrimitivesReturn is not assumed. -/
  | neverReturns (stuck : State)
  deriving DecidableEq, Repr

/-- The refusals: the closed list of 60_exceptions.md R216. Each is safe: the model declines to say what the block does. -/
inductive Refusal
  /-- Not modelled. No arm of `exec` answers it. -/
  | notModelled (mnemonic : String)
  /-- A constructor is given a `data_mode` outside 0 to 3, or a `cs_pin` of unset (R112). -/
  | contractViolation
  /-- CONSTRUCT_SW is given two equal pin identifiers (R111, D18). -/
  | pinClash
  /-- A null buffer with non-zero length, or a length larger than the buffer (20_memory.md R61). -/
  | badBuffer
  /-- A transfer or framer operation, or in Hardware mode END, BEGIN_TRANSACTION, END_TRANSACTION, before BEGIN (D15). -/
  | notInitialized
  /-- A PinWrite to a pin that is no output, or a PinRead of a pin that is no input (R34, 70_reset_and_hazards.md R250). -/
  | pinNotConfigured
  /-- An operation other than a constructor with no live handle (D23). -/
  | noHandle
  /-- The decoder met bytes that are no descriptor (30_encoding.md R94). -/
  | malformedDescriptor (why : DecodeError)
  deriving DecidableEq, Repr

/-- What a part of a step answers: a value, a hang, or a refusal. -/
abbrev Res (α : Type) := Host.Outcome α Fault Refusal

end Sys2Proof.Machine
end

