-- ==== Sys2Proof/Machine/Ops.lean ====
section
/-! DEFINITION. The operations every meaning shares: sequencing, pin space, the platform primitives of 00_scope.md R8 and
the bracket around an operation. There is no exception to take and none to return from (60_exceptions.md R210, R215): what
stands in their place is `refused` (R216) and the hang (R217), both decided here. -/

namespace Sys2Proof.Machine

/-- Run `x`; where it answers a value go on with `f`, else stop as it stopped (program order, 20_memory.md R63). -/
def andThen {α β : Type} (x : Res α) (f : α → Res β) : Res β :=
  match x with
  | .next a => f a
  | .fault r => .fault r
  | .refused r => .refused r

/-! Pin space (10_state.md R34): a sparse map in canonical form. -/

/-- The state of pin `p`; a pin not listed is `initial`. -/
def pinGet : Pins → Pin → PinState
  | [], _ => .initial
  | (q, v) :: m, p => if q = p then v else pinGet m p

/-- Forget pin `p`. -/
def pinClear (p : Pin) (m : Pins) : Pins := m.filter (fun e => !decide (e.1 = p))

/-- Put `v` at its place among rising keys. -/
def pinInsert (p : Pin) (v : PinState) : Pins → Pins
  | [] => [(p, v)]
  | (q, u) :: m =>
    if p < q then (p, v) :: (q, u) :: m
    else if p = q then (p, v) :: m
    else (q, u) :: pinInsert p v m

/-- Set the state of pin `p`; the value an unlisted pin has removes the entry. -/
def pinPut (p : Pin) (v : PinState) (m : Pins) : Pins :=
  if v = .initial then pinClear p m else pinInsert p v m

/-- The canonical form: keys strictly rising, no entry equal to what an unlisted pin reads as. -/
def pinsWf : Pins → Bool
  | [] => true
  | [(_, v)] => !decide (v = .initial)
  | (p, v) :: (q, u) :: m => decide (p < q) && !decide (v = .initial) && pinsWf ((q, u) :: m)

/-! One update for each field of the state. -/

/-- Replace the handle. -/
def State.setHandle (s : State) (h : Option Handle) : State := { s with handle := h }
/-- Replace the pins. -/
def State.setPins (s : State) (m : Pins) : State := { s with pins := m }
/-- Replace the working registers. -/
def State.setRegs (s : State) (r : Regs) : State := { s with regs := r }
/-- Replace the counter of free values. -/
def State.setFresh (s : State) (n : Nat) : State := { s with fresh := n }
/-- Replace the sequencer position. -/
def State.setSeq (s : State) (q : Option Position) : State := { s with seq := q }
/-- Replace the result. -/
def State.setRet (s : State) (r : Ret) : State := { s with ret := r }
/-- Replace the issued operations. -/
def State.setPending (s : State) (l : List Request) : State := { s with pending := l }
/-- Replace the environment's answers. -/
def State.setEnv (s : State) (e : Env) : State := { s with env := e }
/-- Append an event to the trace (00_scope.md R9). -/
def State.emit (s : State) (e : Event) : State := { s with trace := s.trace ++ [e] }

/-- The state of pin `p`. -/
def State.pin (s : State) (p : Pin) : PinState := pinGet s.pins p
/-- Set the state of pin `p`. -/
def State.setPin (s : State) (p : Pin) (v : PinState) : State := s.setPins (pinPut p v s.pins)

/-! Sequencer position (10_state.md R37). -/

/-- The sequencer enters a frame phase. -/
def State.atPhase (s : State) (ph : Phase) : State := s.setSeq (s.seq.map fun q => { q with phase := some ph })
/-- `n` more bytes of the stream are done. -/
def State.advance (s : State) (n : Nat) : State := s.setSeq (s.seq.map fun q => { q with index := q.index + n })
/-- The sequencer is at a primitive call. -/
def State.atCall (s : State) (p : Prim) : State := s.setSeq (s.seq.map fun q => { q with call := some p })

/-- Registers whose value the spec leaves unspecified get free values (R35, R36, R40; log 7). -/
def State.forgetRegs (s : State) : State :=
  (s.setRegs ⟨Config.freeByte s.fresh, Config.freeByte (s.fresh + 1), Config.freeByte (s.fresh + 2),
    Config.freeLevel s.fresh⟩).setFresh (s.fresh + 3)

/-! The environment's answers (00_scope.md R12, D29; log 4). -/

/-- The `k`-th level still to come from the slave. -/
def Env.levelAt (e : Env) (k : Nat) : Level := (e.miso[k]?).getD (Config.misoLevel (e.misoCount + k))
/-- The environment after `n` more levels were read. -/
def Env.dropLevels (e : Env) (n : Nat) : Env := { e with miso := e.miso.drop n, misoCount := e.misoCount + n }
/-- The `k`-th byte still to come from the peripheral. -/
def Env.byteAt (e : Env) (k : Nat) : Byte := (e.periph[k]?).getD (Config.periphByte (e.periphCount + k))
/-- The next `n` bytes from the peripheral. -/
def Env.bytes (e : Env) (n : Nat) : List Byte := (List.range n).map e.byteAt
/-- The environment after the peripheral returned `n` more bytes. -/
def Env.dropBytes (e : Env) (n : Nat) : Env := { e with periph := e.periph.drop n, periphCount := e.periphCount + n }

/-! The platform primitives (00_scope.md R8). -/

/-- Call a primitive: it returns, or it never does (60_exceptions.md R217). -/
def callPrim (p : Prim) (s : State) : Res State :=
  match s.env.stall with
  | none => .next (s.atCall p)
  | some 0 => .fault (.neverReturns (s.atCall p))
  | some (n + 1) => .next ((s.atCall p).setEnv { s.env with stall := some n })

/-- `PinMode(p, d)`: `dir[p] <- d` (10_state.md R34). -/
def pinMode (r : Role) (p : Pin) (d : Dir) (s : State) : Res State :=
  andThen (callPrim (.pinMode r d) s) fun s => .next ((s.setPin p { s.pin p with dir := d }).emit (.mode r d))

/-- `PinWrite(p, v)`: `out[p] <- v`; refused where `p` is no output (R34). -/
def pinWrite (r : Role) (p : Pin) (v : Level) (s : State) : Res State :=
  if (s.pin p).dir = .output then
    andThen (callPrim (.pinWrite r v) s) fun s =>
      .next ((s.setPin p { s.pin p with out := some v }).emit (.write r v))
  else .refused .pinNotConfigured

/-- `PinRead(p)`: the environment chooses the level; refused where `p` is no input (R34, 20_memory.md R60). -/
def pinRead (r : Role) (p : Pin) (s : State) : Res (Level × State) :=
  if (s.pin p).dir = .input then
    andThen (callPrim (.pinRead r) s) fun s =>
      .next (s.env.levelAt 0, (s.setEnv (s.env.dropLevels 1)).emit (.read r (s.env.levelAt 0)))
  else .refused .pinNotConfigured

/-- `DelayUs(n)`. -/
def delayUs (n : Nat) (s : State) : Res State :=
  andThen (callPrim (.delayUs n) s) fun s => .next (s.emit (.delay n))

/-- `PeriphSetup()`. -/
def periphSetup (s : State) : Res State := andThen (callPrim .periphSetup s) fun s => .next (s.emit .setup)

/-- `PeriphRelease()`. -/
def periphRelease (s : State) : Res State := andThen (callPrim .periphRelease s) fun s => .next (s.emit .release)

/-- `PeriphBeginTransaction(freq, order, mode)`: the three settings, unchanged (40_lifecycle_control.md R116). -/
def periphBeginTransaction (c : Cfg) (s : State) : Res State :=
  andThen (callPrim (.periphBeginTransaction c.freq c.order c.dataMode) s) fun s =>
    .next (s.emit (.beginSession c.freq c.order c.dataMode))

/-- `PeriphEndTransaction()`. -/
def periphEndTransaction (s : State) : Res State :=
  andThen (callPrim .periphEndTransaction s) fun s => .next (s.emit .endSession)

/-- `PeriphTransfer(s)`: as many bytes back as were sent, chosen by the environment (41_transfer_engine.md R143). -/
def periphTransfer (bs : List Byte) (s : State) : Res (List Byte × State) :=
  andThen (callPrim (.periphTransfer bs) s) fun s =>
    .next (s.env.bytes bs.length,
      (s.setEnv (s.env.dropBytes bs.length)).emit (.transfer bs (s.env.bytes bs.length)))

/-! The bracket around an operation. -/

/-- The sequencer leaves idle for `op` (10_state.md R37). -/
def State.start (s : State) (op : Instr) : State := s.setSeq (some ⟨op, none, 0, none⟩)

/-- The operation returns: the sequencer is idle and the caller has the result (00_scope.md R13). -/
def State.finish (s : State) (r : Ret) : State := (s.setSeq none).setRet r

/-- An operation on a live handle; `noHandle` without one (60_exceptions.md R216, D23). -/
def operation (op : Instr) (s : State) (body : Handle → State → Res (Ret × State)) : Res State :=
  match s.handle with
  | none => .refused .noHandle
  | some h => andThen (body h (s.start op)) fun r => .next (r.2.finish r.1)

/-- A part that the model gives no meaning before BEGIN (60_exceptions.md R216, D15). -/
def whenInitialized {α : Type} (h : Handle) (x : Res α) : Res α :=
  if h.isInitialized then x else .refused .notInitialized

/-! What the next step runs. -/

/-- What the sequencer finds when it looks for the next operation. -/
inductive Fetch
  /-- Nothing is issued: the block waits (70_reset_and_hazards.md R241). -/
  | idle
  /-- An operation, and the state with its request taken from the list. -/
  | run (i : Instr) (s : State)
  /-- Bytes that are no descriptor (30_encoding.md R94). -/
  | malformed (why : DecodeError)
  deriving DecidableEq, Repr

/-- Take the next request; a descriptor is decoded (30_encoding.md R82, R94). -/
def fetch (s : State) : Fetch :=
  match s.pending with
  | [] => .idle
  | .call i :: rest => .run i (s.setPending rest)
  | .descriptor bs :: rest =>
    match decodeDescriptor bs with
    | .ok i => .run i (s.setPending rest)
    | .error e => .malformed e

/-- Issue the descriptor that a table row's bits stand for as the very next operation, with the sequencer idle. -/
def State.issueWord (s : State) (nbits w : Nat) : State :=
  (s.setPending (.descriptor (tableBytes nbits w) :: s.pending)).setSeq none

end Sys2Proof.Machine
end

