-- ==== Sys2Proof/Machine/Operands.lean ====
section
/-! DEFINITION. The operands of operations: buffers (20_memory.md R51, R57 to R61), the operands of constructors
(30_encoding.md R95), and the defaults of omitted operands (R91, R96). -/

namespace Sys2Proof.Machine

/-! Buffers. -/

/-- The bytes an operation reads: the first `len`; `none` where the call is a contract violation, a null buffer with a
non-zero length or a length larger than the buffer (R61). A null buffer of length 0 is the absent one and is legal. -/
def readSrc (b : SrcBuf) : Option (List Byte) :=
  match b.bytes with
  | some bs => if b.len ≤ bs.length then some (bs.take b.len) else none
  | none => if b.len = 0 then some [] else none

/-- Whether a buffer to be filled can take its length (R61). -/
def dstOk (b : DstBuf) : Bool :=
  match b.size with
  | some n => decide (b.len ≤ n)
  | none => decide (b.len = 0)

/-- A buffer after its first bytes were overwritten in place by `rs` (R57). -/
def overwriteSrc (b : SrcBuf) (rs : List Byte) : Option (List Byte) := b.bytes.map fun bs => rs ++ bs.drop b.len

/-- A filled buffer's bytes; a null buffer stays null. -/
def fillDst (b : DstBuf) (rs : List Byte) : Option (List Byte) := b.size.map fun _ => rs

/-- Go on with the bytes of a buffer, or refuse `badBuffer` (60_exceptions.md R216). -/
def withSrc {α : Type} (b : SrcBuf) (k : List Byte → Res α) : Res α :=
  match readSrc b with
  | some bs => k bs
  | none => .refused .badBuffer

/-- Go on with a buffer to fill, or refuse `badBuffer`. -/
def withDst {α : Type} (b : DstBuf) (x : Res α) : Res α := if dstOk b then x else .refused .badBuffer

/-- `~b`, written `b ^ 0xFF` (00_scope.md R7; 30_encoding.md R93). -/
def complementByte (b : Byte) : Byte := b ^^^ 0xFF#8

/-- What WRITE transmits for the bytes `bs` (42_transaction_framer.md R182). -/
def invertIf (invert : Bool) (bs : List Byte) : List Byte := if invert then bs.map complementByte else bs

/-! Constructor operands. -/

/-- The pins of a Software handle that are not unset (40_lifecycle_control.md R111). -/
def presentPins (cs : Option Pin) (clk : Pin) (miso mosi : Option Pin) : List Pin :=
  cs.toList ++ clk :: (miso.toList ++ mosi.toList)

/-- No pin identifier occurs twice. -/
def allDistinct : List Pin → Bool
  | [] => true
  | p :: ps => !ps.contains p && allDistinct ps

/-- Go on with a legal data mode, or refuse: the first test of both constructors (40_lifecycle_control.md R110 to R112). -/
def withDataMode {α : Type} (mode : Nat) (k : BitVec 2 → Res α) : Res α :=
  if mode < 4 then k (BitVec.ofNat 2 mode) else .refused .contractViolation

/-- Go on with a chip-select that is given, or refuse (R112). The constructors' pseudocode has no such test: it comes last,
log 12. -/
def withCsPin {α : Type} (cs : Option Pin) (k : Pin → Res α) : Res α :=
  match cs with
  | some p => k p
  | none => .refused .contractViolation

/-- Go on if the pins are pairwise distinct, or refuse `pinClash` (R111, D18). -/
def withDistinct {α : Type} (pins : List Pin) (x : Res α) : Res α :=
  if allDistinct pins then x else .refused .pinClash

/-- The pins a handle was given (10_state.md R34). -/
def Cfg.pins (c : Cfg) : List Pin :=
  match c.bus with
  | .hardware _ => [c.csPin]
  | .software w => presentPins (some c.csPin) w.clk w.miso w.mosi

/-! Calls that omit an operand (30_encoding.md R91, R96, R98). -/

/-- The absent optional prefix of a call, a null buffer; a descriptor carries an empty one in its place (log 34). -/
def Api.noPrefix : SrcBuf := ⟨none, 0⟩
/-- "frequency (default 1 MHz)", "bit_order (default MSB-first)", "data_mode (default mode 0)", and the primary peripheral. -/
def Api.constructHw (cs : Pin) (freq : Nat := 1000000) (order : BitOrder := .msbFirst) (mode : Nat := 0)
    (periph : PeriphRef := 0) : Instr := .constructHw (some cs) freq order mode periph
/-- `write(buffer, length, prefix_buffer?, prefix_len?, invert?)`. -/
def Api.write (buffer : SrcBuf) (lead : SrcBuf := Api.noPrefix) (invert : Bool := false) : Instr :=
  .write buffer lead invert
/-- `read(buffer, length, fill_value=0xFF)`. -/
def Api.read (buffer : DstBuf) (fill : Byte := 0xFF) : Instr := .read buffer fill
/-- `write_then_read(write_buffer, write_len, read_buffer, read_len, fill_value=0xFF)`. -/
def Api.writeThenRead (source : SrcBuf) (buffer : DstBuf) (fill : Byte := 0xFF) : Instr :=
  .writeThenRead source buffer fill
/-- `repeated(value, times, prefix_buffer?, prefix_len?)`. -/
def Api.repeated (value : Byte) (times : Nat) (lead : SrcBuf := Api.noPrefix) : Instr := .repeated value times lead

end Sys2Proof.Machine
end

