-- ==== Sys2Proof/Machine/Flags.lean ====
section
/-! DEFINITION. The two flags (10_state.md R31, R32) and the values that are functions of the configuration alone (R39). The
block has no condition codes and no status register (R33, R38). -/

namespace Sys2Proof.Machine

/-- `cs_control_enabled` is read by BEGIN and at each chip-select step (R31, 42_transaction_framer.md R181). -/
def State.csControl (s : State) : Bool :=
  match s.handle with
  | some h => h.csControlEnabled
  | none => false

/-- `cs_control_enabled <- b` (40_lifecycle_control.md R118, R119). -/
def Handle.withCsControl (h : Handle) (b : Bool) : Handle := { h with csControlEnabled := b }

/-- `is_initialized <- true` (R113); nothing sets it back. -/
def Handle.initialized (h : Handle) : Handle := { h with isInitialized := true }

/-- A handle after construction (10_state.md R40, D4). -/
def Handle.fresh (c : Cfg) : Handle := ⟨c, true, false⟩

/-- `idle_level`: bit 1 of `data_mode` (R24, R39). -/
def Cfg.idleLevel (c : Cfg) : Level := c.dataMode.getLsbD 1

/-- Sequence B is chosen by bit 0 of `data_mode`: modes 1 and 3 (R24, 30_encoding.md R87). -/
def Cfg.sequenceB (c : Cfg) : Bool := c.dataMode.getLsbD 0

/-- "raise clock" (30_encoding.md R89, D3; log 13). -/
def Cfg.raised (c : Cfg) : Level := if Config.clkRelativeToIdle then !c.idleLevel else true

/-- "lower clock" (R89, D3; log 13). -/
def Cfg.lowered (c : Cfg) : Level := if Config.clkRelativeToIdle then c.idleLevel else false

/-- `HalfPeriodUs` (41_transfer_engine.md R144). -/
def halfPeriodUs (freq : Nat) : Nat := if freq = 0 then 0 else 1000000 / freq / 2

/-- `half_period_us` of a handle (R39). -/
def Cfg.halfPeriod (c : Cfg) : Nat := halfPeriodUs c.freq

/-- `StartMask` (R145). -/
def startMask : BitOrder → Byte
  | .msbFirst => 0x80
  | .lsbFirst => 0x01

/-- `NextMask` (R145). -/
def nextMask : BitOrder → Byte → Byte
  | .msbFirst, m => m >>> 1
  | .lsbFirst, m => m <<< 1

/-- The bit of `b` that `m` selects: `(b & m) != 0` (R146). -/
def maskedBit (b m : Byte) : Level := !decide (b &&& m = 0#8)

end Sys2Proof.Machine
end

