-- ==== Sys2Proof/Machine/Engine.lean ====
section
/-! DEFINITION. The Transfer Engine (41_transfer_engine.md): the bit-banged timing engine, the delegation to the peripheral,
and the operations TRANSFER and TRANSFER_BYTE. -/

namespace Sys2Proof.Machine

/-! Software mode: one bit slot. -/

/-- The half-period wait: no call at all where it is 0 (R147). -/
def waitHalf (c : Cfg) (s : State) : Res State :=
  if 0 < c.halfPeriod then delayUs c.halfPeriod s else .next s

/-- Sequence A drives data-out only where the bit differs from `last_mosi` (R148, R152). -/
def driveIfChanged (w : SwPins) (bit : Level) (s : State) : Res State :=
  match w.mosi with
  | none => .next s
  | some p =>
    if bit = s.regs.lastMosi then .next s
    else andThen (pinWrite .mosi p bit s) fun s => .next (s.setRegs { s.regs with lastMosi := bit })

/-- Sequence B drives data-out always; an absent pin is still skipped (R149, R152, C9). -/
def driveAlways (w : SwPins) (bit : Level) (s : State) : Res State :=
  match w.mosi with
  | none => .next s
  | some p => pinWrite .mosi p bit s

/-- Sample data-in where present: a sampled 1 is OR-ed into `rx` at `mask` (R148, R149, R151). -/
def sample (w : SwPins) (s : State) : Res State :=
  match w.miso with
  | none => .next s
  | some p =>
    andThen (pinRead .miso p s) fun r =>
      .next (if r.1 then r.2.setRegs { r.2.regs with rx := r.2.regs.rx ||| r.2.regs.mask } else r.2)

/-- `SequenceA`: data modes 0 and 2 (R148). -/
def sequenceA (c : Cfg) (w : SwPins) (bit : Level) (s : State) : Res State :=
  andThen (driveIfChanged w bit s) fun s =>
  andThen (pinWrite .clk w.clk c.raised s) fun s =>
  andThen (waitHalf c s) fun s =>
  andThen (sample w s) fun s =>
  pinWrite .clk w.clk c.lowered s

/-- `SequenceB`: data modes 1 and 3 (R149). -/
def sequenceB (c : Cfg) (w : SwPins) (bit : Level) (s : State) : Res State :=
  andThen (pinWrite .clk w.clk c.raised s) fun s =>
  andThen (waitHalf c s) fun s =>
  andThen (driveAlways w bit s) fun s =>
  andThen (pinWrite .clk w.clk c.lowered s) fun s =>
  sample w s

/-- One bit slot: the opening wait, the sequence the data mode chooses, the next mask (R146, R147). -/
def bitSlot (c : Cfg) (w : SwPins) (s : State) : Res State :=
  andThen (waitHalf c s) fun s =>
  andThen (if c.sequenceB then sequenceB c w (maskedBit s.regs.tx s.regs.mask) s
           else sequenceA c w (maskedBit s.regs.tx s.regs.mask) s) fun s =>
  .next (s.setRegs { s.regs with mask := nextMask c.order s.regs.mask })

/-- `n` bit slots. -/
def bitSlots (c : Cfg) (w : SwPins) : Nat → State → Res State
  | 0, s => .next s
  | n + 1, s => andThen (bitSlot c w s) fun s => bitSlots c w n s

/-! Software mode: the byte loop. -/

/-- The registers at the start of a byte: `tx` latched, `rx` cleared, `mask` at the first bit (R146, R150). -/
def State.loadByte (s : State) (c : Cfg) (b : Byte) : State :=
  s.setRegs { s.regs with tx := b, rx := 0#8, mask := startMask c.order }

/-- One byte: eight slots, then the write-back: `rx` where data-in is present, else the byte stays (R146, R150, R151). -/
def swByte (c : Cfg) (w : SwPins) (b : Byte) (s : State) : Res (Byte × State) :=
  andThen (bitSlots c w 8 (s.loadByte c b)) fun s =>
    .next (if w.miso.isSome then s.regs.rx else b, s.advance 1)

/-- The bytes of the buffer in ascending order (R146); the buffer afterwards. -/
def swBytes (c : Cfg) (w : SwPins) : List Byte → State → Res (List Byte × State)
  | [], s => .next ([], s)
  | b :: bs, s =>
    andThen (swByte c w b s) fun r =>
    andThen (swBytes c w bs r.2) fun rs =>
    .next (r.1 :: rs.1, rs.2)

/-- `SwTransfer`: `last_mosi` starts as the complement of the first bit (R146, R155, D8); afterwards the working registers
hold nothing the spec specifies (10_state.md R35, R40). -/
def swTransfer (c : Cfg) (w : SwPins) (b : Byte) (bs : List Byte) (s : State) : Res (List Byte × State) :=
  andThen (swBytes c w (b :: bs) (s.setRegs { s.regs with lastMosi := !maskedBit b (startMask c.order) })) fun r =>
    .next (r.1, r.2.forgetRegs)

/-! Hardware mode, and the engine. -/

/-- `HwTransfer`: the whole buffer in one call (R143). -/
def hwTransfer (bs : List Byte) (s : State) : Res (List Byte × State) :=
  andThen (periphTransfer bs s) fun r => .next (r.1, r.2.advance bs.length)

/-- One engine invocation on a buffer; the buffer afterwards (R140, R142). Length 0 makes no event (D20). -/
def engine (c : Cfg) (bs : List Byte) (s : State) : Res (List Byte × State) :=
  match bs with
  | [] => .next ([], s)
  | b :: rest =>
    match c.bus with
    | .hardware _ => hwTransfer (b :: rest) s
    | .software w => swTransfer c w b rest s

/-- `XferByte`: an engine invocation on a private one-byte buffer (R141). -/
def xferByte (c : Cfg) (b : Byte) (s : State) : Res (Byte × State) :=
  andThen (engine c [b] s) fun r => .next (r.1.headD b, r.2)

/-! The operations. -/

/-- TRANSFER (R140): in place, no chip-select, no transaction (R160). -/
def execTransfer (buffer : SrcBuf) (s : State) : Res State :=
  operation (.transfer buffer) s fun h s =>
    whenInitialized h <|
    withSrc buffer fun bs =>
    andThen (engine h.cfg bs s) fun r =>
    .next ({ value := .nothing, buffer := overwriteSrc buffer r.1 }, r.2)

/-- TRANSFER_BYTE (R141). -/
def execTransferByte (byte : Byte) (s : State) : Res State :=
  operation (.transferByte byte) s fun h s =>
    whenInitialized h <|
    andThen (xferByte h.cfg byte s) fun r =>
    .next ({ value := .byte r.1 }, r.2)

end Sys2Proof.Machine
end

