-- ==== Sys2Proof/Machine/Framer.lean ====
section
/-! DEFINITION. The Transaction Framer (42_transaction_framer.md R180 to R191). -/

namespace Sys2Proof.Machine

/-! The frame. -/

/-- `CsAssert` and `CsDeassert`: a chip-select write, only under chip-select control (R181; asserted is 0, 30_encoding.md
R88). -/
def driveCs (c : Cfg) (v : Level) (s : State) : Res State :=
  if s.csControl then pinWrite .cs c.csPin v s else .next s

/-- Phase (a), in Hardware mode (R180). -/
def beginSession (c : Cfg) (s : State) : Res State :=
  match c.bus with
  | .hardware _ => periphBeginTransaction c s
  | .software _ => .next s

/-- Phase (e), in Hardware mode (R180). -/
def endSession (c : Cfg) (s : State) : Res State :=
  match c.bus with
  | .hardware _ => periphEndTransaction s
  | .software _ => .next s

/-- The chip-select bracket, phases (b) to (d). -/
def selected {α : Type} (c : Cfg) (body : State → Res (α × State)) (s : State) : Res (α × State) :=
  andThen (driveCs c false (s.atPhase .csLow)) fun s =>
  andThen (body (s.atPhase .transfers)) fun r =>
  andThen (driveCs c true (r.2.atPhase .csHigh)) fun s =>
  .next (r.1, s)

/-- `Frame(body)`: phases (a) to (e), once each (R180). -/
def frame {α : Type} (c : Cfg) (body : State → Res (α × State)) (s : State) : Res (α × State) :=
  andThen (beginSession c (s.atPhase .beginTransaction)) fun s =>
  andThen (selected c body s) fun r =>
  andThen (endSession c (r.2.atPhase .endTransaction)) fun s =>
  .next (r.1, s)

/-- One `XferByte` for each byte of a stream; the bytes received (R191). -/
def xferAll (c : Cfg) : List Byte → State → Res (List Byte × State)
  | [], s => .next ([], s)
  | b :: bs, s =>
    andThen (xferByte c b s) fun r =>
    andThen (xferAll c bs r.2) fun rs =>
    .next (r.1 :: rs.1, rs.2)

/-! The four composite operations. -/

/-- WRITE (R182): prefix, then buffer, complemented where `invert`; received bytes are dropped, buffers unchanged. -/
def execWrite (buffer lead : SrcBuf) (invert : Bool) (s : State) : Res State :=
  operation (.write buffer lead invert) s fun h s =>
    whenInitialized h <|
    withSrc lead fun ps =>
    withSrc buffer fun bs =>
    andThen (frame h.cfg (xferAll h.cfg (invertIf invert (ps ++ bs))) s) fun r =>
    .next ({ value := .success true, buffer := buffer.bytes, lead := lead.bytes }, r.2)

/-- READ (R183): the fill, then one invocation over the whole buffer. -/
def execRead (buffer : DstBuf) (fill : Byte) (s : State) : Res State :=
  operation (.read buffer fill) s fun h s =>
    whenInitialized h <|
    withDst buffer <|
    andThen (frame h.cfg (engine h.cfg (List.replicate buffer.len fill)) s) fun r =>
    .next ({ value := .success true, buffer := fillDst buffer r.1 }, r.2)

/-- The body of WRITE_THEN_READ: two sequential phases; the bytes of the second (R184). -/
def writeThenReadBody (c : Cfg) (ws : List Byte) (n : Nat) (fill : Byte) (s : State) : Res (List Byte × State) :=
  andThen (xferAll c ws s) fun r => xferAll c (List.replicate n fill) r.2

/-- WRITE_THEN_READ (R184). -/
def execWriteThenRead (source : SrcBuf) (buffer : DstBuf) (fill : Byte) (s : State) : Res State :=
  operation (.writeThenRead source buffer fill) s fun h s =>
    whenInitialized h <|
    withSrc source fun ws =>
    withDst buffer <|
    andThen (frame h.cfg (writeThenReadBody h.cfg ws buffer.len fill) s) fun r =>
    .next ({ value := .success true, buffer := fillDst buffer r.1, source := source.bytes }, r.2)

/-- REPEATED (R185): prefix, then `times` copies of `value`; received bytes are dropped. -/
def execRepeated (value : Byte) (times : Nat) (lead : SrcBuf) (s : State) : Res State :=
  operation (.repeated value times lead) s fun h s =>
    whenInitialized h <|
    withSrc lead fun ps =>
    andThen (frame h.cfg (xferAll h.cfg (ps ++ List.replicate times value)) s) fun r =>
    .next ({ value := .success true, lead := lead.bytes }, r.2)

/-! The single-byte convenience. -/

/-- WRITE_AND_READ (R186): chip-select bracket, no transaction signals; the received byte (D14). -/
def execWriteAndRead (byte : Byte) (s : State) : Res State :=
  operation (.writeAndRead byte) s fun h s =>
    whenInitialized h <|
    andThen (selected h.cfg (xferByte h.cfg byte) s) fun r =>
    .next ({ value := .byte r.1 }, r.2)

end Sys2Proof.Machine
end

