-- ==== Sys2Proof/Machine/Lifecycle.lean ====
section
/-! DEFINITION. Construction, lifecycle and control (40_lifecycle_control.md R110 to R120). -/

namespace Sys2Proof.Machine

/-! Construction: the reset of a handle (70_reset_and_hazards.md R240). -/

/-- The state right after construction (10_state.md R40): the flags at their reset values, the block's view of the pins it
was given fresh, the working registers unspecified; no primitive is called. Logs 8 and 9. -/
def State.construct (s : State) (c : Cfg) : State :=
  ((s.setHandle (some (Handle.fresh c))).setPins (c.pins.foldr pinClear s.pins)).forgetRegs

/-- CONSTRUCT_HW (R110). -/
def execConstructHw (cs : Option Pin) (freq : Nat) (order : BitOrder) (mode : Nat) (periph : PeriphRef) (s : State) :
    Res State :=
  withDataMode mode fun m =>
  withCsPin cs fun p =>
  .next ((s.construct ⟨p, freq, order, m, .hardware periph⟩).finish { value := .handle })

/-- CONSTRUCT_SW (R111): the tests in the pseudocode's order (60_exceptions.md R214), the one it lacks last (log 12). -/
def execConstructSw (cs : Option Pin) (clk : Pin) (miso mosi : Option Pin) (freq : Nat) (order : BitOrder) (mode : Nat)
    (s : State) : Res State :=
  withDataMode mode fun m =>
  withDistinct (presentPins cs clk miso mosi) <|
  withCsPin cs fun p =>
  .next ((s.construct ⟨p, freq, order, m, .software ⟨clk, mosi, miso⟩⟩).finish { value := .handle })

/-! Initialisation and release. -/

/-- BEGIN's chip-select part: an output at 1, only under chip-select control (R113, D5). -/
def beginCs (c : Cfg) (s : State) : Res State :=
  if s.csControl then
    andThen (pinMode .cs c.csPin .output s) fun s => pinWrite .cs c.csPin true s
  else .next s

/-- A present output pin of the Software variant: its direction, then its level (R113, D6). -/
def beginOutput (r : Role) (p : Option Pin) (v : Level) (s : State) : Res State :=
  match p with
  | none => .next s
  | some p => andThen (pinMode r p .output s) fun s => pinWrite r p v s

/-- A present input pin of the Software variant (R113). -/
def beginInput (r : Role) (p : Option Pin) (s : State) : Res State :=
  match p with
  | none => .next s
  | some p => pinMode r p .input s

/-- BEGIN's peripheral or pin setup (R113, D24). -/
def beginBus (c : Cfg) (s : State) : Res State :=
  match c.bus with
  | .hardware _ => periphSetup s
  | .software w =>
    andThen (beginOutput .clk (some w.clk) c.idleLevel s) fun s =>
    andThen (beginOutput .mosi w.mosi Config.mosiInitLevel s) fun s =>
    beginInput .miso w.miso s

/-- BEGIN (R113, R114). The working registers, which 10_state.md R40 calls unspecified after it, are left as they are: DESIGN
CHOICE, log 7. -/
def execBegin (s : State) : Res State :=
  operation .beginInit s fun h s =>
    andThen (beginCs h.cfg s) fun s =>
    andThen (beginBus h.cfg s) fun s =>
    .next ({ value := .success true }, s.setHandle (some h.initialized))

/-- A signal to the peripheral in Hardware mode, refused before BEGIN (D15); a no-op in Software mode (D27). -/
def onlyHardware (h : Handle) (signal : State → Res State) (s : State) : Res (Ret × State) :=
  match h.cfg.bus with
  | .hardware _ => whenInitialized h <| andThen (signal s) fun s => .next ({ value := .nothing }, s)
  | .software _ => .next ({ value := .nothing }, s)

/-- END (R115). -/
def execEnd (s : State) : Res State :=
  operation .endRelease s fun h s => onlyHardware h periphRelease s

/-- DESTROY (R120): the handle is gone, pins and peripheral are left. -/
def execDestroy (s : State) : Res State :=
  operation .destroy s fun _ s => .next ({ value := .nothing }, s.setHandle none)

/-! Transaction signalling. -/

/-- BEGIN_TRANSACTION (R116). -/
def execBeginTransaction (s : State) : Res State :=
  operation .beginTransaction s fun h s => onlyHardware h (periphBeginTransaction h.cfg) s

/-- END_TRANSACTION (R117). -/
def execEndTransaction (s : State) : Res State :=
  operation .endTransaction s fun h s => onlyHardware h periphEndTransaction s

/-! Chip-select control. -/

/-- DISABLE_CS_TOGGLE (R118). -/
def execDisableCsToggle (s : State) : Res State :=
  operation .disableCsToggle s fun h s => .next ({ value := .nothing }, s.setHandle (some (h.withCsControl false)))

/-- ENABLE_CS_TOGGLE (R119). -/
def execEnableCsToggle (s : State) : Res State :=
  operation .enableCsToggle s fun h s => .next ({ value := .nothing }, s.setHandle (some (h.withCsControl true)))

end Sys2Proof.Machine
end

