-- ==== Sys2Proof/Machine/Dispatch.lean ====
section
/-! DEFINITION. One arm for each operation. -/

namespace Sys2Proof.Machine

/-- The meaning of each operation of 30_encoding.md R81. -/
def exec (i : Instr) (s : State) : Host.Outcome State Fault Refusal :=
  match i with
  | .constructHw cs freq order mode periph => Sys2Proof.Machine.execConstructHw cs freq order mode periph s
  | .constructSw cs clk miso mosi freq order mode => Sys2Proof.Machine.execConstructSw cs clk miso mosi freq order mode s
  | .beginInit => Sys2Proof.Machine.execBegin s
  | .endRelease => Sys2Proof.Machine.execEnd s
  | .beginTransaction => Sys2Proof.Machine.execBeginTransaction s
  | .endTransaction => Sys2Proof.Machine.execEndTransaction s
  | .disableCsToggle => Sys2Proof.Machine.execDisableCsToggle s
  | .enableCsToggle => Sys2Proof.Machine.execEnableCsToggle s
  | .write buffer lead invert => Sys2Proof.Machine.execWrite buffer lead invert s
  | .read buffer fill => Sys2Proof.Machine.execRead buffer fill s
  | .writeThenRead source buffer fill => Sys2Proof.Machine.execWriteThenRead source buffer fill s
  | .repeated value times lead => Sys2Proof.Machine.execRepeated value times lead s
  | .transfer buffer => Sys2Proof.Machine.execTransfer buffer s
  | .transferByte byte => Sys2Proof.Machine.execTransferByte byte s
  | .writeAndRead byte => Sys2Proof.Machine.execWriteAndRead byte s
  | .destroy => Sys2Proof.Machine.execDestroy s

end Sys2Proof.Machine
end

