-- ==== Sys2Proof/Machine/Step.lean ====
section
/-! DEFINITION. One step: the next operation the caller issued, run to completion (00_scope.md R12, R13). -/

namespace Sys2Proof.Machine

/-- One step. A block still inside an operation that never returned is stuck (60_exceptions.md R217); with nothing issued
it waits (70_reset_and_hazards.md R241); bytes that are no descriptor are refused (30_encoding.md R94). -/
def step (s : State) : Host.Outcome State Fault Refusal :=
  match s.seq with
  | some _ => .fault (.neverReturns s)
  | none =>
    match fetch s with
    | .idle => .next s
    | .run i t => exec i t
    | .malformed why => .refused (.malformedDescriptor why)

/-- The state in which the very next step runs the operation of a table row's bits: its descriptor is the next request, and
the sequencer is idle. Log 2. -/
def State.withFetchWord (s : State) (nbits w : Nat) : State := s.issueWord nbits w

end Sys2Proof.Machine
end

