-- ==== Sys2Proof/Machine/Wire.lean ====
section
/-! DEFINITION. What an observer of the trace says: output latches and wire equivalence (00_scope.md R10, 10_state.md R34), and,
written from the spec's event orders and not from the engine, the events and the bytes of an invocation in closed form
(20_memory.md R56, 41_transfer_engine.md R147 to R158, 42_transaction_framer.md R188). `exec` uses nothing of this file. -/

namespace Sys2Proof.Machine

/-! Output latches by role, and the wire. -/

/-- The output latches of a handle's pins; `none` for UNKNOWN or an absent pin. -/
structure Latches where
  cs   : Option Level
  clk  : Option Level
  mosi : Option Level
  deriving DecidableEq, Repr

/-- The latch of a role. The block never writes data-in (R34). -/
def Latches.get (l : Latches) : Role → Option Level
  | .cs => l.cs
  | .clk => l.clk
  | .mosi => l.mosi
  | .miso => none

/-- The latches after `PinWrite(r, v)`. -/
def Latches.set (l : Latches) (v : Level) : Role → Latches
  | .cs => { l with cs := some v }
  | .clk => { l with clk := some v }
  | .mosi => { l with mosi := some v }
  | .miso => l

/-- The latches after an event. -/
def Latches.after (l : Latches) : Event → Latches
  | .write r v => l.set v r
  | .mode .. | .read .. | .delay .. | .setup | .release | .beginSession .. | .endSession | .transfer .. => l

/-- The latches a handle with configuration `c` has in pin space `m`. -/
def latchesOf (c : Cfg) (m : Pins) : Latches :=
  match c.bus with
  | .hardware _ => ⟨(pinGet m c.csPin).out, none, none⟩
  | .software w => ⟨(pinGet m c.csPin).out, (pinGet m w.clk).out, w.mosi.bind fun p => (pinGet m p).out⟩

/-- Chip-select has an external owner: there is a handle and its `cs_control_enabled` is false (R31, R34). DESIGN CHOICE, log
32: after DESTROY the flag is gone (40_lifecycle_control.md R120), and R34's exception with it. -/
def State.csExternal (s : State) : Bool :=
  match s.handle with
  | some h => !h.csControlEnabled
  | none => false

/-- The wire level of an output pin, `out[p]` while `dir[p] = OUT` (R34), with or without a live handle: after DESTROY a
chip-select left asserted stays asserted (R120). The wire of chip-select is the external owner's while `cs_control_enabled` is
false (R34, 70_reset_and_hazards.md R251; log 32). `none` where the model gives it no level. -/
def State.wire (s : State) (r : Role) (p : Pin) : Option Level :=
  if r = .cs ∧ s.csExternal = true then none
  else if (s.pin p).dir = .output then (s.pin p).out else none

/-! Wire equivalence. -/

/-- Delete every `W(p,v)` issued while the latch of `p` already holds `v` (R10 clause a). -/
def dropRedundant : Latches → List Event → List Event
  | _, [] => []
  | l, e :: es =>
    match e with
    | .write r v => if l.get r = some v then dropRedundant l es else e :: dropRedundant (l.set v r) es
    | .mode .. | .read .. | .delay .. | .setup | .release | .beginSession .. | .endSession | .transfer .. =>
      e :: dropRedundant l es

/-- Put a `PT` event in front of a list in which every run of `PT` is one event. -/
def consTransfer (sent returned : List Byte) : List Event → List Event
  | .transfer s r :: es => .transfer (sent ++ s) (returned ++ r) :: es
  | es => .transfer sent returned :: es

/-- Replace every maximal run of `PT` events by one (R10 clause b). -/
def mergeTransfers : List Event → List Event
  | [] => []
  | .transfer s r :: es => consTransfer s r (mergeTransfers es)
  | e :: es => e :: mergeTransfers es

/-- The representative of a trace's class, for one operation that starts with latches `l`. -/
def wireForm (l : Latches) (es : List Event) : List Event := mergeTransfers (dropRedundant l es)

/-- Two traces of one operation are wire-equivalent (R10). -/
abbrev wireEq (l : Latches) (es es' : List Event) : Prop := wireForm l es = wireForm l es'

/-- The hypothesis of the loopback property: every `R(MISO)` returns the current `out[MOSI]` (R158). -/
def isLoopback : Latches → List Event → Bool
  | _, [] => true
  | l, e :: es =>
    (match e with
      | .read .miso v => decide (l.mosi = some v)
      | .read .cs _ | .read .clk _ | .read .mosi _ | .mode .. | .write .. | .delay .. | .setup | .release
      | .beginSession .. | .endSession | .transfer .. => true) && isLoopback (l.after e) es

/-! Bits of a byte on the wire (20_memory.md R56). -/

/-- The bit number of the `k`-th slot of a byte: 7, 6, … 0 or 0, 1, … 7. -/
def slotBit : BitOrder → Nat → Nat
  | .msbFirst, k => 7 - k
  | .lsbFirst, k => k

/-- The bits of a byte in the order they go on the wire. -/
def bitsOf (o : BitOrder) (b : Byte) : List Level := (List.range 8).map fun k => b.getLsbD (slotBit o k)

/-- The number whose binary digits are `vs`, least significant first. -/
def natOfBits : List Level → Nat
  | [] => 0
  | v :: vs => v.toNat + 2 * natOfBits vs

/-- The byte whose bits arrived as `vs`: each at the position its slot has (R56). -/
def byteOfLevels (o : BitOrder) (vs : List Level) : Byte :=
  match o with
  | .msbFirst => BitVec.ofNat 8 (natOfBits vs.reverse)
  | .lsbFirst => BitVec.ofNat 8 (natOfBits vs)

/-! The events of a Software-mode invocation. -/

/-- `[D(hp)]` (R147). -/
def waitEvents (c : Cfg) : List Event := if 0 < c.halfPeriod then [.delay c.halfPeriod] else []

/-- `[W(MOSI,bit)]`. -/
def driveEvents (w : SwPins) (drive : Bool) (bit : Level) : List Event :=
  if w.mosi.isSome && drive then [.write .mosi bit] else []

/-- `[R(MISO)=v]`. -/
def sampleEvents (w : SwPins) (v : Level) : List Event := if w.miso.isSome then [.read .miso v] else []

/-- One slot, in the event order of R148 (sequence A; `changed`: the bit differs from the one before) or R149 (B). -/
def slotEvents (c : Cfg) (w : SwPins) (changed : Bool) (bit v : Level) : List Event :=
  if c.sequenceB then
    waitEvents c ++ [.write .clk true] ++ waitEvents c ++ driveEvents w true bit ++ [.write .clk false]
      ++ sampleEvents w v
  else
    waitEvents c ++ driveEvents w changed bit ++ [.write .clk true] ++ waitEvents c ++ sampleEvents w v
      ++ [.write .clk false]

/-- The slots of a bit stream; `last` is the bit before (none before the first: it is always driven, R155), `k` counts the
answers of the slave, `ans k`. -/
def streamEvents (c : Cfg) (w : SwPins) (ans : Nat → Level) : Option Level → Nat → List Level → List Event
  | _, _, [] => []
  | last, k, bit :: bits =>
    slotEvents c w (!decide (last = some bit)) bit (ans k) ++ streamEvents c w ans (some bit) (k + 1) bits

/-- The byte received in the slots from answer `k` on. -/
def receivedByte (o : BitOrder) (ans : Nat → Level) (k : Nat) : Byte :=
  byteOfLevels o ((List.range 8).map fun j => ans (k + j))

/-! One engine invocation, either mode. -/

/-- The events of an invocation on `bs` when the environment stands at `e` (R143, R146, D20). -/
def engineEvents (c : Cfg) (bs : List Byte) (e : Env) : List Event :=
  match c.bus with
  | .hardware _ => if bs = [] then [] else [.transfer bs (e.bytes bs.length)]
  | .software w => streamEvents c w e.levelAt none 0 (bs.flatMap (bitsOf c.order))

/-- The buffer after an invocation (R143, R150, R151). -/
def engineBytes (c : Cfg) (bs : List Byte) (e : Env) : List Byte :=
  match c.bus with
  | .hardware _ => e.bytes bs.length
  | .software w =>
    if w.miso.isSome then (List.range bs.length).map fun i => receivedByte c.order e.levelAt (8 * i) else bs

/-- The environment after an invocation: eight levels a byte where data-in is present, or the peripheral's bytes. -/
def engineEnv (c : Cfg) (bs : List Byte) (e : Env) : Env :=
  match c.bus with
  | .hardware _ => e.dropBytes bs.length
  | .software w => if w.miso.isSome then e.dropLevels (8 * bs.length) else e

/-! One `XferByte` for each byte (R141, R191). -/

/-- The events. -/
def xferEvents (c : Cfg) : List Byte → Env → List Event
  | [], _ => []
  | b :: bs, e => engineEvents c [b] e ++ xferEvents c bs (engineEnv c [b] e)

/-- The bytes received. -/
def xferBytes (c : Cfg) : List Byte → Env → List Byte
  | [], _ => []
  | b :: bs, e => engineBytes c [b] e ++ xferBytes c bs (engineEnv c [b] e)

/-! The frame (R180, R181, R189). -/

/-- A chip-select write, if the block controls it. -/
def csEvents (on : Bool) (v : Level) : List Event := if on then [.write .cs v] else []

/-- Phases (b) to (d) around the events of the transfers. -/
def selectedEvents (on : Bool) (inner : List Event) : List Event := csEvents on false ++ inner ++ csEvents on true

/-- Phases (a) to (e) around the events of the transfers. -/
def frameEvents (c : Cfg) (on : Bool) (inner : List Event) : List Event :=
  match c.bus with
  | .hardware _ => [.beginSession c.freq c.order c.dataMode] ++ selectedEvents on inner ++ [.endSession]
  | .software _ => selectedEvents on inner

/-- The events of BEGIN (40_lifecycle_control.md R113). -/
def beginEvents (c : Cfg) (on : Bool) : List Event :=
  (if on then [.mode .cs .output, .write .cs true] else []) ++
  match c.bus with
  | .hardware _ => [.setup]
  | .software w =>
    [.mode .clk .output, .write .clk c.idleLevel]
      ++ (if w.mosi.isSome then [.mode .mosi .output, .write .mosi Config.mosiInitLevel] else [])
      ++ (if w.miso.isSome then [.mode .miso .input] else [])

/-! Streams and counts. -/

/-- `TxStream`: the bytes an operation hands to the engine, in order (R188), for operands that are no contract violation. -/
def txStream : Instr → List Byte
  | .write buffer lead invert => invertIf invert ((readSrc lead).getD [] ++ (readSrc buffer).getD [])
  | .read buffer fill => List.replicate buffer.len fill
  | .writeThenRead source buffer fill => (readSrc source).getD [] ++ List.replicate buffer.len fill
  | .repeated value times lead => (readSrc lead).getD [] ++ List.replicate times value
  | .writeAndRead byte => [byte]
  | .transfer buffer => (readSrc buffer).getD []
  | .transferByte byte => [byte]
  | .constructHw .. | .constructSw .. | .beginInit | .endRelease | .beginTransaction | .endTransaction
  | .disableCsToggle | .enableCsToggle | .destroy => []

/-- The bytes sent in the `PT` events of a trace, concatenated (R188). -/
def sentBytes (es : List Event) : List Byte :=
  es.flatMap fun e => match e with
    | .transfer s _ => s
    | .mode .. | .write .. | .read .. | .delay .. | .setup | .release | .beginSession .. | .endSession => []

/-- The level of data-out whenever the block writes the clock as `v`: at `v = true` for sequence A (valid before the clock
goes to 1, R148), at `v = false` for sequence B (valid when the clock goes to 0, R149). -/
def clockedBits (v : Level) : Latches → List Event → List (Option Level)
  | _, [] => []
  | l, e :: es =>
    (if e = .write .clk v then [l.mosi] else []) ++ clockedBits v (l.after e) es

/-- The sum of the `DelayUs` arguments of a trace (R157). -/
def delaySum (es : List Event) : Nat :=
  (es.map fun e => match e with
    | .delay n => n
    | .mode .. | .write .. | .read .. | .setup | .release | .beginSession .. | .endSession | .transfer .. => 0).sum

/-- The event with what the environment answered taken out (R159). -/
def Event.blind : Event → Event
  | .read r _ => .read r false
  | .transfer s r => .transfer s (r.map fun _ => 0#8)
  | .mode r d => .mode r d
  | .write r v => .write r v
  | .delay n => .delay n
  | .setup => .setup
  | .release => .release
  | .beginSession f o m => .beginSession f o m
  | .endSession => .endSession

/-- A chip-select write. -/
def Event.isCsWrite : Event → Bool
  | .write .cs _ => true
  | .write .clk _ | .write .mosi _ | .write .miso _ | .mode .. | .read .. | .delay .. | .setup | .release
  | .beginSession .. | .endSession | .transfer .. => false

/-- An event on chip-select: its mode or its level. -/
def Event.onCs : Event → Bool
  | .write .cs _ | .mode .cs _ | .read .cs _ => true
  | .write .clk _ | .write .mosi _ | .write .miso _ | .mode .clk _ | .mode .mosi _ | .mode .miso _
  | .read .clk _ | .read .mosi _ | .read .miso _ | .delay .. | .setup | .release | .beginSession .. | .endSession
  | .transfer .. => false

/-- A call of the hardware peripheral. -/
def Event.isPeriph : Event → Bool
  | .setup | .release | .beginSession .. | .endSession | .transfer .. => true
  | .mode .. | .write .. | .read .. | .delay .. => false

/-- A session signal to the peripheral. -/
def Event.isSession : Event → Bool
  | .beginSession .. | .endSession => true
  | .setup | .release | .transfer .. | .mode .. | .write .. | .read .. | .delay .. => false

/-- An event of the bit-banged engine: clock, data or delay. -/
def Event.isBitBang : Event → Bool
  | .delay .. => true
  | .write r _ | .mode r _ | .read r _ => !decide (r = .cs)
  | .setup | .release | .beginSession .. | .endSession | .transfer .. => false

end Sys2Proof.Machine
end

