-- ==== Sys2Proof/Safety.lean ====
section
/-! DEFINITION. What the claims rest on: the assumption PrimitivesReturn, when an operation runs, and the invariant every step
keeps. -/

namespace Sys2Proof.Machine

/-- The spec's named assumption: every primitive returns (60_exceptions.md R217, D22). -/
def PrimitivesReturn (s : State) : Prop := s.env.stall = none

/-- The pins the bit engine uses have the directions BEGIN gives them (40_lifecycle_control.md R113). -/
def BusReady (c : Cfg) (m : Pins) : Prop :=
  match c.bus with
  | .hardware _ => True
  | .software w =>
    (pinGet m w.clk).dir = .output ∧ (∀ p ∈ w.mosi, (pinGet m p).dir = .output) ∧
      (∀ p ∈ w.miso, (pinGet m p).dir = .input)

/-- Chip-select is an output if the block controls it; where it is not, a framed operation is refused (R250). -/
def CsReady (h : Handle) (m : Pins) : Prop :=
  h.csControlEnabled = true → (pinGet m h.cfg.csPin).dir = .output

/-- A transfer runs: a live handle after BEGIN, its pins configured, and PrimitivesReturn (70_reset_and_hazards.md R243). -/
structure Ready (h : Handle) (s : State) : Prop where
  live : s.handle = some h
  initialized : h.isInitialized = true
  bus : BusReady h.cfg s.pins
  returns : PrimitivesReturn s

/-- A framed operation runs: as `Ready`, and chip-select is configured if the block controls it. -/
structure FrameReady (h : Handle) (s : State) : Prop extends Ready h s where
  cs : CsReady h s.pins

/-- The pins of a handle are pairwise distinct (10_state.md R30, D18). -/
def PinsDistinct (c : Cfg) : Prop := allDistinct c.pins = true

/-- What holds of a live handle between operations: distinct pins; after BEGIN the directions and known latches; chip-select, once
configured, is de-asserted (42_transaction_framer.md R189). -/
structure HandleInv (h : Handle) (m : Pins) : Prop where
  distinct : PinsDistinct h.cfg
  configured : h.isInitialized = true → BusReady h.cfg m
  deselected : (pinGet m h.cfg.csPin).dir = .output → (pinGet m h.cfg.csPin).out = some true

/-- The invariant of the machine between operations: pin space in canonical form, the sequencer idle, and `HandleInv`. -/
structure Inv (s : State) : Prop where
  canonical : pinsWf s.pins = true
  idle : s.seq = none
  handle : ∀ h, s.handle = some h → HandleInv h s.pins

/-- Every pin but the listed ones is as before. -/
def PinsKept (except : List Pin) (m m' : Pins) : Prop := ∀ p, p ∉ except → pinGet m' p = pinGet m p

/-- Every pin's direction is as before. -/
def DirsKept (m m' : Pins) : Prop := ∀ p, (pinGet m' p).dir = (pinGet m p).dir

/-- The pins an engine invocation may write: clock and data-out in Software mode, none in Hardware mode (R142, R160). -/
def enginePins (c : Cfg) : List Pin :=
  match c.bus with
  | .hardware _ => []
  | .software w => w.clk :: w.mosi.toList

/-- The pins a framed operation may write: chip-select where the block controls it, and the engine's (R181). -/
def framePins (h : Handle) : List Pin :=
  if h.csControlEnabled then h.cfg.csPin :: enginePins h.cfg else enginePins h.cfg

/-- What an operation that moves bytes did to the state, beside its result: it appended `es` to the trace, the environment
stands at `e`, only the listed pins changed and none its direction, and the handle with both flags, the requests still issued
and the idle sequencer are as between operations (R63, R160). The working registers are unspecified (10_state.md R40). -/
structure Moved (s t : State) (es : List Event) (e : Env) (pins : List Pin) : Prop where
  trace : t.trace = s.trace ++ es
  env : t.env = e
  pins : PinsKept pins s.pins t.pins
  dirs : DirsKept s.pins t.pins
  handle : t.handle = s.handle
  pending : t.pending = s.pending
  idle : t.seq = none

/-! Words the statements share. -/

/-- The decoder refuses these bytes, and a step that finds them refuses by name: the block never sees them. -/
def BytesRefused (bs : List Byte) : Prop :=
  (∀ i rest, decode bs ≠ .ok (i, rest)) ∧
    ∀ (s : State) (l : List Request), s.seq = none → s.pending = .descriptor bs :: l →
      ∃ why, step s = .refused (.malformedDescriptor why)

/-- A null buffer with a non-zero length, or a length larger than the buffer. -/
def BadSrc (b : SrcBuf) : Prop := b.len > (b.bytes.getD []).length

/-- The same for a buffer to be filled. -/
def BadDst (b : DstBuf) : Prop := b.len > b.size.getD 0

/-- No buffer operand of the operation is a contract violation (20_memory.md R61). -/
def GoodBuffers : Instr → Prop
  | .transfer b => ¬ BadSrc b
  | .write b l _ => ¬ BadSrc b ∧ ¬ BadSrc l
  | .read b _ => ¬ BadDst b
  | .writeThenRead a b _ => ¬ BadSrc a ∧ ¬ BadDst b
  | .repeated _ _ l => ¬ BadSrc l
  | .constructHw .. | .constructSw .. | .beginInit | .endRelease | .beginTransaction | .endTransaction
  | .disableCsToggle | .enableCsToggle | .transferByte _ | .writeAndRead _ | .destroy => True

/-- The model refuses, for whatever reason: where several apply, no claim names one (60_exceptions.md R214). -/
def Refused {α : Type} (x : Res α) : Prop := ∃ r, x = .refused r

/-- The five operations of the framer. -/
def IsFramed (i : Instr) : Prop :=
  (∃ b l v, i = .write b l v) ∨ (∃ b f, i = .read b f) ∨ (∃ a b f, i = .writeThenRead a b f) ∨
    (∃ v n l, i = .repeated v n l) ∨ ∃ b, i = .writeAndRead b

/-- An event of a transfer: a bit slot's or the peripheral's. -/
def IsTransferEvent (e : Event) : Prop := e.isBitBang = true ∨ ∃ s r, e = .transfer s r

end Sys2Proof.Machine
end

