-- ==== Sys2Proof/Certificates/Slice0/Obligations.lean ====
section
/-! DEFINITION. The statements for the provers. A statement that rests on a decision of the spec (D<n>), on an inference the
spec marks as its own, or on a choice of the model (log n) says so in its docstring. -/

open Sys2Proof Sys2Proof.Machine

/-! Descriptors. -/

/-- Reading what the encoder wrote gives the operation back, with every operand at every value its field admits, and leaves
what follows (30_encoding.md R82 to R87). The encodings are the spec's own choice, D16, D17; that a prefix of length 0 reads as an
empty one and not as an absent one is the model's, log 34. -/
def Obligations.EncodeThenDecode : Prop :=
  ∀ (i : Instr) (rest : List Byte), i.wf = true → decode (encode i ++ rest) = .ok (i, rest)

/-- Whatever the decoder accepts is the encoding of a well-formed operation, followed by the rest: each descriptor has one
meaning and each meaning one descriptor (30_encoding.md R82 to R87, R94; D16, D17). That `plen = 0` means an empty prefix and not
an absent one is the model's choice, log 34. -/
def Obligations.DecodeThenEncode : Prop :=
  ∀ (bs : List Byte) (i : Instr) (rest : List Byte),
    decode bs = .ok (i, rest) → i.wf = true ∧ bs = encode i ++ rest

/-- The malformed descriptors of 30_encoding.md R94 are refused: an unassigned opcode, a non-zero reserved bit, a presence bit
in format H, a pin byte other than 0xFF beside a cleared presence bit (D16). -/
def Obligations.MalformedDescriptorsRefused : Prop :=
  (∀ (op : Byte) (rest : List Byte), 0x10 ≤ op.toNat → BytesRefused (op :: rest)) ∧
  (∀ (flags : Byte) (rest : List Byte), 1 < flags.toNat → BytesRefused (0x08#8 :: flags :: rest)) ∧
  (∀ (op cfg : Byte) (rest : List Byte), op = 0x00#8 ∨ op = 0x01#8 → 0x20 ≤ cfg.toNat →
    BytesRefused (op :: cfg :: rest)) ∧
  (∀ (cfg : Byte) (rest : List Byte), cfg.getLsbD 3 = true ∨ cfg.getLsbD 4 = true →
    BytesRefused (0x00#8 :: cfg :: rest)) ∧
  (∀ (cfg f0 f1 f2 f3 cs clk miso mosi : Byte) (rest : List Byte),
    (cfg.getLsbD 3 = false ∧ mosi ≠ 0xFF#8) ∨ (cfg.getLsbD 4 = false ∧ miso ≠ 0xFF#8) →
    BytesRefused (0x01#8 :: cfg :: f0 :: f1 :: f2 :: f3 :: cs :: clk :: miso :: mosi :: rest))

/-- Descriptors written out in 95_test_vectors.md (T5, P1, T13, T14, T27, P2, T29, T9, P1) decode to the operations they
stand for (D16, D17). That the `plen = 0` of the REPEATED one reads as an empty prefix, where T27's call has none, is the model's
choice, log 34. -/
def Obligations.WrittenDescriptorsDecode : Prop :=
  decodeDescriptor [0x00, 0x06, 0x00, 0x09, 0x3D, 0x00, 0x0A, 0x01] =
    .ok (.constructHw (some 10) 4000000 .lsbFirst 3 1) ∧
  decodeDescriptor [0x01, 0x19, 0x40, 0x42, 0x0F, 0x00, 0x0A, 0x0D, 0x0C, 0x0B] =
    .ok (.constructSw (some 10) 13 (some 12) (some 11) 1000000 .msbFirst 0) ∧
  decodeDescriptor [0x01, 0x13, 0x40, 0x42, 0x0F, 0x00, 0x0A, 0x0D, 0x0C, 0xFF] =
    .ok (.constructSw (some 10) 13 (some 12) none 1000000 .msbFirst 1) ∧
  decodeDescriptor [0x02] = .ok .beginInit ∧
  decodeDescriptor [0x08, 0x01, 0x01, 0x00, 0x01, 0x00, 0xA0, 0x0F] =
    .ok (.write ⟨some [0x0F], 1⟩ ⟨some [0xA0], 1⟩ true) ∧
  decodeDescriptor [0x09, 0xFF, 0x02, 0x00] = .ok (.read ⟨some 2, 2⟩ 0xFF) ∧
  decodeDescriptor [0x0A, 0xFF, 0x01, 0x00, 0x02, 0x00, 0x9F] =
    .ok (.writeThenRead ⟨some [0x9F], 1⟩ ⟨some 2, 2⟩ 0xFF) ∧
  decodeDescriptor [0x0B, 0xAA, 0x05, 0x00, 0x00, 0x00] = .ok (.repeated 0xAA 5 ⟨some [], 0⟩) ∧
  decodeDescriptor [0x0C, 0x01, 0x00, 0xA5] = .ok (.transfer ⟨some [0xA5], 1⟩) ∧
  decodeDescriptor [0x0D, 0x80] = .ok (.transferByte 0x80) ∧
  decodeDescriptor [0x0E, 0xC3] = .ok (.writeAndRead 0xC3) ∧
  decodeDescriptor [0x0F] = .ok .destroy

/-! Steps and reset. -/

/-- With the sequencer idle, a step runs the operation the caller issued first, whether by descriptor (30_encoding.md R82) or
by an abstract call (R80), on the state with that request taken from the list (log 2). -/
def Obligations.StepRunsIssuedOperation : Prop :=
  ∀ (s : State) (i : Instr) (l : List Request), s.seq = none →
    (∀ bs, s.pending = .descriptor bs :: l → decode bs = .ok (i, []) → step s = exec i { s with pending := l }) ∧
    (s.pending = .call i :: l → step s = exec i { s with pending := l })

/-- A row of the opcode table runs: where the decoder reads an operation from the row's bits, the step after those bits are
issued in front of everything else is that operation (log 2). -/
def Obligations.TableWordsRun : Prop :=
  ∀ (s : State) (nbits w : Nat) (i : Instr), decodeTableWord nbits w = some i →
    step (s.withFetchWord nbits w) = exec i { s with seq := none }

/-- With nothing issued a step waits (70_reset_and_hazards.md R241), and from a state in which an operation never returned
there is no further step (60_exceptions.md R217; logs 2, 5). -/
def Obligations.StepWaitsOrIsStuck : Prop :=
  (∀ s : State, s.seq = none → s.pending = [] → step s = .next s) ∧
  (∀ s : State, s.seq ≠ none → step s = .fault (.neverReturns s))

/-- The fresh machine of 95_test_vectors.md section 3: no handle, every pin UNCONFIGURED with an UNKNOWN latch, an idle
sequencer, and the invariant (10_state.md R40; log 1). -/
def Obligations.ResetIsFresh : Prop :=
  State.reset.handle = none ∧ (∀ p, State.reset.pin p = ⟨.unconfigured, none⟩) ∧ State.reset.seq = none ∧ Inv State.reset

/-- Every step keeps the invariant, from every state that has it, reached or not: pin space stays canonical, the sequencer
idle, the pins of a live handle distinct and, after BEGIN, configured, and chip-select de-asserted. It rests on D5 and on
logs 8 and 22. -/
def Obligations.StepKeepsInv : Prop :=
  ∀ s t : State, Inv s → step s = .next t → Inv t

/-- Equal pin spaces are equal data: two canonical lists that read the same at every pin are the same list (log 22). -/
def Obligations.CanonicalPinsAreEqual : Prop :=
  ∀ m m' : Pins, pinsWf m = true → pinsWf m' = true → (∀ p, pinGet m p = pinGet m' p) → m = m'

/-! Construction. -/

/-- CONSTRUCT_HW stores its operands, sets `cs_control_enabled` (D4) and clears `is_initialized`, and makes no event; the
block's view of its pin is fresh (10_state.md R40; log 8), every other pin as before (40_lifecycle_control.md R110). That it does
so where a handle is live, and replaces it, is the model's choice, log 9. -/
def Obligations.ConstructHwMakesHandle : Prop :=
  ∀ (s : State) (p freq mode periph : Nat) (order : BitOrder), mode < 4 →
    ∃ t, exec (.constructHw (some p) freq order mode periph) s = .next t ∧
      t.handle = some ⟨⟨p, freq, order, BitVec.ofNat 2 mode, .hardware periph⟩, true, false⟩ ∧
      t.trace = s.trace ∧ t.ret = { value := .handle } ∧ t.pending = s.pending ∧ t.env = s.env ∧ t.seq = none ∧
      t.pin p = ⟨.unconfigured, none⟩ ∧ PinsKept [p] s.pins t.pins

/-- CONSTRUCT_SW, with pairwise distinct pins, likewise (40_lifecycle_control.md R111; D4, D18, log 8). Either data pin, or
both, may be unset. That it replaces a live handle is the model's choice, log 9. -/
def Obligations.ConstructSwMakesHandle : Prop :=
  ∀ (s : State) (p clk freq mode : Nat) (miso mosi : Option Pin) (order : BitOrder), mode < 4 →
    (p :: clk :: (miso.toList ++ mosi.toList)).Nodup →
    ∃ t, exec (.constructSw (some p) clk miso mosi freq order mode) s = .next t ∧
      t.handle = some ⟨⟨p, freq, order, BitVec.ofNat 2 mode, .software ⟨clk, mosi, miso⟩⟩, true, false⟩ ∧
      t.trace = s.trace ∧ t.ret = { value := .handle } ∧ t.pending = s.pending ∧ t.env = s.env ∧ t.seq = none ∧
      (∀ q ∈ p :: clk :: (miso.toList ++ mosi.toList), t.pin q = ⟨.unconfigured, none⟩) ∧
      PinsKept (p :: clk :: (miso.toList ++ mosi.toList)) s.pins t.pins

/-- A `data_mode` outside 0 to 3 or an unset chip-select is a construction-time contract violation: either constructor is
refused, and no handle comes of it (40_lifecycle_control.md R112). The reason is named only where no pin clash is another
(60_exceptions.md R214). -/
def Obligations.ContractViolationsRefused : Prop :=
  ∀ (s : State) (cs miso mosi : Option Pin) (clk freq mode periph : Nat) (order : BitOrder), 4 ≤ mode ∨ cs = none →
    exec (.constructHw cs freq order mode periph) s = .refused .contractViolation ∧
    Refused (exec (.constructSw cs clk miso mosi freq order mode) s) ∧
    ((cs.toList ++ clk :: (miso.toList ++ mosi.toList)).Nodup →
      exec (.constructSw cs clk miso mosi freq order mode) s = .refused .contractViolation)

/-- Two equal pins among the present ones clash (40_lifecycle_control.md R111; D18, the spec's own choice). -/
def Obligations.EqualPinsRefused : Prop :=
  ∀ (s : State) (miso mosi : Option Pin) (p clk freq mode : Nat) (order : BitOrder), mode < 4 →
    ¬ (p :: clk :: (miso.toList ++ mosi.toList)).Nodup →
    exec (.constructSw (some p) clk miso mosi freq order mode) s = .refused .pinClash

/-- What a call that omits an operand means (30_encoding.md R91): 1 MHz, MSB first, mode 0, the primary peripheral; fill 0xFF;
no prefix and no inversion. -/
def Obligations.OmittedOperandsHaveDefaults : Prop :=
  (∀ cs, Api.constructHw cs = .constructHw (some cs) 1000000 .msbFirst 0 0) ∧
  (∀ b, Api.read b = .read b 0xFF) ∧
  (∀ a b, Api.writeThenRead a b = .writeThenRead a b 0xFF) ∧
  (∀ b, Api.write b = .write b ⟨none, 0⟩ false) ∧
  (∀ v n, Api.repeated v n = .repeated v n ⟨none, 0⟩)

/-! Lifecycle and control. -/

/-- BEGIN, from whatever state a live handle is in, a second time too: the events in R113's order, `is_initialized` true,
success, and afterwards chip-select (where controlled) an output at 1, the clock an output at the idle level, bit 1 of the
data mode, data-out an output at MOSI_INIT_LEVEL, data-in an input; every other pin as before. The premise is the clause of
`Inv` that a constructor establishes. It rests on D5, D6, D7, D24; that the working
registers are as before is the model's choice, log 7. -/
def Obligations.BeginConfigures : Prop :=
  ∀ (s : State) (h : Handle), s.handle = some h → PinsDistinct h.cfg → PrimitivesReturn s →
    ∃ t, exec .beginInit s = .next t ∧
      t.trace = s.trace ++ beginEvents h.cfg h.csControlEnabled ∧
      t.handle = some { h with isInitialized := true } ∧ t.ret = { value := .success true } ∧
      t.pending = s.pending ∧ t.env = s.env ∧ t.regs = s.regs ∧ t.seq = none ∧
      t.pin h.cfg.csPin = (if h.csControlEnabled then ⟨.output, some true⟩ else s.pin h.cfg.csPin) ∧
      (∀ w, h.cfg.bus = .software w →
        t.pin w.clk = ⟨.output, some (h.cfg.dataMode.getLsbD 1)⟩ ∧
        (∀ p ∈ w.mosi, t.pin p = ⟨.output, some Config.mosiInitLevel⟩) ∧
        (∀ p ∈ w.miso, (t.pin p).dir = .input)) ∧
      PinsKept h.cfg.pins s.pins t.pins

/-- END releases the peripheral in Hardware mode and does nothing in Software mode; nothing else changes, not
`is_initialized` and no pin (40_lifecycle_control.md R115; D13, D27). -/
def Obligations.EndReleasesPeripheralOnly : Prop :=
  ∀ (s : State) (h : Handle), s.handle = some h →
    (∀ p, h.cfg.bus = .hardware p → h.isInitialized = true → PrimitivesReturn s →
      exec .endRelease s =
        .next { s with trace := s.trace ++ [.release], ret := { value := .nothing }, seq := none }) ∧
    (∀ w, h.cfg.bus = .software w →
      exec .endRelease s = .next { s with ret := { value := .nothing }, seq := none })

/-- BEGIN_TRANSACTION and END_TRANSACTION signal the peripheral in Hardware mode, the first with the three settings
unchanged, and do nothing in Software mode; chip-select is not touched (40_lifecycle_control.md R116, R117; D12, D27). -/
def Obligations.TransactionSignals : Prop :=
  ∀ (s : State) (h : Handle), s.handle = some h →
    (∀ p, h.cfg.bus = .hardware p → h.isInitialized = true → PrimitivesReturn s →
      exec .beginTransaction s =
        .next { s with trace := s.trace ++ [.beginSession h.cfg.freq h.cfg.order h.cfg.dataMode],
                       ret := { value := .nothing }, seq := none } ∧
      exec .endTransaction s =
        .next { s with trace := s.trace ++ [.endSession], ret := { value := .nothing }, seq := none }) ∧
    (∀ w, h.cfg.bus = .software w →
      exec .beginTransaction s = .next { s with ret := { value := .nothing }, seq := none } ∧
      exec .endTransaction s = .next { s with ret := { value := .nothing }, seq := none })

/-- DISABLE_CS_TOGGLE and ENABLE_CS_TOGGLE write `cs_control_enabled` and nothing else, in every state of a live handle
(40_lifecycle_control.md R118, R119; D31). -/
def Obligations.CsTogglesWriteTheFlag : Prop :=
  ∀ (s : State) (h : Handle), s.handle = some h →
    exec .disableCsToggle s =
      .next { s with handle := some { h with csControlEnabled := false }, ret := { value := .nothing }, seq := none } ∧
    exec .enableCsToggle s =
      .next { s with handle := some { h with csControlEnabled := true }, ret := { value := .nothing }, seq := none }

/-- DESTROY takes the handle away and leaves every pin as it is; no event, no release of the peripheral
(40_lifecycle_control.md R120; D23). -/
def Obligations.DestroyLeavesPins : Prop :=
  ∀ (s : State) (h : Handle), s.handle = some h →
    exec .destroy s = .next { s with handle := none, ret := { value := .nothing }, seq := none }

/-- Without a live handle everything but a constructor is refused, and NoHandle is the reason where the buffers give no other
(60_exceptions.md R214, R216; D23). -/
def Obligations.NoHandleRefused : Prop :=
  ∀ (s : State) (i : Instr), s.handle = none → i.isConstructor = false →
    Refused (exec i s) ∧ (GoodBuffers i → exec i s = .refused .noHandle)

/-- Before BEGIN the transfers and framed operations are refused in either mode, and END, BEGIN_TRANSACTION, END_TRANSACTION in
Hardware mode; NotInitialized is the reason where the buffers give no other (60_exceptions.md R214, R216; D15). -/
def Obligations.NotInitializedRefused : Prop :=
  ∀ (s : State) (h : Handle) (i : Instr), s.handle = some h → h.isInitialized = false →
    (IsFramed i ∨ (∃ b, i = .transfer b) ∨ ∃ b, i = .transferByte b) ∨
      (∃ p, h.cfg.bus = .hardware p) ∧ (i = .endRelease ∨ i = .beginTransaction ∨ i = .endTransaction) →
    Refused (exec i s) ∧ (GoodBuffers i → exec i s = .refused .notInitialized)

/-- An operation with a null buffer of non-zero length, or a length larger than the buffer, in any buffer operand, is refused in
every state; BadBuffer is the reason where nothing else is wrong (20_memory.md R61, 60_exceptions.md R214, R216). -/
def Obligations.BadBuffersRefused : Prop :=
  ∀ (s : State) (i : Instr), ¬ GoodBuffers i →
    Refused (exec i s) ∧
    ∀ h, (IsFramed i → FrameReady h s) → Ready h s → exec i s = .refused .badBuffer

/-- A framed operation that would assert a chip-select the block never made an output is refused PinNotConfigured, whatever
it was to transfer (70_reset_and_hazards.md R250). -/
def Obligations.UnconfiguredChipSelectRefused : Prop :=
  ∀ (s : State) (h : Handle), s.handle = some h → h.isInitialized = true → PrimitivesReturn s →
    h.csControlEnabled = true → (s.pin h.cfg.csPin).dir ≠ .output →
    (∀ b l v, ¬ BadSrc b → ¬ BadSrc l → exec (.write b l v) s = .refused .pinNotConfigured) ∧
    (∀ b f, ¬ BadDst b → exec (.read b f) s = .refused .pinNotConfigured) ∧
    (∀ a b f, ¬ BadSrc a → ¬ BadDst b → exec (.writeThenRead a b f) s = .refused .pinNotConfigured) ∧
    (∀ v n l, ¬ BadSrc l → exec (.repeated v n l) s = .refused .pinNotConfigured) ∧
    (∀ b, exec (.writeAndRead b) s = .refused .pinNotConfigured)

/-! The Transfer Engine. -/

/-- The three constants of a configuration: the half period, the first mask and the idle level, which is 0 in data modes 0 and 1
and 1 in 2 and 3; and each is the same as long as the handle lives (10_state.md R39). -/
def Obligations.ConstantsOfTheConfiguration : Prop :=
  (∀ c : Cfg, c.halfPeriod = if c.freq = 0 then 0 else 1000000 / c.freq / 2) ∧
  (∀ c : Cfg, startMask c.order = match c.order with | .msbFirst => 0x80#8 | .lsbFirst => 0x01#8) ∧
  (∀ c : Cfg, c.idleLevel = decide (2 ≤ c.dataMode.toNat)) ∧
  (∀ (s t : State) (h : Handle) (i : Instr), s.handle = some h → exec i s = .next t → i.isConstructor = false →
    i ≠ .destroy → ∃ h', t.handle = some h' ∧ h'.cfg.halfPeriod = h.cfg.halfPeriod ∧
      startMask h'.cfg.order = startMask h.cfg.order ∧ h'.cfg.idleLevel = h.cfg.idleLevel)

/-- The half period at its boundaries: 0 exactly at frequency 0 and above 500000, 1 exactly from 250001 to 500000, never over
500000; and the table values 5, 52, 500000 (41_transfer_engine.md R144, R156; the spec marks these consequences as derived). -/
def Obligations.HalfPeriodRanges : Prop :=
  (∀ f, halfPeriodUs f = 0 ↔ f = 0 ∨ 500000 < f) ∧
  (∀ f, halfPeriodUs f = 1 ↔ 250001 ≤ f ∧ f ≤ 500000) ∧
  (∀ f, halfPeriodUs f ≤ 500000) ∧
  halfPeriodUs 100000 = 5 ∧ halfPeriodUs 9600 = 52 ∧ halfPeriodUs 1 = 500000

/-- The masks of the eight slots, in either bit order, and the mask after them (41_transfer_engine.md R145). -/
def Obligations.MasksWalkTheByte : Prop :=
  (List.range 9).map (fun k => (nextMask .msbFirst)^[k] (startMask .msbFirst)) =
    [0x80, 0x40, 0x20, 0x10, 0x08, 0x04, 0x02, 0x01, 0x00] ∧
  (List.range 9).map (fun k => (nextMask .lsbFirst)^[k] (startMask .lsbFirst)) =
    [0x01, 0x02, 0x04, 0x08, 0x10, 0x20, 0x40, 0x80, 0x00]

/-- TRANSFER is one engine invocation on the first `len` bytes of the buffer, in either mode: the events in the orders of R148
and R149, bit by bit in the order of 20_memory.md R56, the first bit always driven (D8), the received bytes in place of the
sent ones where there is something to receive, the rest of the buffer kept, and only clock and data-out written
(41_transfer_engine.md R140, R146 to R153, R160; 20_memory.md R57, R58). -/
def Obligations.TransferRunsTheEngine : Prop :=
  ∀ (s : State) (h : Handle) (b : SrcBuf), Ready h s → ¬ BadSrc b →
    ∃ t, exec (.transfer b) s = .next t ∧
      Moved s t (engineEvents h.cfg ((b.bytes.getD []).take b.len) s.env)
        (engineEnv h.cfg ((b.bytes.getD []).take b.len) s.env) (enginePins h.cfg) ∧
      t.ret = { value := .nothing,
                buffer := b.bytes.map fun bs => engineBytes h.cfg (bs.take b.len) s.env ++ bs.drop b.len }

/-- TRANSFER_BYTE is an engine invocation on a private buffer of one byte and returns what that buffer then holds
(41_transfer_engine.md R141): in Software mode the received byte, or the byte sent where there is no data-in pin; in Hardware
mode the one byte returned. -/
def Obligations.TransferByteReturnsTheByte : Prop :=
  ∀ (s : State) (h : Handle) (b : Byte), Ready h s →
    ∃ t, exec (.transferByte b) s = .next t ∧
      Moved s t (engineEvents h.cfg [b] s.env) (engineEnv h.cfg [b] s.env) (enginePins h.cfg) ∧
      t.ret = { value := .byte (match h.cfg.bus with
        | .hardware _ => s.env.byteAt 0
        | .software w => if w.miso.isSome then receivedByte h.cfg.order s.env.levelAt 0 else b) }

/-- In Hardware mode a non-empty TRANSFER hands the whole buffer to the peripheral in one call and stores back what it
returned, as many bytes, whatever they are; no pin changes (41_transfer_engine.md R143). -/
def Obligations.HardwareTransferIsOneCall : Prop :=
  ∀ (s : State) (h : Handle) (p : PeriphRef) (bs : List Byte), Ready h s → h.cfg.bus = .hardware p → bs ≠ [] →
    ∃ t r, exec (.transfer ⟨some bs, bs.length⟩) s = .next t ∧ r.length = bs.length ∧
      (∀ k < bs.length, r[k]? = some (s.env.byteAt k)) ∧
      t.trace = s.trace ++ [.transfer bs r] ∧ t.ret.buffer = some r ∧ t.pins = s.pins

/-- The loopback property: if every `R(MISO)` of a Software-mode TRANSFER returned the level then on data-out, the buffer is as
it was, for every bit order, data mode, frequency and MOSI_INIT_LEVEL (41_transfer_engine.md R158). -/
def Obligations.LoopbackReturnsTheBuffer : Prop :=
  ∀ (s t : State) (h : Handle) (w : SwPins) (b : SrcBuf) (es : List Event),
    Ready h s → h.cfg.bus = .software w → w.mosi.isSome → w.miso.isSome →
    exec (.transfer b) s = .next t → t.trace = s.trace ++ es → isLoopback (latchesOf h.cfg s.pins) es = true →
    t.ret.buffer = b.bytes

/-- No delay is inserted where the half period is 0, and every delay of every operation is the half period, which is then not
0; a Software-mode byte waits twice in every slot (41_transfer_engine.md R147). -/
def Obligations.DelaysAreHalfPeriods : Prop :=
  (∀ (s t : State) (h : Handle) (i : Instr) (es : List Event) (n : Nat),
    s.handle = some h → exec i s = .next t → t.trace = s.trace ++ es → .delay n ∈ es →
      n = (if h.cfg.freq = 0 then 0 else 1000000 / h.cfg.freq / 2) ∧ n ≠ 0) ∧
  (∀ (s t : State) (h : Handle) (w : SwPins) (b : Byte) (es : List Event),
    Ready h s → h.cfg.bus = .software w → exec (.transferByte b) s = .next t → t.trace = s.trace ++ es →
      (es.filter fun e => e matches .delay _).length = if h.cfg.halfPeriod = 0 then 0 else 16)

/-- Events in the pseudocode's trace of a Software-mode TRANSFER of `n` bytes: `8 n` W(CLK,1), `8 n` W(CLK,0), `8 n` R(MISO) or
none, and delays that sum to `16 n` half periods (41_transfer_engine.md R157, which the spec marks as derived). It counts calls and
not edges: in data modes 2 and 3 the first W(CLK,1) after BEGIN changes nothing on the wire (R154) and is redundant under R10, so
the counts are those of the pseudocode's trace, log 16. Data-out writes are not counted. -/
def Obligations.SoftwareEventCounts : Prop :=
  ∀ (s t : State) (h : Handle) (w : SwPins) (bs : List Byte) (es : List Event),
    Ready h s → h.cfg.bus = .software w →
    exec (.transfer ⟨some bs, bs.length⟩) s = .next t → t.trace = s.trace ++ es →
      es.count (.write .clk true) = 8 * bs.length ∧ es.count (.write .clk false) = 8 * bs.length ∧
      (es.filter fun e => e matches .read .miso _).length = (if w.miso.isSome then 8 * bs.length else 0) ∧
      delaySum es = 16 * bs.length * h.cfg.halfPeriod

/-- After a Software-mode operation that sent at least one byte the clock is at 0, in every data mode, idle-high ones included
(41_transfer_engine.md R154, marked derived; 70_reset_and_hazards.md R252; D3), and data-out, where present, holds the last bit
sent (R155, R264). The premise on the pins is a clause of `Inv`. -/
def Obligations.ClockLowAndLastBitAfterTransfer : Prop :=
  ∀ (s t : State) (h : Handle) (w : SwPins) (i : Instr) (bs : List Byte) (b : Byte),
    FrameReady h s → PinsDistinct h.cfg → h.cfg.bus = .software w → exec i s = .next t → txStream i = bs ++ [b] →
      (t.pin w.clk).out = some false ∧
      ∀ p ∈ w.mosi, (t.pin p).out = some (b.getLsbD (match h.cfg.order with | .msbFirst => 0 | .lsbFirst => 7))

/-- The engine alone touches neither chip-select nor a session nor a flag, and does not read `cs_control_enabled`: TRANSFER and
TRANSFER_BYTE make the same events and leave the same result under either value of it (41_transfer_engine.md R160). -/
def Obligations.EngineLeavesFramingAlone : Prop :=
  ∀ (s t : State) (h : Handle) (i : Instr) (es : List Event),
    s.handle = some h → (∃ b, i = .transfer b) ∨ (∃ b, i = .transferByte b) →
    exec i s = .next t → t.trace = s.trace ++ es →
      t.handle = some h ∧ (∀ e ∈ es, e.onCs = false ∧ e.isSession = false) ∧
      ∀ on, exec i { s with handle := some { h with csControlEnabled := on } } =
        .next { t with handle := some { h with csControlEnabled := on } }

/-! The Transaction Framer. -/

/-- WRITE sends prefix then buffer, every byte complemented where `invert`, one byte an invocation (D10), inside the frame
(a) to (e); received bytes are dropped, both buffers are as before (D10); success (42_transaction_framer.md R180 to R182). -/
def Obligations.WriteSendsPrefixAndBuffer : Prop :=
  ∀ (s : State) (h : Handle) (b l : SrcBuf) (invert : Bool) (tx : List Byte), FrameReady h s → ¬ BadSrc b → ¬ BadSrc l →
    tx = ((l.bytes.getD []).take l.len ++ (b.bytes.getD []).take b.len).map (fun x => if invert then ~~~x else x) →
    ∃ t, exec (.write b l invert) s = .next t ∧
      Moved s t (frameEvents h.cfg h.csControlEnabled (xferEvents h.cfg tx s.env)) (engineEnv h.cfg tx s.env)
        (framePins h) ∧
      t.ret = { value := .success true, buffer := b.bytes, lead := l.bytes }

/-- READ fills the buffer and makes one invocation over the whole of it inside the frame; the buffer holds what was received,
or the fill where there is no data-in pin; success (42_transaction_framer.md R180, R181, R183). -/
def Obligations.ReadFillsAndTransfersOnce : Prop :=
  ∀ (s : State) (h : Handle) (b : DstBuf) (fill : Byte), FrameReady h s → ¬ BadDst b →
    ∃ t, exec (.read b fill) s = .next t ∧
      Moved s t (frameEvents h.cfg h.csControlEnabled (engineEvents h.cfg (List.replicate b.len fill) s.env))
        (engineEnv h.cfg (List.replicate b.len fill) s.env) (framePins h) ∧
      t.ret = { value := .success true,
                buffer := b.size.map fun _ => engineBytes h.cfg (List.replicate b.len fill) s.env }

/-- WRITE_THEN_READ is two sequential phases in one chip-select assertion: the write buffer, then `len` fills, whose received
bytes are the read buffer; what arrives in the first phase is stored nowhere, the write buffer is as before (D10); success
(42_transaction_framer.md R180, R181, R184). -/
def Obligations.WriteThenReadKeepsThePhasesApart : Prop :=
  ∀ (s : State) (h : Handle) (a : SrcBuf) (b : DstBuf) (fill : Byte) (ws : List Byte), FrameReady h s →
    ¬ BadSrc a → ¬ BadDst b → ws = (a.bytes.getD []).take a.len →
    ∃ t, exec (.writeThenRead a b fill) s = .next t ∧
      Moved s t (frameEvents h.cfg h.csControlEnabled
        (xferEvents h.cfg (ws ++ List.replicate b.len fill) s.env))
        (engineEnv h.cfg (ws ++ List.replicate b.len fill) s.env) (framePins h) ∧
      t.ret = { value := .success true,
                buffer := b.size.map fun _ =>
                  (xferBytes h.cfg (ws ++ List.replicate b.len fill) s.env).drop ws.length,
                source := a.bytes }

/-- REPEATED sends the prefix as it stands and `times` copies of the value, inside the frame; the prefix is as before (D10);
success (42_transaction_framer.md R180, R181, R185). -/
def Obligations.RepeatedSendsCopies : Prop :=
  ∀ (s : State) (h : Handle) (value : Byte) (times : Nat) (l : SrcBuf) (tx : List Byte), FrameReady h s →
    ¬ BadSrc l → tx = (l.bytes.getD []).take l.len ++ List.replicate times value →
    ∃ t, exec (.repeated value times l) s = .next t ∧
      Moved s t (frameEvents h.cfg h.csControlEnabled (xferEvents h.cfg tx s.env)) (engineEnv h.cfg tx s.env)
        (framePins h) ∧
      t.ret = { value := .success true, lead := l.bytes }

/-- WRITE_AND_READ asserts chip-select, transfers one byte, de-asserts, with no transaction signal in either mode, and returns
the received byte (D14), under chip-select control only (C6) (42_transaction_framer.md R181, R186). -/
def Obligations.WriteAndReadSelectsOneByte : Prop :=
  ∀ (s : State) (h : Handle) (b : Byte), FrameReady h s →
    ∃ t, exec (.writeAndRead b) s = .next t ∧
      Moved s t (selectedEvents h.csControlEnabled (engineEvents h.cfg [b] s.env)) (engineEnv h.cfg [b] s.env)
        (framePins h) ∧
      t.ret = { value := .byte (match h.cfg.bus with
        | .hardware _ => s.env.byteAt 0
        | .software w => if w.miso.isSome then receivedByte h.cfg.order s.env.levelAt 0 else b) }

/-- The five operations that return a success indicator return it true on every path that returns
(60_exceptions.md R211, 42_transaction_framer.md R187). -/
def Obligations.SuccessIsAlwaysTrue : Prop :=
  ∀ (s t : State) (i : Instr), i.returnsSuccess = true → exec i s = .next t → t.ret.value = .success true

/-- Under chip-select control a framed operation writes chip-select exactly twice, 0 before the first event of a transfer and 1
after the last, and ends with it at 1; without control it makes no event on chip-select and leaves the pin as it was
(42_transaction_framer.md R189). The premise on the pins is a clause of `Inv`. -/
def Obligations.ChipSelectBracketsTheStream : Prop :=
  ∀ (s t : State) (h : Handle) (i : Instr) (es : List Event),
    s.handle = some h → PinsDistinct h.cfg → IsFramed i → exec i s = .next t → t.trace = s.trace ++ es →
      (h.csControlEnabled = true →
        (t.pin h.cfg.csPin).out = some true ∧
        ∃ a b c, es = a ++ .write .cs false :: (b ++ .write .cs true :: c) ∧
          (∀ e ∈ a ++ b ++ c, e.isCsWrite = false) ∧ ∀ e ∈ a ++ c, ¬ IsTransferEvent e) ∧
      (h.csControlEnabled = false → (∀ e ∈ es, e.onCs = false) ∧ t.pin h.cfg.csPin = s.pin h.cfg.csPin)

/-- An empty stream still makes the frame, and nothing else (42_transaction_framer.md R190; D20). -/
def Obligations.EmptyStreamsStillFrame : Prop :=
  ∀ (s : State) (h : Handle) (i : Instr), FrameReady h s → IsFramed i → txStream i = [] →
    (∀ b l v, i = .write b l v → ¬ BadSrc b ∧ ¬ BadSrc l) → (∀ b f, i = .read b f → ¬ BadDst b) →
    (∀ a b f, i = .writeThenRead a b f → ¬ BadSrc a ∧ ¬ BadDst b) → (∀ v n l, i = .repeated v n l → ¬ BadSrc l) →
    ∃ t, exec i s = .next t ∧ t.trace = s.trace ++ frameEvents h.cfg h.csControlEnabled [] ∧ t.env = s.env

/-- What the slave sees is the stream: in Hardware mode the bytes handed to the peripheral, concatenated; in Software mode the
level of data-out at each clock write that shows it (W(CLK,1) in sequence A, W(CLK,0) in sequence B), bit by bit in the handle's
bit order, no slot more and none less (42_transaction_framer.md R188, marked derived; 41_transfer_engine.md R148, R149, R159). A
clock write is an edge on the wire but for one: in data mode 2 the first W(CLK,1) after BEGIN finds the clock at 1 already
(R154). -/
def Obligations.WireShowsTheStream : Prop :=
  ∀ (s t : State) (h : Handle) (i : Instr) (es : List Event),
    FrameReady h s → exec i s = .next t → t.trace = s.trace ++ es →
      (∀ p, h.cfg.bus = .hardware p → sentBytes es = txStream i) ∧
      (∀ w, h.cfg.bus = .software w → w.mosi.isSome → i ≠ .beginInit →
        clockedBits (!h.cfg.sequenceB) (latchesOf h.cfg s.pins) es =
          (txStream i).flatMap fun b => (List.range 8).map fun k => some (b.getLsbD (slotBit h.cfg.order k)))

/-- The framer's calls cannot be told from one call: WRITE, WRITE_THEN_READ and REPEATED, which make one invocation a byte, are
wire-equivalent to a frame around a single invocation over their whole stream (00_scope.md R10, 42_transaction_framer.md R191;
D10, D11). -/
def Obligations.ByteByByteIsWireEquivalent : Prop :=
  ∀ (s t : State) (h : Handle) (i : Instr) (es : List Event),
    FrameReady h s → IsFramed i → (∀ b, i ≠ .writeAndRead b) → exec i s = .next t → t.trace = s.trace ++ es →
      wireEq (latchesOf h.cfg s.pins) es
        (frameEvents h.cfg h.csControlEnabled (engineEvents h.cfg (txStream i) s.env))

/-! Rules about the whole machine. -/

/-- No operation changes the configuration of a live handle but by ending it or constructing another (10_state.md R30); only
the two toggles write `cs_control_enabled` (R31) and only BEGIN writes `is_initialized` (R32; D13 for END). -/
def Obligations.OnlyTheirOwnOperationsWriteTheHandle : Prop :=
  ∀ (s t : State) (h : Handle) (i : Instr), s.handle = some h → exec i s = .next t →
    i.isConstructor = false → i ≠ .destroy →
      ∃ h', t.handle = some h' ∧ h'.cfg = h.cfg ∧
        (i ≠ .disableCsToggle → i ≠ .enableCsToggle → h'.csControlEnabled = h.csControlEnabled) ∧
        (i ≠ .beginInit → h'.isInitialized = h.isInitialized)

/-- While `cs_control_enabled` is false no operation makes an event on chip-select, BEGIN and WRITE_AND_READ included
(10_state.md R31; C6, D5). -/
def Obligations.DisabledChipSelectIsNeverDriven : Prop :=
  ∀ (s t : State) (h : Handle) (i : Instr) (es : List Event),
    s.handle = some h → h.csControlEnabled = false → exec i s = .next t → t.trace = s.trace ++ es →
      ∀ e ∈ es, e.onCs = false

/-- A Hardware-mode handle never makes a clock, data or delay event, a Software-mode handle never calls the peripheral
(41_transfer_engine.md R142; D24). -/
def Obligations.ModesDoNotMix : Prop :=
  ∀ (s t : State) (h : Handle) (i : Instr) (es : List Event),
    s.handle = some h → exec i s = .next t → t.trace = s.trace ++ es →
      (∀ p, h.cfg.bus = .hardware p → ∀ e ∈ es, e.isBitBang = false) ∧
      (∀ w, h.cfg.bus = .software w → ∀ e ∈ es, e.isPeriph = false)

/-- The trace only grows, and no operation looks at or takes the requests behind it (20_memory.md R63, R65). -/
def Obligations.TraceOnlyGrows : Prop :=
  ∀ (s t : State) (i : Instr), exec i s = .next t → s.trace <+: t.trace ∧ t.pending = s.pending ∧ t.seq = none

/-- What is driven does not depend on what is received: under other answers of the environment an operation still runs, with the
same events but for those answers, and leaves the same pins and the same handle (41_transfer_engine.md R159; 20_memory.md R65). -/
def Obligations.SentDataIgnoresReceivedData : Prop :=
  ∀ (s t : State) (i : Instr) (e : Env) (es : List Event), e.stall = s.env.stall →
    exec i s = .next t → t.trace = s.trace ++ es →
      ∃ t' es', exec i { s with env := e } = .next t' ∧ t'.trace = s.trace ++ es' ∧
        es'.map Event.blind = es.map Event.blind ∧ t'.pins = t.pins ∧ t'.handle = t.handle

/-- Only bit 0 of the data mode matters after BEGIN: mode 2 makes the events of mode 0 and mode 3 those of mode 1, in Software
mode (70_reset_and_hazards.md R252; C1, D3). -/
def Obligations.HighModesActAsLowModes : Prop :=
  ∀ (s t : State) (h : Handle) (w : SwPins) (i : Instr) (m : BitVec 2),
    s.handle = some h → h.cfg.bus = .software w → i ≠ .beginInit → i.isConstructor = false → i ≠ .destroy →
    m.getLsbD 0 = h.cfg.dataMode.getLsbD 0 → exec i s = .next t →
      ∃ t' h', exec i { s with handle := some { h with cfg := { h.cfg with dataMode := m } } } = .next t' ∧
        t.handle = some h' ∧ t' = { t with handle := some { h' with cfg := { h'.cfg with dataMode := m } } }

/-- With no data-in pin nothing is received: TRANSFER leaves the buffer, READ and WRITE_THEN_READ leave the fill, the byte
operations return the byte sent (41_transfer_engine.md R151, 70_reset_and_hazards.md R253). -/
def Obligations.WithoutDataInBuffersKeepWhatWasSent : Prop :=
  ∀ (s t : State) (h : Handle) (w : SwPins), s.handle = some h → h.cfg.bus = .software w → w.miso = none →
    (∀ b, exec (.transfer b) s = .next t → t.ret.buffer = b.bytes) ∧
    (∀ b f, exec (.read b f) s = .next t → t.ret.buffer = b.size.map fun _ => List.replicate b.len f) ∧
    (∀ a b f, exec (.writeThenRead a b f) s = .next t →
      t.ret.buffer = b.size.map fun _ => List.replicate b.len f) ∧
    (∀ b, exec (.transferByte b) s = .next t ∨ exec (.writeAndRead b) s = .next t → t.ret.value = .byte b)

/-- Under PrimitivesReturn no operation hangs, and the assumption still holds after it (60_exceptions.md R217; D22). -/
def Obligations.OperationsEndIfPrimitivesReturn : Prop :=
  ∀ (s : State) (i : Instr), PrimitivesReturn s →
    (∀ r, exec i s ≠ .fault r) ∧ ∀ t, exec i s = .next t → PrimitivesReturn t

/-- A hang leaves the machine inside the operation, with the events so far in the trace, the requests behind it untouched, and
no step out of it (60_exceptions.md R217, 93_implementation_defined.md U13; log 5). -/
def Obligations.HangLeavesTheMachineStuck : Prop :=
  ∀ (s u : State) (i : Instr), exec i s = .fault (.neverReturns u) →
    (∃ q, u.seq = some q ∧ q.op = i ∧ q.call.isSome) ∧ u.env.stall = some 0 ∧ s.trace <+: u.trace ∧
      u.pending = s.pending ∧ step u = .fault (.neverReturns u)

/-- A hang in a framed operation can leave chip-select asserted: from a state with the invariant, chip-select an output at 1, a
framed operation hangs with chip-select an output at 0 (60_exceptions.md R217, 70_reset_and_hazards.md R261; log 5). -/
def Obligations.HangCanLeaveChipSelectAsserted : Prop :=
  ∃ (s u : State) (h : Handle) (i : Instr), Inv s ∧ s.handle = some h ∧ IsFramed i ∧
    s.pin h.cfg.csPin = ⟨.output, some true⟩ ∧ exec i s = .fault (.neverReturns u) ∧
    u.pin h.cfg.csPin = ⟨.output, some false⟩

/-! The working registers inside an invocation. -/

/-- `tx`, `rx` and `mask`: a slot keeps the latched byte, OR-s the mask into `rx` exactly for a sampled 1 and moves the mask on
(41_transfer_engine.md R146 to R150); eight slots of a byte send it bit by bit and leave the mask at 0 (R145); and nothing of the
three carries over from one byte to the next (10_state.md R35). -/
def Obligations.SlotRegisters : Prop :=
  (∀ (c : Cfg) (w : SwPins) (s t : State), bitSlot c w s = .next t →
    t.regs.tx = s.regs.tx ∧
    t.regs.mask = (match c.order with | .msbFirst => s.regs.mask >>> 1 | .lsbFirst => s.regs.mask <<< 1) ∧
    t.regs.rx = if w.miso.isSome && s.env.levelAt 0 then s.regs.rx ||| s.regs.mask else s.regs.rx) ∧
  (∀ (c : Cfg) (w : SwPins) (b : Byte) (s t : State), bitSlots c w 8 (s.loadByte c b) = .next t →
    t.regs.tx = b ∧ t.regs.mask = 0#8 ∧
    t.regs.rx = if w.miso.isSome then receivedByte c.order s.env.levelAt 0 else 0#8) ∧
  (∀ (c : Cfg) (w : SwPins) (b x y z : Byte) (s : State),
    swByte c w b (s.setRegs { s.regs with tx := x, rx := y, mask := z }) = swByte c w b s)

/-- `last_mosi` in a slot. In sequence A, where a slot starts with `last_mosi = out[MOSI]` or, as the first of an invocation, with
the complement of its bit, it ends with both at the bit sent, so that the next slot reads `out[MOSI]` (41_transfer_engine.md R155).
Sequence B neither writes nor reads it: under any value of it the slot does the same and leaves that value (10_state.md R36). -/
def Obligations.SlotTracksDataOut : Prop :=
  ∀ (c : Cfg) (w : SwPins) (s t : State), PinsDistinct c → c.bus = .software w → bitSlot c w s = .next t →
    (c.sequenceB = false → ∀ p ∈ w.mosi,
      (s.pin p).out = some s.regs.lastMosi ∨ s.regs.lastMosi = !maskedBit s.regs.tx s.regs.mask →
        t.regs.lastMosi = maskedBit s.regs.tx s.regs.mask ∧ (t.pin p).out = some t.regs.lastMosi) ∧
    (c.sequenceB = true → t.regs.lastMosi = s.regs.lastMosi ∧
      ∀ v, bitSlot c w (s.setRegs { s.regs with lastMosi := v }) = .next (t.setRegs { t.regs with lastMosi := v }))

/-- `last_mosi` over an invocation: it starts as the complement of the first bit (D8), and in sequence A, after every byte,
`last_mosi` and `out[MOSI]` are the last bit of that byte, and the slots of the next one start from that value, whatever byte it is
(41_transfer_engine.md R155). The loop is cut after any `bs ++ [b]`, so the statement speaks of every byte boundary: a further byte
runs from the very state the bytes before it left, as eight slots, each from the state the one before it left. -/
def Obligations.TrackerCarriesAcrossBytes : Prop :=
  ∀ (c : Cfg) (w : SwPins), PinsDistinct c → c.bus = .software w →
    (∀ (s : State) (b : Byte) (bs : List Byte),
      swTransfer c w b bs s =
        andThen (swBytes c w (b :: bs) (s.setRegs { s.regs with lastMosi := !b.getLsbD (slotBit c.order 0) }))
          fun r => .next (r.1, r.2.forgetRegs)) ∧
    (∀ (s : State) (b : Byte),
      swByte c w b s =
        andThen (bitSlots c w 8 (s.loadByte c b)) fun u => .next (if w.miso.isSome then u.regs.rx else b, u.advance 1)) ∧
    (∀ (s : State) (n : Nat), bitSlots c w (n + 1) s = andThen (bitSlots c w n s) fun u => bitSlot c w u) ∧
    (∀ (s : State) (bs : List Byte) (b' : Byte),
      swBytes c w (bs ++ [b']) s =
        andThen (swBytes c w bs s) fun r => andThen (swByte c w b' r.2) fun q => .next (r.1 ++ [q.1], q.2)) ∧
    (∀ s : State, bitSlots c w 0 s = .next s ∧ swBytes c w [] s = .next ([], s)) ∧
    (∀ (s t : State) (bs : List Byte) (b first : Byte) (rs : List Byte), c.sequenceB = false →
      (bs ++ [b]).head? = some first → s.regs.lastMosi = (!first.getLsbD (slotBit c.order 0)) →
      swBytes c w (bs ++ [b]) s = .next (rs, t) → ∀ p ∈ w.mosi,
        t.regs.lastMosi = b.getLsbD (slotBit c.order 7) ∧ (t.pin p).out = some t.regs.lastMosi ∧
        ∀ b', (t.loadByte c b').regs.lastMosi = b.getLsbD (slotBit c.order 7))
end

