-- ==== Sys2Proof/Laws/Decode.lean ====
section
/-! SUPPORT. The fields of descriptors: what each packing and unpacking function of 30_encoding.md R82 to R87 does. -/

namespace Sys2Proof

/-! Little-endian fields (R82). -/

theorem le16_length (n : Nat) : (le16 n).length = 2 := rfl
theorem le32_length (n : Nat) : (le32 n).length = 4 := rfl

theorem u16_le16 {n : Nat} (h : n < 65536) : u16 (BitVec.ofNat 8 n) (BitVec.ofNat 8 (n / 256)) = n := by
  simp only [u16, BitVec.toNat_ofNat]; omega

theorem u32_le32 {n : Nat} (h : n < 4294967296) :
    u32 (BitVec.ofNat 8 n) (BitVec.ofNat 8 (n / 256)) (BitVec.ofNat 8 (n / 65536)) (BitVec.ofNat 8 (n / 16777216)) = n := by
  simp only [u32, BitVec.toNat_ofNat]; omega

theorem u16_lt (b0 b1 : Byte) : u16 b0 b1 < 65536 := by
  have := b0.isLt; have := b1.isLt; simp only [u16]; omega

theorem u32_lt (b0 b1 b2 b3 : Byte) : u32 b0 b1 b2 b3 < 4294967296 := by
  have := b0.isLt; have := b1.isLt; have := b2.isLt; have := b3.isLt; simp only [u32]; omega

theorem le16_u16 (b0 b1 : Byte) : le16 (u16 b0 b1) = [b0, b1] := by
  have := b0.isLt; have := b1.isLt
  simp only [le16, List.cons.injEq, and_true]
  constructor <;> apply BitVec.eq_of_toNat_eq <;> simp only [BitVec.toNat_ofNat, u16] <;> omega

theorem le32_u32 (b0 b1 b2 b3 : Byte) : le32 (u32 b0 b1 b2 b3) = [b0, b1, b2, b3] := by
  have := b0.isLt; have := b1.isLt; have := b2.isLt; have := b3.isLt
  simp only [le32, List.cons.injEq, and_true]
  refine ⟨?_, ?_, ?_, ?_⟩ <;> apply BitVec.eq_of_toNat_eq <;> simp only [BitVec.toNat_ofNat, u32] <;> omega

/-! Inline data (R83). -/

theorem takeBytes_append {n : Nat} {bs rest : List Byte} (h : bs.length = n) :
    takeBytes n (bs ++ rest) = .ok (bs, rest) := by
  subst h; simp [takeBytes]

theorem takeBytes_eq_ok {n : Nat} {bs xs rest : List Byte} (h : takeBytes n bs = .ok (xs, rest)) :
    bs = xs ++ rest ∧ xs.length = n := by
  unfold takeBytes at h
  split at h
  · next hl => cases h; exact ⟨(List.take_append_drop n bs).symm, hl⟩
  · cases h

/-! The `cfg` byte (R85). -/

theorem cfgByte_fields (order : BitOrder) (mode : Nat) (mosi miso : Bool) (h : mode < 4) :
    cfgReservedClear (cfgByte order mode mosi miso) = true ∧ cfgHasMosi (cfgByte order mode mosi miso) = mosi ∧
      cfgHasMiso (cfgByte order mode mosi miso) = miso ∧ cfgOrder (cfgByte order mode mosi miso) = order ∧
      cfgMode (cfgByte order mode mosi miso) = mode := by
  have hm : mode = 0 ∨ mode = 1 ∨ mode = 2 ∨ mode = 3 := by omega
  rcases hm with rfl | rfl | rfl | rfl <;> cases order <;> cases mosi <;> cases miso <;> decide

theorem cfgMode_lt (cfg : Byte) : cfgMode cfg < 4 := (cfg.extractLsb' 1 2).isLt

/-- A `cfg` byte with clear reserved bits is the packing of its fields. -/
theorem cfgByte_of_fields (cfg : Byte) (h : cfgReservedClear cfg = true) :
    cfgByte (cfgOrder cfg) (cfgMode cfg) (cfgHasMosi cfg) (cfgHasMiso cfg) = cfg := by
  revert h; revert cfg; decide

/-! The `flags` byte (R84). -/

theorem flags_fields (invert : Bool) : flagsReservedClear (BitVec.ofNat 8 invert.toNat) = true ∧
    (BitVec.ofNat 8 invert.toNat).getLsbD 0 = invert := by cases invert <;> decide

theorem flags_of_fields (flags : Byte) (h : flagsReservedClear flags = true) :
    BitVec.ofNat 8 (flags.getLsbD 0).toNat = flags := by
  revert h; revert flags; decide

/-! Pin bytes (R85, R90). -/

theorem decodePin_pinByte (p : Option Pin) (h : pinFits p = true) : decodePin p.isSome (pinByte p) = .ok p := by
  cases p with
  | none => decide
  | some p =>
    have hp : p < 256 := of_decide_eq_true h
    have hm : p % 256 = p := Nat.mod_eq_of_lt hp
    simp [decodePin, pinByte, BitVec.toNat_ofNat, hm]

theorem decodePin_eq_ok {present : Bool} {b : Byte} {p : Option Pin} (h : decodePin present b = .ok p) :
    pinFits p = true ∧ p.isSome = present ∧ pinByte p = b := by
  unfold decodePin at h
  cases present with
  | true =>
    simp only [if_true, Except.ok.injEq] at h
    subst h
    exact ⟨decide_eq_true b.isLt, rfl, by simp [pinByte]⟩
  | false =>
    simp only [Bool.false_eq_true, if_false] at h
    split at h
    · next hb => cases h; subst hb; decide
    · cases h

/-! Sequencing. -/

theorem except_bind_eq_ok {ε α β : Type} {x : Except ε α} {f : α → Except ε β} {b : β} :
    (x >>= f) = .ok b ↔ ∃ a, x = .ok a ∧ f a = .ok b := by
  cases x with
  | error e => exact ⟨(nomatch ·), fun ⟨_, h, _⟩ => nomatch h⟩
  | ok a => exact ⟨fun h => ⟨a, rfl, h⟩, fun ⟨a', h, hf⟩ => by cases h; exact hf⟩

end Sys2Proof
end

