-- ==== Sys2Proof/Laws/State.lean ====
section
/-! SUPPORT. Each update of the state, field by field. -/

namespace Sys2Proof.Machine

@[simp] theorem setHandle_handle (s : State) (h : Option Handle) : (s.setHandle h).handle = h := rfl
@[simp] theorem setHandle_pins (s : State) (h : Option Handle) : (s.setHandle h).pins = s.pins := rfl
@[simp] theorem setHandle_regs (s : State) (h : Option Handle) : (s.setHandle h).regs = s.regs := rfl
@[simp] theorem setHandle_fresh (s : State) (h : Option Handle) : (s.setHandle h).fresh = s.fresh := rfl
@[simp] theorem setHandle_seq (s : State) (h : Option Handle) : (s.setHandle h).seq = s.seq := rfl
@[simp] theorem setHandle_trace (s : State) (h : Option Handle) : (s.setHandle h).trace = s.trace := rfl
@[simp] theorem setHandle_ret (s : State) (h : Option Handle) : (s.setHandle h).ret = s.ret := rfl
@[simp] theorem setHandle_pending (s : State) (h : Option Handle) : (s.setHandle h).pending = s.pending := rfl
@[simp] theorem setHandle_env (s : State) (h : Option Handle) : (s.setHandle h).env = s.env := rfl

@[simp] theorem setPins_handle (s : State) (m : Pins) : (s.setPins m).handle = s.handle := rfl
@[simp] theorem setPins_pins (s : State) (m : Pins) : (s.setPins m).pins = m := rfl
@[simp] theorem setPins_regs (s : State) (m : Pins) : (s.setPins m).regs = s.regs := rfl
@[simp] theorem setPins_fresh (s : State) (m : Pins) : (s.setPins m).fresh = s.fresh := rfl
@[simp] theorem setPins_seq (s : State) (m : Pins) : (s.setPins m).seq = s.seq := rfl
@[simp] theorem setPins_trace (s : State) (m : Pins) : (s.setPins m).trace = s.trace := rfl
@[simp] theorem setPins_ret (s : State) (m : Pins) : (s.setPins m).ret = s.ret := rfl
@[simp] theorem setPins_pending (s : State) (m : Pins) : (s.setPins m).pending = s.pending := rfl
@[simp] theorem setPins_env (s : State) (m : Pins) : (s.setPins m).env = s.env := rfl

@[simp] theorem setRegs_handle (s : State) (r : Regs) : (s.setRegs r).handle = s.handle := rfl
@[simp] theorem setRegs_pins (s : State) (r : Regs) : (s.setRegs r).pins = s.pins := rfl
@[simp] theorem setRegs_regs (s : State) (r : Regs) : (s.setRegs r).regs = r := rfl
@[simp] theorem setRegs_fresh (s : State) (r : Regs) : (s.setRegs r).fresh = s.fresh := rfl
@[simp] theorem setRegs_seq (s : State) (r : Regs) : (s.setRegs r).seq = s.seq := rfl
@[simp] theorem setRegs_trace (s : State) (r : Regs) : (s.setRegs r).trace = s.trace := rfl
@[simp] theorem setRegs_ret (s : State) (r : Regs) : (s.setRegs r).ret = s.ret := rfl
@[simp] theorem setRegs_pending (s : State) (r : Regs) : (s.setRegs r).pending = s.pending := rfl
@[simp] theorem setRegs_env (s : State) (r : Regs) : (s.setRegs r).env = s.env := rfl

@[simp] theorem setFresh_handle (s : State) (n : Nat) : (s.setFresh n).handle = s.handle := rfl
@[simp] theorem setFresh_pins (s : State) (n : Nat) : (s.setFresh n).pins = s.pins := rfl
@[simp] theorem setFresh_regs (s : State) (n : Nat) : (s.setFresh n).regs = s.regs := rfl
@[simp] theorem setFresh_fresh (s : State) (n : Nat) : (s.setFresh n).fresh = n := rfl
@[simp] theorem setFresh_seq (s : State) (n : Nat) : (s.setFresh n).seq = s.seq := rfl
@[simp] theorem setFresh_trace (s : State) (n : Nat) : (s.setFresh n).trace = s.trace := rfl
@[simp] theorem setFresh_ret (s : State) (n : Nat) : (s.setFresh n).ret = s.ret := rfl
@[simp] theorem setFresh_pending (s : State) (n : Nat) : (s.setFresh n).pending = s.pending := rfl
@[simp] theorem setFresh_env (s : State) (n : Nat) : (s.setFresh n).env = s.env := rfl

@[simp] theorem setSeq_handle (s : State) (q : Option Position) : (s.setSeq q).handle = s.handle := rfl
@[simp] theorem setSeq_pins (s : State) (q : Option Position) : (s.setSeq q).pins = s.pins := rfl
@[simp] theorem setSeq_regs (s : State) (q : Option Position) : (s.setSeq q).regs = s.regs := rfl
@[simp] theorem setSeq_fresh (s : State) (q : Option Position) : (s.setSeq q).fresh = s.fresh := rfl
@[simp] theorem setSeq_seq (s : State) (q : Option Position) : (s.setSeq q).seq = q := rfl
@[simp] theorem setSeq_trace (s : State) (q : Option Position) : (s.setSeq q).trace = s.trace := rfl
@[simp] theorem setSeq_ret (s : State) (q : Option Position) : (s.setSeq q).ret = s.ret := rfl
@[simp] theorem setSeq_pending (s : State) (q : Option Position) : (s.setSeq q).pending = s.pending := rfl
@[simp] theorem setSeq_env (s : State) (q : Option Position) : (s.setSeq q).env = s.env := rfl

@[simp] theorem setRet_handle (s : State) (r : Ret) : (s.setRet r).handle = s.handle := rfl
@[simp] theorem setRet_pins (s : State) (r : Ret) : (s.setRet r).pins = s.pins := rfl
@[simp] theorem setRet_regs (s : State) (r : Ret) : (s.setRet r).regs = s.regs := rfl
@[simp] theorem setRet_fresh (s : State) (r : Ret) : (s.setRet r).fresh = s.fresh := rfl
@[simp] theorem setRet_seq (s : State) (r : Ret) : (s.setRet r).seq = s.seq := rfl
@[simp] theorem setRet_trace (s : State) (r : Ret) : (s.setRet r).trace = s.trace := rfl
@[simp] theorem setRet_ret (s : State) (r : Ret) : (s.setRet r).ret = r := rfl
@[simp] theorem setRet_pending (s : State) (r : Ret) : (s.setRet r).pending = s.pending := rfl
@[simp] theorem setRet_env (s : State) (r : Ret) : (s.setRet r).env = s.env := rfl

@[simp] theorem setPending_handle (s : State) (l : List Request) : (s.setPending l).handle = s.handle := rfl
@[simp] theorem setPending_pins (s : State) (l : List Request) : (s.setPending l).pins = s.pins := rfl
@[simp] theorem setPending_regs (s : State) (l : List Request) : (s.setPending l).regs = s.regs := rfl
@[simp] theorem setPending_fresh (s : State) (l : List Request) : (s.setPending l).fresh = s.fresh := rfl
@[simp] theorem setPending_seq (s : State) (l : List Request) : (s.setPending l).seq = s.seq := rfl
@[simp] theorem setPending_trace (s : State) (l : List Request) : (s.setPending l).trace = s.trace := rfl
@[simp] theorem setPending_ret (s : State) (l : List Request) : (s.setPending l).ret = s.ret := rfl
@[simp] theorem setPending_pending (s : State) (l : List Request) : (s.setPending l).pending = l := rfl
@[simp] theorem setPending_env (s : State) (l : List Request) : (s.setPending l).env = s.env := rfl

@[simp] theorem setEnv_handle (s : State) (e : Env) : (s.setEnv e).handle = s.handle := rfl
@[simp] theorem setEnv_pins (s : State) (e : Env) : (s.setEnv e).pins = s.pins := rfl
@[simp] theorem setEnv_regs (s : State) (e : Env) : (s.setEnv e).regs = s.regs := rfl
@[simp] theorem setEnv_fresh (s : State) (e : Env) : (s.setEnv e).fresh = s.fresh := rfl
@[simp] theorem setEnv_seq (s : State) (e : Env) : (s.setEnv e).seq = s.seq := rfl
@[simp] theorem setEnv_trace (s : State) (e : Env) : (s.setEnv e).trace = s.trace := rfl
@[simp] theorem setEnv_ret (s : State) (e : Env) : (s.setEnv e).ret = s.ret := rfl
@[simp] theorem setEnv_pending (s : State) (e : Env) : (s.setEnv e).pending = s.pending := rfl
@[simp] theorem setEnv_env (s : State) (e : Env) : (s.setEnv e).env = e := rfl

@[simp] theorem emit_handle (s : State) (e : Event) : (s.emit e).handle = s.handle := rfl
@[simp] theorem emit_pins (s : State) (e : Event) : (s.emit e).pins = s.pins := rfl
@[simp] theorem emit_regs (s : State) (e : Event) : (s.emit e).regs = s.regs := rfl
@[simp] theorem emit_fresh (s : State) (e : Event) : (s.emit e).fresh = s.fresh := rfl
@[simp] theorem emit_seq (s : State) (e : Event) : (s.emit e).seq = s.seq := rfl
@[simp] theorem emit_trace (s : State) (e : Event) : (s.emit e).trace = s.trace ++ [e] := rfl
@[simp] theorem emit_ret (s : State) (e : Event) : (s.emit e).ret = s.ret := rfl
@[simp] theorem emit_pending (s : State) (e : Event) : (s.emit e).pending = s.pending := rfl
@[simp] theorem emit_env (s : State) (e : Event) : (s.emit e).env = s.env := rfl

@[simp] theorem setPin_handle (s : State) (p : Pin) (v : PinState) : (s.setPin p v).handle = s.handle := rfl
@[simp] theorem setPin_pins (s : State) (p : Pin) (v : PinState) : (s.setPin p v).pins = pinPut p v s.pins := rfl
@[simp] theorem setPin_regs (s : State) (p : Pin) (v : PinState) : (s.setPin p v).regs = s.regs := rfl
@[simp] theorem setPin_fresh (s : State) (p : Pin) (v : PinState) : (s.setPin p v).fresh = s.fresh := rfl
@[simp] theorem setPin_seq (s : State) (p : Pin) (v : PinState) : (s.setPin p v).seq = s.seq := rfl
@[simp] theorem setPin_trace (s : State) (p : Pin) (v : PinState) : (s.setPin p v).trace = s.trace := rfl
@[simp] theorem setPin_ret (s : State) (p : Pin) (v : PinState) : (s.setPin p v).ret = s.ret := rfl
@[simp] theorem setPin_pending (s : State) (p : Pin) (v : PinState) : (s.setPin p v).pending = s.pending := rfl
@[simp] theorem setPin_env (s : State) (p : Pin) (v : PinState) : (s.setPin p v).env = s.env := rfl

@[simp] theorem atPhase_handle (s : State) (a : Phase) : (s.atPhase a).handle = s.handle := rfl
@[simp] theorem atPhase_pins (s : State) (a : Phase) : (s.atPhase a).pins = s.pins := rfl
@[simp] theorem atPhase_regs (s : State) (a : Phase) : (s.atPhase a).regs = s.regs := rfl
@[simp] theorem atPhase_fresh (s : State) (a : Phase) : (s.atPhase a).fresh = s.fresh := rfl
@[simp] theorem atPhase_trace (s : State) (a : Phase) : (s.atPhase a).trace = s.trace := rfl
@[simp] theorem atPhase_ret (s : State) (a : Phase) : (s.atPhase a).ret = s.ret := rfl
@[simp] theorem atPhase_pending (s : State) (a : Phase) : (s.atPhase a).pending = s.pending := rfl
@[simp] theorem atPhase_env (s : State) (a : Phase) : (s.atPhase a).env = s.env := rfl
@[simp] theorem atPhase_seq_isSome (s : State) (a : Phase) : (s.atPhase a).seq.isSome = s.seq.isSome := by
  simp [State.atPhase]

@[simp] theorem advance_handle (s : State) (a : Nat) : (s.advance a).handle = s.handle := rfl
@[simp] theorem advance_pins (s : State) (a : Nat) : (s.advance a).pins = s.pins := rfl
@[simp] theorem advance_regs (s : State) (a : Nat) : (s.advance a).regs = s.regs := rfl
@[simp] theorem advance_fresh (s : State) (a : Nat) : (s.advance a).fresh = s.fresh := rfl
@[simp] theorem advance_trace (s : State) (a : Nat) : (s.advance a).trace = s.trace := rfl
@[simp] theorem advance_ret (s : State) (a : Nat) : (s.advance a).ret = s.ret := rfl
@[simp] theorem advance_pending (s : State) (a : Nat) : (s.advance a).pending = s.pending := rfl
@[simp] theorem advance_env (s : State) (a : Nat) : (s.advance a).env = s.env := rfl
@[simp] theorem advance_seq_isSome (s : State) (a : Nat) : (s.advance a).seq.isSome = s.seq.isSome := by
  simp [State.advance]

@[simp] theorem atCall_handle (s : State) (a : Prim) : (s.atCall a).handle = s.handle := rfl
@[simp] theorem atCall_pins (s : State) (a : Prim) : (s.atCall a).pins = s.pins := rfl
@[simp] theorem atCall_regs (s : State) (a : Prim) : (s.atCall a).regs = s.regs := rfl
@[simp] theorem atCall_fresh (s : State) (a : Prim) : (s.atCall a).fresh = s.fresh := rfl
@[simp] theorem atCall_trace (s : State) (a : Prim) : (s.atCall a).trace = s.trace := rfl
@[simp] theorem atCall_ret (s : State) (a : Prim) : (s.atCall a).ret = s.ret := rfl
@[simp] theorem atCall_pending (s : State) (a : Prim) : (s.atCall a).pending = s.pending := rfl
@[simp] theorem atCall_env (s : State) (a : Prim) : (s.atCall a).env = s.env := rfl
@[simp] theorem atCall_seq_isSome (s : State) (a : Prim) : (s.atCall a).seq.isSome = s.seq.isSome := by
  simp [State.atCall]

@[simp] theorem forgetRegs_handle (s : State) : s.forgetRegs.handle = s.handle := rfl
@[simp] theorem forgetRegs_pins (s : State) : s.forgetRegs.pins = s.pins := rfl
@[simp] theorem forgetRegs_seq (s : State) : s.forgetRegs.seq = s.seq := rfl
@[simp] theorem forgetRegs_trace (s : State) : s.forgetRegs.trace = s.trace := rfl
@[simp] theorem forgetRegs_ret (s : State) : s.forgetRegs.ret = s.ret := rfl
@[simp] theorem forgetRegs_pending (s : State) : s.forgetRegs.pending = s.pending := rfl
@[simp] theorem forgetRegs_env (s : State) : s.forgetRegs.env = s.env := rfl

@[simp] theorem start_handle (s : State) (op : Instr) : (s.start op).handle = s.handle := rfl
@[simp] theorem start_pins (s : State) (op : Instr) : (s.start op).pins = s.pins := rfl
@[simp] theorem start_regs (s : State) (op : Instr) : (s.start op).regs = s.regs := rfl
@[simp] theorem start_fresh (s : State) (op : Instr) : (s.start op).fresh = s.fresh := rfl
@[simp] theorem start_seq (s : State) (op : Instr) : (s.start op).seq = some ⟨op, none, 0, none⟩ := rfl
@[simp] theorem start_trace (s : State) (op : Instr) : (s.start op).trace = s.trace := rfl
@[simp] theorem start_ret (s : State) (op : Instr) : (s.start op).ret = s.ret := rfl
@[simp] theorem start_pending (s : State) (op : Instr) : (s.start op).pending = s.pending := rfl
@[simp] theorem start_env (s : State) (op : Instr) : (s.start op).env = s.env := rfl

@[simp] theorem finish_handle (s : State) (r : Ret) : (s.finish r).handle = s.handle := rfl
@[simp] theorem finish_pins (s : State) (r : Ret) : (s.finish r).pins = s.pins := rfl
@[simp] theorem finish_regs (s : State) (r : Ret) : (s.finish r).regs = s.regs := rfl
@[simp] theorem finish_fresh (s : State) (r : Ret) : (s.finish r).fresh = s.fresh := rfl
@[simp] theorem finish_seq (s : State) (r : Ret) : (s.finish r).seq = none := rfl
@[simp] theorem finish_trace (s : State) (r : Ret) : (s.finish r).trace = s.trace := rfl
@[simp] theorem finish_ret (s : State) (r : Ret) : (s.finish r).ret = r := rfl
@[simp] theorem finish_pending (s : State) (r : Ret) : (s.finish r).pending = s.pending := rfl
@[simp] theorem finish_env (s : State) (r : Ret) : (s.finish r).env = s.env := rfl

@[simp] theorem construct_handle (s : State) (c : Cfg) : (s.construct c).handle = some (Handle.fresh c) := rfl
@[simp] theorem construct_pins (s : State) (c : Cfg) : (s.construct c).pins = c.pins.foldr pinClear s.pins := rfl
@[simp] theorem construct_seq (s : State) (c : Cfg) : (s.construct c).seq = s.seq := rfl
@[simp] theorem construct_trace (s : State) (c : Cfg) : (s.construct c).trace = s.trace := rfl
@[simp] theorem construct_ret (s : State) (c : Cfg) : (s.construct c).ret = s.ret := rfl
@[simp] theorem construct_pending (s : State) (c : Cfg) : (s.construct c).pending = s.pending := rfl
@[simp] theorem construct_env (s : State) (c : Cfg) : (s.construct c).env = s.env := rfl

@[simp] theorem loadByte_handle (s : State) (c : Cfg) (b : Byte) : (s.loadByte c b).handle = s.handle := rfl
@[simp] theorem loadByte_pins (s : State) (c : Cfg) (b : Byte) : (s.loadByte c b).pins = s.pins := rfl
@[simp] theorem loadByte_fresh (s : State) (c : Cfg) (b : Byte) : (s.loadByte c b).fresh = s.fresh := rfl
@[simp] theorem loadByte_seq (s : State) (c : Cfg) (b : Byte) : (s.loadByte c b).seq = s.seq := rfl
@[simp] theorem loadByte_trace (s : State) (c : Cfg) (b : Byte) : (s.loadByte c b).trace = s.trace := rfl
@[simp] theorem loadByte_ret (s : State) (c : Cfg) (b : Byte) : (s.loadByte c b).ret = s.ret := rfl
@[simp] theorem loadByte_pending (s : State) (c : Cfg) (b : Byte) : (s.loadByte c b).pending = s.pending := rfl
@[simp] theorem loadByte_env (s : State) (c : Cfg) (b : Byte) : (s.loadByte c b).env = s.env := rfl
@[simp] theorem loadByte_regs (s : State) (c : Cfg) (b : Byte) :
    (s.loadByte c b).regs = { s.regs with tx := b, rx := 0#8, mask := startMask c.order } := rfl

theorem pin_eq (s : State) (p : Pin) : s.pin p = pinGet s.pins p := rfl

@[simp] theorem dropLevels_stall (e : Env) (n : Nat) : (e.dropLevels n).stall = e.stall := rfl
@[simp] theorem dropBytes_stall (e : Env) (n : Nat) : (e.dropBytes n).stall = e.stall := rfl

end Sys2Proof.Machine
end

