-- ==== Sys2Proof/Laws/Pins.lean ====
section
/-! SUPPORT. Pin space: reading after writing, and the canonical form. -/

namespace Sys2Proof.Machine

@[simp] theorem pinGet_nil (p : Pin) : pinGet [] p = .initial := rfl

theorem pinGet_cons (q p : Pin) (v : PinState) (m : Pins) :
    pinGet ((q, v) :: m) p = if q = p then v else pinGet m p := rfl

theorem pinGet_pinInsert (p q : Pin) (v : PinState) (m : Pins) :
    pinGet (pinInsert p v m) q = if p = q then v else pinGet m q := by
  induction m with
  | nil => rfl
  | cons e m ih =>
    obtain ⟨r, u⟩ := e
    unfold pinInsert
    split
    · rw [pinGet_cons]
    · split
      · next h => subst h; rw [pinGet_cons, pinGet_cons]; split <;> rfl
      · next h =>
        rw [pinGet_cons, pinGet_cons, ih]
        by_cases hr : r = q
        · rw [if_pos hr, if_pos hr, if_neg (fun hp => h (hp.trans hr.symm))]
        · rw [if_neg hr, if_neg hr]

theorem pinGet_pinClear (p q : Pin) (m : Pins) :
    pinGet (pinClear p m) q = if p = q then .initial else pinGet m q := by
  induction m with
  | nil => simp [pinClear]
  | cons e m ih =>
    obtain ⟨r, u⟩ := e
    unfold pinClear at ih ⊢
    by_cases hr : r = p
    · subst hr
      simp only [List.filter_cons, decide_true, Bool.not_true, Bool.false_eq_true, if_false, pinGet_cons, ih]
      split <;> rfl
    · simp only [List.filter_cons, hr, decide_false, Bool.not_false, if_true, pinGet_cons, ih]
      by_cases hq : r = q
      · rw [if_pos hq, if_pos hq, if_neg (fun hp => hr (hq.trans hp.symm))]
      · rw [if_neg hq, if_neg hq]

/-- Reading a pin after writing one: the value written there, every other pin as before. -/
theorem pinGet_pinPut (p q : Pin) (v : PinState) (m : Pins) :
    pinGet (pinPut p v m) q = if p = q then v else pinGet m q := by
  unfold pinPut
  split
  · next h => rw [pinGet_pinClear, h]
  · exact pinGet_pinInsert p q v m

@[simp] theorem pinGet_pinPut_same (p : Pin) (v : PinState) (m : Pins) : pinGet (pinPut p v m) p = v := by
  rw [pinGet_pinPut, if_pos rfl]

theorem pinGet_pinPut_other {p q : Pin} (h : p ≠ q) (v : PinState) (m : Pins) :
    pinGet (pinPut p v m) q = pinGet m q := by
  rw [pinGet_pinPut, if_neg h]

/-- The pins a constructor makes fresh read as untouched; every other pin as before. -/
theorem pinGet_foldr_pinClear (l : List Pin) (q : Pin) (m : Pins) :
    pinGet (l.foldr pinClear m) q = if q ∈ l then .initial else pinGet m q := by
  induction l with
  | nil => simp
  | cons p l ih =>
    rw [List.foldr_cons, pinGet_pinClear, ih]
    by_cases h : p = q
    · simp [h]
    · have : q ≠ p := fun h' => h h'.symm
      simp [h, this]

/-! The canonical form. -/

/-- Every key of `m` is above `p`. -/
def Above (p : Pin) (m : Pins) : Prop := ∀ e ∈ m, p < e.1

theorem pinsWf_cons (p : Pin) (v : PinState) (m : Pins) :
    pinsWf ((p, v) :: m) = true ↔ Above p m ∧ v ≠ .initial ∧ pinsWf m = true := by
  induction m generalizing p v with
  | nil => simp [pinsWf, Above]
  | cons e m ih =>
    obtain ⟨q, u⟩ := e
    have hw : pinsWf ((p, v) :: (q, u) :: m) = true ↔
        p < q ∧ v ≠ .initial ∧ pinsWf ((q, u) :: m) = true := by
      simp only [pinsWf, Bool.and_eq_true, decide_eq_true_eq, Bool.not_eq_true', decide_eq_false_iff_not, and_assoc]
    rw [hw]
    constructor
    · rintro ⟨hpq, hv, hm⟩
      refine ⟨?_, hv, hm⟩
      intro e he
      rcases List.mem_cons.mp he with rfl | he
      · exact hpq
      · exact Nat.lt_trans hpq ((ih q u).mp hm |>.1 e he)
    · rintro ⟨ha, hv, hm⟩
      exact ⟨ha (q, u) (List.mem_cons_self), hv, hm⟩

theorem above_pinInsert {q p : Pin} {v : PinState} {m : Pins} (hq : q < p) (h : Above q m) :
    Above q (pinInsert p v m) := by
  induction m with
  | nil => simpa [pinInsert, Above] using hq
  | cons e m ih =>
    obtain ⟨r, u⟩ := e
    have hr : q < r := h (r, u) List.mem_cons_self
    have hm : Above q m := fun e he => h e (List.mem_cons_of_mem _ he)
    unfold pinInsert
    split
    · intro e he; rcases List.mem_cons.mp he with rfl | he
      · exact hq
      · exact h e he
    · split
      · intro e he; rcases List.mem_cons.mp he with rfl | he
        · exact hq
        · exact hm e he
      · intro e he; rcases List.mem_cons.mp he with rfl | he
        · exact hr
        · exact ih hm e he

theorem pinsWf_pinInsert {p : Pin} {v : PinState} {m : Pins} (hv : v ≠ .initial) (h : pinsWf m = true) :
    pinsWf (pinInsert p v m) = true := by
  induction m with
  | nil => simpa [pinInsert, pinsWf] using hv
  | cons e m ih =>
    obtain ⟨r, u⟩ := e
    obtain ⟨ha, hu, hm⟩ := (pinsWf_cons r u m).mp h
    unfold pinInsert
    split
    · next hp =>
      refine (pinsWf_cons _ _ _).mpr ⟨?_, hv, h⟩
      intro e he; rcases List.mem_cons.mp he with rfl | he
      · exact hp
      · exact Nat.lt_trans hp (ha e he)
    · split
      · next hp => subst hp; exact (pinsWf_cons _ _ _).mpr ⟨ha, hv, hm⟩
      · next h1 h2 =>
        exact (pinsWf_cons _ _ _).mpr ⟨above_pinInsert (Nat.lt_of_le_of_ne (Nat.le_of_not_lt h1) fun h => h2 h.symm) ha,
          hu, ih hm⟩

theorem pinsWf_pinClear {p : Pin} {m : Pins} (h : pinsWf m = true) : pinsWf (pinClear p m) = true := by
  induction m with
  | nil => rfl
  | cons e m ih =>
    obtain ⟨r, u⟩ := e
    obtain ⟨ha, hu, hm⟩ := (pinsWf_cons r u m).mp h
    unfold pinClear at ih ⊢
    by_cases hr : r = p
    · simpa [List.filter_cons, hr] using ih hm
    · simp only [List.filter_cons, hr, decide_false, Bool.not_false, if_true]
      exact (pinsWf_cons _ _ _).mpr ⟨fun e he => ha e (List.mem_of_mem_filter he), hu, ih hm⟩

/-- Every write keeps the canonical form. -/
theorem pinsWf_pinPut {p : Pin} {v : PinState} {m : Pins} (h : pinsWf m = true) : pinsWf (pinPut p v m) = true := by
  unfold pinPut
  split
  · exact pinsWf_pinClear h
  · next hv => exact pinsWf_pinInsert hv h

/-- Construction keeps the canonical form. -/
theorem pinsWf_foldr_pinClear {l : List Pin} {m : Pins} (h : pinsWf m = true) :
    pinsWf (l.foldr pinClear m) = true := by
  induction l with
  | nil => exact h
  | cons p l ih => exact pinsWf_pinClear ih

theorem pinGet_of_above {p q : Pin} {m : Pins} (h : Above p m) (hq : q ≤ p) : pinGet m q = .initial := by
  induction m with
  | nil => rfl
  | cons e m ih =>
    obtain ⟨r, u⟩ := e
    have hr : p < r := h (r, u) List.mem_cons_self
    rw [pinGet_cons, if_neg (Nat.ne_of_gt (Nat.lt_of_le_of_lt hq hr))]
    exact ih fun e he => h e (List.mem_cons_of_mem _ he)

/-! Distinct pins. -/

theorem allDistinct_iff_nodup (l : List Pin) : allDistinct l = true ↔ l.Nodup := by
  induction l with
  | nil => simp [allDistinct]
  | cons p l ih => simp [allDistinct, ih]

end Sys2Proof.Machine
end

