-- ==== Sys2Proof/Laws/Ops.lean ====
section
/-! SUPPORT. The shared operations: sequencing, and what each primitive does once it returns. -/

namespace Sys2Proof.Machine

/-! Sequencing. -/

@[simp] theorem andThen_next {α β : Type} (a : α) (f : α → Res β) : andThen (.next a) f = f a := rfl
@[simp] theorem andThen_fault {α β : Type} (r : Fault) (f : α → Res β) : andThen (.fault r) f = .fault r := rfl
@[simp] theorem andThen_refused {α β : Type} (r : Refusal) (f : α → Res β) : andThen (.refused r) f = .refused r := rfl

/-- A sequence answers a value exactly if both its parts do. -/
theorem andThen_eq_next {α β : Type} {x : Res α} {f : α → Res β} {b : β} :
    andThen x f = .next b ↔ ∃ a, x = .next a ∧ f a = .next b := by
  cases x <;> simp [andThen]

/-- A sequence hangs in its first part, or in its second after the first returned. -/
theorem andThen_eq_fault {α β : Type} {x : Res α} {f : α → Res β} {r : Fault} :
    andThen x f = .fault r ↔ x = .fault r ∨ ∃ a, x = .next a ∧ f a = .fault r := by
  cases x <;> simp [andThen]

/-- A sequence is refused in its first part, or in its second after the first returned. -/
theorem andThen_eq_refused {α β : Type} {x : Res α} {f : α → Res β} {r : Refusal} :
    andThen x f = .refused r ↔ x = .refused r ∨ ∃ a, x = .next a ∧ f a = .refused r := by
  cases x <;> simp [andThen]

theorem andThen_assoc {α β γ : Type} (x : Res α) (f : α → Res β) (g : β → Res γ) :
    andThen (andThen x f) g = andThen x fun a => andThen (f a) g := by
  cases x <;> rfl

/-! Primitives under PrimitivesReturn. -/

/-- A primitive that returns only moves the sequencer (60_exceptions.md R217). -/
theorem callPrim_returns (p : Prim) {s : State} (h : s.env.stall = none) : callPrim p s = .next (s.atCall p) := by
  unfold callPrim; rw [h]

/-- Every primitive call answers the state at that call, with the environment's stall counter one less; or it hangs there, and
then the counter is at 0. -/
theorem callPrim_cases (p : Prim) (s : State) :
    (∃ n, callPrim p s = .next ((s.atCall p).setEnv { s.env with stall := n }) ∧ (s.env.stall = none ↔ n = none)) ∨
    (callPrim p s = .fault (.neverReturns (s.atCall p)) ∧ s.env.stall = some 0) := by
  unfold callPrim
  cases h : s.env.stall with
  | none => exact .inl ⟨none, by simp [← h, State.setEnv, State.atCall, State.setSeq], by simp⟩
  | some n =>
    cases n with
    | zero => exact .inr ⟨rfl, rfl⟩
    | succ n => exact .inl ⟨some n, rfl, by simp⟩

/-- `PinMode` sets the direction (10_state.md R34). -/
theorem pinMode_returns (r : Role) (p : Pin) (d : Dir) {s : State} (h : s.env.stall = none) :
    pinMode r p d s =
      .next (((s.atCall (.pinMode r d)).setPin p { s.pin p with dir := d }).emit (.mode r d)) := by
  unfold pinMode; rw [callPrim_returns _ h]; rfl

/-- `PinWrite` on an output sets the latch (R34). -/
theorem pinWrite_returns (r : Role) (p : Pin) (v : Level) {s : State} (h : s.env.stall = none)
    (hd : (s.pin p).dir = .output) :
    pinWrite r p v s =
      .next (((s.atCall (.pinWrite r v)).setPin p { s.pin p with out := some v }).emit (.write r v)) := by
  unfold pinWrite; rw [if_pos hd, callPrim_returns _ h]; rfl

/-- `PinRead` on an input returns the environment's next level (20_memory.md R60). -/
theorem pinRead_returns (r : Role) (p : Pin) {s : State} (h : s.env.stall = none) (hd : (s.pin p).dir = .input) :
    pinRead r p s = .next (s.env.levelAt 0,
      ((s.atCall (.pinRead r)).setEnv (s.env.dropLevels 1)).emit (.read r (s.env.levelAt 0))) := by
  unfold pinRead; rw [if_pos hd, callPrim_returns _ h]; rfl

/-- `DelayUs` only makes its event. -/
theorem delayUs_returns (n : Nat) {s : State} (h : s.env.stall = none) :
    delayUs n s = .next ((s.atCall (.delayUs n)).emit (.delay n)) := by
  unfold delayUs; rw [callPrim_returns _ h]; rfl

theorem periphSetup_returns {s : State} (h : s.env.stall = none) :
    periphSetup s = .next ((s.atCall .periphSetup).emit .setup) := by
  unfold periphSetup; rw [callPrim_returns _ h]; rfl

theorem periphRelease_returns {s : State} (h : s.env.stall = none) :
    periphRelease s = .next ((s.atCall .periphRelease).emit .release) := by
  unfold periphRelease; rw [callPrim_returns _ h]; rfl

theorem periphBeginTransaction_returns (c : Cfg) {s : State} (h : s.env.stall = none) :
    periphBeginTransaction c s = .next ((s.atCall (.periphBeginTransaction c.freq c.order c.dataMode)).emit
      (.beginSession c.freq c.order c.dataMode)) := by
  unfold periphBeginTransaction; rw [callPrim_returns _ h]; rfl

theorem periphEndTransaction_returns {s : State} (h : s.env.stall = none) :
    periphEndTransaction s = .next ((s.atCall .periphEndTransaction).emit .endSession) := by
  unfold periphEndTransaction; rw [callPrim_returns _ h]; rfl

/-- `PeriphTransfer` returns as many bytes as it was given (41_transfer_engine.md R143). -/
theorem periphTransfer_returns (bs : List Byte) {s : State} (h : s.env.stall = none) :
    periphTransfer bs s = .next (s.env.bytes bs.length,
      ((s.atCall (.periphTransfer bs)).setEnv (s.env.dropBytes bs.length)).emit
        (.transfer bs (s.env.bytes bs.length))) := by
  unfold periphTransfer; rw [callPrim_returns _ h]; rfl

/-! The bracket of an operation. -/

theorem operation_live {op : Instr} {s : State} {h : Handle} (hs : s.handle = some h)
    (body : Handle → State → Res (Ret × State)) :
    operation op s body = andThen (body h (s.start op)) fun r => .next (r.2.finish r.1) := by
  unfold operation; rw [hs]

theorem operation_noHandle {op : Instr} {s : State} (hs : s.handle = none)
    (body : Handle → State → Res (Ret × State)) : operation op s body = .refused .noHandle := by
  unfold operation; rw [hs]

/-- An operation that answers a state had a live handle, and its body answered. -/
theorem operation_eq_next {op : Instr} {s t : State} {body : Handle → State → Res (Ret × State)}
    (h : operation op s body = .next t) :
    ∃ hd r u, s.handle = some hd ∧ body hd (s.start op) = .next (r, u) ∧ t = u.finish r := by
  cases hs : s.handle with
  | none => rw [operation_noHandle hs] at h; cases h
  | some hd =>
    rw [operation_live hs, andThen_eq_next] at h
    obtain ⟨⟨r, u⟩, hb, ht⟩ := h
    exact ⟨hd, r, u, rfl, hb, by cases ht; rfl⟩

theorem whenInitialized_eq_next {α : Type} {h : Handle} {x : Res α} {a : α} :
    whenInitialized h x = .next a ↔ h.isInitialized = true ∧ x = .next a := by
  unfold whenInitialized
  split
  · next hi => simp [hi]
  · next hi => simp [hi]

@[simp] theorem whenInitialized_true {α : Type} {h : Handle} (hi : h.isInitialized = true) (x : Res α) :
    whenInitialized h x = x := by
  unfold whenInitialized; rw [if_pos hi]

theorem whenInitialized_false {α : Type} {h : Handle} (hi : h.isInitialized = false) (x : Res α) :
    whenInitialized h x = .refused .notInitialized := by
  unfold whenInitialized; simp [hi]

/-! Operands. -/

/-- A buffer whose length is in range gives its first `len` bytes. -/
theorem readSrc_good {b : SrcBuf} (h : ¬ BadSrc b) : readSrc b = some ((b.bytes.getD []).take b.len) := by
  unfold readSrc BadSrc at *
  cases hb : b.bytes with
  | none => simp_all
  | some bs => simp_all

theorem readSrc_bad {b : SrcBuf} (h : BadSrc b) : readSrc b = none := by
  unfold readSrc BadSrc at *
  cases hb : b.bytes with
  | none => simp_all; omega
  | some bs => simp_all

theorem readSrc_eq_some {b : SrcBuf} {bs : List Byte} (h : readSrc b = some bs) :
    ¬ BadSrc b ∧ bs = (b.bytes.getD []).take b.len := by
  by_cases hb : BadSrc b
  · rw [readSrc_bad hb] at h; cases h
  · rw [readSrc_good hb] at h; cases h; exact ⟨hb, rfl⟩

theorem withSrc_good {α : Type} {b : SrcBuf} (h : ¬ BadSrc b) (k : List Byte → Res α) :
    withSrc b k = k ((b.bytes.getD []).take b.len) := by
  unfold withSrc; rw [readSrc_good h]

theorem withSrc_bad {α : Type} {b : SrcBuf} (h : BadSrc b) (k : List Byte → Res α) :
    withSrc b k = .refused .badBuffer := by
  unfold withSrc; rw [readSrc_bad h]

theorem withSrc_eq_next {α : Type} {b : SrcBuf} {k : List Byte → Res α} {a : α} (h : withSrc b k = .next a) :
    ¬ BadSrc b ∧ k ((b.bytes.getD []).take b.len) = .next a := by
  by_cases hb : BadSrc b
  · rw [withSrc_bad hb] at h; cases h
  · rw [withSrc_good hb] at h; exact ⟨hb, h⟩

theorem dstOk_iff (b : DstBuf) : dstOk b = true ↔ ¬ BadDst b := by
  unfold dstOk BadDst
  cases b.size <;> simp

theorem withDst_good {α : Type} {b : DstBuf} (h : ¬ BadDst b) (x : Res α) : withDst b x = x := by
  unfold withDst; rw [if_pos ((dstOk_iff b).mpr h)]

theorem withDst_bad {α : Type} {b : DstBuf} (h : BadDst b) (x : Res α) : withDst b x = .refused .badBuffer := by
  unfold withDst; rw [if_neg (fun hb => (dstOk_iff b).mp hb h)]

theorem withDst_eq_next {α : Type} {b : DstBuf} {x : Res α} {a : α} (h : withDst b x = .next a) :
    ¬ BadDst b ∧ x = .next a := by
  by_cases hb : BadDst b
  · rw [withDst_bad hb] at h; cases h
  · rw [withDst_good hb] at h; exact ⟨hb, h⟩

theorem withDataMode_good {α : Type} {mode : Nat} (h : mode < 4) (k : BitVec 2 → Res α) :
    withDataMode mode k = k (BitVec.ofNat 2 mode) := by unfold withDataMode; rw [if_pos h]

theorem withDataMode_bad {α : Type} {mode : Nat} (h : 4 ≤ mode) (k : BitVec 2 → Res α) :
    withDataMode mode k = .refused .contractViolation := by unfold withDataMode; rw [if_neg (by omega)]

@[simp] theorem withCsPin_some {α : Type} (p : Pin) (k : Pin → Res α) : withCsPin (some p) k = k p := rfl
@[simp] theorem withCsPin_none {α : Type} (k : Pin → Res α) : withCsPin none k = .refused .contractViolation := rfl

theorem withDistinct_good {α : Type} {pins : List Pin} (h : pins.Nodup) (x : Res α) : withDistinct pins x = x := by
  unfold withDistinct; rw [if_pos ((allDistinct_iff_nodup pins).mpr h)]

theorem withDataMode_eq_next {α : Type} {mode : Nat} {k : BitVec 2 → Res α} {a : α} (h : withDataMode mode k = .next a) :
    mode < 4 ∧ k (BitVec.ofNat 2 mode) = .next a := by
  unfold withDataMode at h
  split at h
  · next hm => exact ⟨hm, h⟩
  · cases h

theorem withCsPin_eq_next {α : Type} {cs : Option Pin} {k : Pin → Res α} {a : α} (h : withCsPin cs k = .next a) :
    ∃ p, cs = some p ∧ k p = .next a := by
  cases cs with
  | none => cases h
  | some p => exact ⟨p, rfl, h⟩

theorem withDistinct_eq_next {α : Type} {pins : List Pin} {x : Res α} {a : α} (h : withDistinct pins x = .next a) :
    allDistinct pins = true ∧ x = .next a := by
  unfold withDistinct at h
  split at h
  · next hd => exact ⟨hd, h⟩
  · cases h

theorem withDistinct_bad {α : Type} {pins : List Pin} (h : ¬ pins.Nodup) (x : Res α) :
    withDistinct pins x = .refused .pinClash := by
  unfold withDistinct; rw [if_neg (fun hd => h ((allDistinct_iff_nodup pins).mp hd))]

/-! The answers of the environment. -/

theorem levelAt_dropLevels (e : Env) (n k : Nat) : (e.dropLevels n).levelAt k = e.levelAt (n + k) := by
  simp [Env.levelAt, Env.dropLevels, Nat.add_assoc]

theorem byteAt_dropBytes (e : Env) (n k : Nat) : (e.dropBytes n).byteAt k = e.byteAt (n + k) := by
  simp [Env.byteAt, Env.dropBytes, Nat.add_assoc]

theorem dropLevels_dropLevels (e : Env) (m n : Nat) : (e.dropLevels m).dropLevels n = e.dropLevels (m + n) := by
  simp [Env.dropLevels, Nat.add_assoc]

theorem dropBytes_dropBytes (e : Env) (m n : Nat) : (e.dropBytes m).dropBytes n = e.dropBytes (m + n) := by
  simp [Env.dropBytes, Nat.add_assoc]

@[simp] theorem bytes_length (e : Env) (n : Nat) : (e.bytes n).length = n := by simp [Env.bytes]

theorem bytes_add (e : Env) (m n : Nat) : e.bytes (m + n) = e.bytes m ++ (e.dropBytes m).bytes n := by
  simp only [Env.bytes, List.range_add, List.map_append, List.map_map]
  congr 1
  apply List.map_congr_left
  intro k _
  exact (byteAt_dropBytes e m k).symm

@[simp] theorem dropLevels_zero (e : Env) : e.dropLevels 0 = e := by simp [Env.dropLevels]
@[simp] theorem dropBytes_zero (e : Env) : e.dropBytes 0 = e := by simp [Env.dropBytes]

end Sys2Proof.Machine
end

