-- ==== Sys2Proof/Laws/Engine.lean ====
section
/-! SUPPORT. What one engine invocation does, in closed form: the events, the bytes, the environment, the pins. -/

namespace Sys2Proof.Machine

/-! Pins follow the events. -/

/-- The pin number of a role (10_state.md R25 to R28). -/
def Cfg.pinOf (c : Cfg) : Role → Option Pin
  | .cs => some c.csPin
  | .clk => match c.bus with | .hardware _ => none | .software w => some w.clk
  | .mosi => match c.bus with | .hardware _ => none | .software w => w.mosi
  | .miso => match c.bus with | .hardware _ => none | .software w => w.miso

/-- Pin space after an event. -/
def replayEvent (c : Cfg) (m : Pins) : Event → Pins
  | .write r v => match c.pinOf r with
    | some p => pinPut p { pinGet m p with out := some v } m
    | none => m
  | .mode r d => match c.pinOf r with
    | some p => pinPut p { pinGet m p with dir := d } m
    | none => m
  | _ => m

/-- Pin space after a trace. -/
def replay (c : Cfg) (m : Pins) (es : List Event) : Pins := es.foldl (replayEvent c) m

@[simp] theorem replay_nil (c : Cfg) (m : Pins) : replay c m [] = m := rfl
@[simp] theorem replay_append (c : Cfg) (m : Pins) (es es' : List Event) :
    replay c m (es ++ es') = replay c (replay c m es) es' := by simp [replay]

/-- What a part of an operation did that moved bytes: events `es`, the pins as the events say, directions, handle, requests
and result as before, and the stall counter's absence kept. -/
structure Did (c : Cfg) (s t : State) (es : List Event) : Prop where
  trace : t.trace = s.trace ++ es
  pins : t.pins = replay c s.pins es
  dirs : DirsKept s.pins t.pins
  handle : t.handle = s.handle
  pending : t.pending = s.pending
  returns : t.env.stall = none

theorem Did.refl (c : Cfg) {s : State} (h : s.env.stall = none) : Did c s s [] :=
  ⟨by simp, rfl, fun _ => rfl, rfl, rfl, h⟩

theorem Did.trans {c : Cfg} {s t u : State} {es es' : List Event} (h : Did c s t es) (h' : Did c t u es') :
    Did c s u (es ++ es') :=
  ⟨by rw [h'.trace, h.trace, List.append_assoc], by rw [h'.pins, h.pins, replay_append],
    fun p => (h'.dirs p).trans (h.dirs p), h'.handle.trans h.handle, h'.pending.trans h.pending, h'.returns⟩

/-- A change of registers, counters or sequencer is none of `Did`'s business. -/
theorem Did.of_eq {c : Cfg} {s t u : State} {es : List Event} (h : Did c s t es) (h1 : u.trace = t.trace)
    (h2 : u.pins = t.pins) (h3 : u.handle = t.handle) (h4 : u.pending = t.pending) (h5 : u.env.stall = t.env.stall) :
    Did c s u es :=
  ⟨h1.trans h.trace, h2.trans h.pins, by rw [h2]; exact h.dirs, h3.trans h.handle, h4.trans h.pending,
    h5.trans h.returns⟩

theorem BusReady.kept {c : Cfg} {m m' : Pins} (hd : DirsKept m m') (h : BusReady c m) : BusReady c m' := by
  unfold BusReady at *
  cases hb : c.bus with
  | hardware p => trivial
  | software w =>
    rw [hb] at h
    exact ⟨(hd _).trans h.1, fun p hp => (hd p).trans (h.2.1 p hp), fun p hp => (hd p).trans (h.2.2 p hp)⟩

/-! One slot of the bit engine. -/

/-- What the bit engine needs: its pins as BEGIN configured them, and primitives that return. -/
structure BitReady (c : Cfg) (w : SwPins) (s : State) : Prop where
  bus : c.bus = .software w
  ready : BusReady c s.pins
  returns : s.env.stall = none

theorem BitReady.kept {c : Cfg} {w : SwPins} {s t : State} {es : List Event} (h : BitReady c w s)
    (hd : Did c s t es) : BitReady c w t := ⟨h.bus, h.ready.kept hd.dirs, hd.returns⟩

theorem BitReady.of_eq {c : Cfg} {w : SwPins} {s t : State} (h : BitReady c w s) (hp : t.pins = s.pins)
    (he : t.env = s.env) : BitReady c w t := ⟨h.bus, by rw [hp]; exact h.ready, by rw [he]; exact h.returns⟩

theorem BitReady.pins {c : Cfg} {w : SwPins} {s : State} (h : BitReady c w s) :
    (s.pin w.clk).dir = .output ∧ (∀ p ∈ w.mosi, (s.pin p).dir = .output) ∧ ∀ p ∈ w.miso, (s.pin p).dir = .input := by
  have := h.ready
  unfold BusReady at this
  rw [h.bus] at this
  exact this

/-- The environment after `n` slots. -/
def sampledEnv (w : SwPins) (e : Env) (n : Nat) : Env := if w.miso.isSome then e.dropLevels n else e

/-- `PinWrite` on an output of the handle. -/
theorem pinWrite_did {c : Cfg} {s : State} {r : Role} {p : Pin} (hp : c.pinOf r = some p)
    (h : s.env.stall = none) (hd : (s.pin p).dir = .output) (v : Level) :
    ∃ t, pinWrite r p v s = .next t ∧ Did c s t [.write r v] ∧ t.regs = s.regs ∧ t.env = s.env := by
  refine ⟨_, pinWrite_returns r p v h hd, ⟨rfl, ?_, ?_, rfl, rfl, h⟩, rfl, rfl⟩
  · simp [replay, replayEvent, hp, pin_eq]
  · intro q
    simp only [emit_pins, setPin_pins, atCall_pins, pinGet_pinPut]
    split
    · next hq => subst hq; rfl
    · rfl

theorem waitHalf_did (c : Cfg) {s : State} (h : s.env.stall = none) :
    ∃ t, waitHalf c s = .next t ∧ Did c s t (waitEvents c) ∧ t.regs = s.regs ∧ t.env = s.env := by
  unfold waitHalf waitEvents
  split
  · refine ⟨_, delayUs_returns _ h, ⟨rfl, by simp [replay, replayEvent], fun _ => rfl, rfl, rfl, h⟩, rfl, rfl⟩
  · exact ⟨s, rfl, .refl c h, rfl, rfl⟩

theorem driveIfChanged_did {c : Cfg} {w : SwPins} {s : State} (h : BitReady c w s) (bit : Level) :
    ∃ t, driveIfChanged w bit s = .next t ∧ Did c s t (driveEvents w (!decide (bit = s.regs.lastMosi)) bit) ∧
      t.regs = { s.regs with lastMosi := if w.mosi.isSome then bit else s.regs.lastMosi } ∧ t.env = s.env := by
  unfold driveIfChanged driveEvents
  cases hm : w.mosi with
  | none => exact ⟨s, rfl, by simpa using .refl c h.returns, rfl, rfl⟩
  | some p =>
    by_cases hb : bit = s.regs.lastMosi
    · exact ⟨s, by simp [hb], by simpa [hb] using .refl c h.returns, by simp [hb], rfl⟩
    · obtain ⟨t, ht, hd, hr, he⟩ := pinWrite_did (c := c) (r := .mosi) (p := p) (by simp [Cfg.pinOf, h.bus, hm])
        h.returns (h.pins.2.1 p (by simp [hm])) bit
      refine ⟨t.setRegs { t.regs with lastMosi := bit }, by simp [hb, ht], ?_, by simp [hr], by simp [he]⟩
      have hu : Did c s (t.setRegs { t.regs with lastMosi := bit }) [.write .mosi bit] :=
        hd.of_eq rfl rfl rfl rfl rfl
      simpa [hb] using hu

theorem driveAlways_did {c : Cfg} {w : SwPins} {s : State} (h : BitReady c w s) (bit : Level) :
    ∃ t, driveAlways w bit s = .next t ∧ Did c s t (driveEvents w true bit) ∧ t.regs = s.regs ∧ t.env = s.env := by
  unfold driveAlways driveEvents
  cases hm : w.mosi with
  | none => exact ⟨s, rfl, by simpa using .refl c h.returns, rfl, rfl⟩
  | some p =>
    obtain ⟨t, ht, hd, hr, he⟩ := pinWrite_did (c := c) (r := .mosi) (p := p) (by simp [Cfg.pinOf, h.bus, hm])
      h.returns (h.pins.2.1 p (by simp [hm])) bit
    exact ⟨t, ht, by simpa using hd, hr, he⟩

theorem sample_did {c : Cfg} {w : SwPins} {s : State} (h : BitReady c w s) :
    ∃ t, sample w s = .next t ∧ Did c s t (sampleEvents w (s.env.levelAt 0)) ∧
      t.regs = { s.regs with
        rx := if w.miso.isSome && s.env.levelAt 0 then s.regs.rx ||| s.regs.mask else s.regs.rx } ∧
      t.env = sampledEnv w s.env 1 := by
  unfold sample sampleEvents sampledEnv
  cases hm : w.miso with
  | none => exact ⟨s, rfl, by simpa using .refl c h.returns, by simp, by simp⟩
  | some p =>
    dsimp only
    rw [pinRead_returns .miso p h.returns (h.pins.2.2 p (by simp [hm]))]
    refine ⟨_, rfl, ?_, ?_, ?_⟩
    · cases hv : s.env.levelAt 0 <;>
        exact ⟨by simp, by simp [replay, replayEvent], fun _ => rfl, rfl, rfl, h.returns⟩
    · cases hv : s.env.levelAt 0 <;> simp [State.emit, State.setEnv, State.atCall, State.setSeq]
    · cases hv : s.env.levelAt 0 <;> simp

theorem sequenceA_did {c : Cfg} {w : SwPins} {s : State} (h : BitReady c w s) (bit : Level) :
    ∃ t, sequenceA c w bit s = .next t ∧
      Did c s t (driveEvents w (!decide (bit = s.regs.lastMosi)) bit ++ [.write .clk true] ++ waitEvents c
        ++ sampleEvents w (s.env.levelAt 0) ++ [.write .clk false]) ∧
      t.regs = { s.regs with
        lastMosi := if w.mosi.isSome then bit else s.regs.lastMosi
        rx := if w.miso.isSome && s.env.levelAt 0 then s.regs.rx ||| s.regs.mask else s.regs.rx } ∧
      t.env = sampledEnv w s.env 1 := by
  have hclk : c.pinOf .clk = some w.clk := by simp [Cfg.pinOf, h.bus]
  obtain ⟨t1, e1, d1, r1, v1⟩ := driveIfChanged_did h bit
  have h1 := h.kept d1
  obtain ⟨t2, e2, d2, r2, v2⟩ := pinWrite_did hclk h1.returns h1.pins.1 c.raised
  have h2 := h1.kept d2
  obtain ⟨t3, e3, d3, r3, v3⟩ := waitHalf_did c h2.returns
  have h3 := h2.kept d3
  obtain ⟨t4, e4, d4, r4, v4⟩ := sample_did h3
  have h4 := h3.kept d4
  obtain ⟨t5, e5, d5, r5, v5⟩ := pinWrite_did hclk h4.returns h4.pins.1 c.lowered
  have hv : t3.env.levelAt 0 = s.env.levelAt 0 := by rw [v3, v2, v1]
  refine ⟨t5, by simp only [sequenceA, e1, e2, e3, e4, e5, andThen_next], ?_, ?_, ?_⟩
  · rw [← hv]; exact (((d1.trans d2).trans d3).trans d4).trans d5
  · rw [r5, r4, r3, r2, r1, hv]
  · rw [v5, v4, v3, v2, v1]

theorem sequenceB_did {c : Cfg} {w : SwPins} {s : State} (h : BitReady c w s) (bit : Level) :
    ∃ t, sequenceB c w bit s = .next t ∧
      Did c s t ([.write .clk true] ++ waitEvents c ++ driveEvents w true bit ++ [.write .clk false]
        ++ sampleEvents w (s.env.levelAt 0)) ∧
      t.regs = { s.regs with
        rx := if w.miso.isSome && s.env.levelAt 0 then s.regs.rx ||| s.regs.mask else s.regs.rx } ∧
      t.env = sampledEnv w s.env 1 := by
  have hclk : c.pinOf .clk = some w.clk := by simp [Cfg.pinOf, h.bus]
  obtain ⟨t1, e1, d1, r1, v1⟩ := pinWrite_did hclk h.returns h.pins.1 c.raised
  have h1 := h.kept d1
  obtain ⟨t2, e2, d2, r2, v2⟩ := waitHalf_did c h1.returns
  have h2 := h1.kept d2
  obtain ⟨t3, e3, d3, r3, v3⟩ := driveAlways_did h2 bit
  have h3 := h2.kept d3
  obtain ⟨t4, e4, d4, r4, v4⟩ := pinWrite_did hclk h3.returns h3.pins.1 c.lowered
  have h4 := h3.kept d4
  obtain ⟨t5, e5, d5, r5, v5⟩ := sample_did h4
  have hv : t4.env.levelAt 0 = s.env.levelAt 0 := by rw [v4, v3, v2, v1]
  refine ⟨t5, by simp only [sequenceB, e1, e2, e3, e4, e5, andThen_next], ?_, ?_, ?_⟩
  · rw [← hv]; exact (((d1.trans d2).trans d3).trans d4).trans d5
  · rw [r5, r4, r3, r2, r1, hv]
  · rw [v5, v4, v3, v2, v1]

/-- The tracker after a slot (R36: sequence B neither reads nor writes it). -/
def trackerAfter (c : Cfg) (w : SwPins) (bit last : Level) : Level :=
  if c.sequenceB then last else if w.mosi.isSome then bit else last

/-- One slot: the event order of its sequence, the sampled bit at the mask, the next mask (R146 to R149). -/
theorem bitSlot_did {c : Cfg} {w : SwPins} {s : State} (h : BitReady c w s) :
    ∃ t, bitSlot c w s = .next t ∧
      Did c s t (slotEvents c w (!decide (maskedBit s.regs.tx s.regs.mask = s.regs.lastMosi))
        (maskedBit s.regs.tx s.regs.mask) (s.env.levelAt 0)) ∧
      t.regs = { tx := s.regs.tx
                 rx := if w.miso.isSome && s.env.levelAt 0 then s.regs.rx ||| s.regs.mask else s.regs.rx
                 mask := nextMask c.order s.regs.mask
                 lastMosi := trackerAfter c w (maskedBit s.regs.tx s.regs.mask) s.regs.lastMosi } ∧
      t.env = sampledEnv w s.env 1 := by
  obtain ⟨t1, e1, d1, r1, v1⟩ := waitHalf_did c h.returns
  have h1 := h.kept d1
  unfold bitSlot slotEvents trackerAfter
  rw [e1]
  by_cases hb : c.sequenceB = true
  · obtain ⟨t2, e2, d2, r2, v2⟩ := sequenceB_did h1 (maskedBit t1.regs.tx t1.regs.mask)
    refine ⟨t2.setRegs { t2.regs with mask := nextMask c.order t2.regs.mask }, by simp [hb, e2], ?_, ?_, ?_⟩
    · rw [v1, r1] at d2
      have hu : Did c s (t2.setRegs { t2.regs with mask := nextMask c.order t2.regs.mask }) _ :=
        (d1.trans d2).of_eq rfl rfl rfl rfl rfl
      simpa [hb] using hu
    · simp [r2, r1, v1, hb]
    · simp [v2, v1]
  · obtain ⟨t2, e2, d2, r2, v2⟩ := sequenceA_did h1 (maskedBit t1.regs.tx t1.regs.mask)
    refine ⟨t2.setRegs { t2.regs with mask := nextMask c.order t2.regs.mask }, by simp [hb, e2], ?_, ?_, ?_⟩
    · rw [v1, r1] at d2
      have hu : Did c s (t2.setRegs { t2.regs with mask := nextMask c.order t2.regs.mask }) _ :=
        (d1.trans d2).of_eq rfl rfl rfl rfl rfl
      simpa [hb] using hu
    · simp [r2, r1, v1, hb]
    · simp [v2, v1]

/-! Slots and bytes. -/

/-- The bits that `n` slots from mask `m` on send. -/
def slotBits (o : BitOrder) (tx : Byte) : Nat → Byte → List Level
  | 0, _ => []
  | n + 1, m => maskedBit tx m :: slotBits o tx n (nextMask o m)

/-- `rx` after `n` slots from mask `m` on, the answers from `ans k` on. -/
def rxAfter (o : BitOrder) (ans : Nat → Level) : Nat → Byte → Nat → Byte → Byte
  | 0, _, _, rx => rx
  | n + 1, m, k, rx => rxAfter o ans n (nextMask o m) (k + 1) (if ans k then rx ||| m else rx)

/-- The tracker agrees with the bit before, as far as sequence A will look at it. -/
def Tracks (c : Cfg) (w : SwPins) (last : Option Level) (lastMosi : Level) (bits : List Level) : Prop :=
  c.sequenceB = false → w.mosi.isSome = true → ∀ b ∈ bits.head?, (last = some b ↔ b = lastMosi)

theorem slotEvents_congr {c : Cfg} {w : SwPins} {ch ch' : Bool} {bit v v' : Level}
    (hc : c.sequenceB = false → w.mosi.isSome = true → ch = ch') (hv : w.miso.isSome = true → v = v') :
    slotEvents c w ch bit v = slotEvents c w ch' bit v' := by
  unfold slotEvents driveEvents sampleEvents
  cases hb : c.sequenceB <;> cases hm : w.mosi.isSome <;> cases hi : w.miso.isSome <;> simp_all

theorem bitSlots_did {c : Cfg} {w : SwPins} (ans : Nat → Level) (n : Nat) :
    ∀ {s : State} (last : Option Level) (k : Nat), BitReady c w s →
      (w.miso.isSome = true → ∀ j, s.env.levelAt j = ans (k + j)) →
      Tracks c w last s.regs.lastMosi (slotBits c.order s.regs.tx n s.regs.mask) →
      ∃ t, bitSlots c w n s = .next t ∧
        Did c s t (streamEvents c w ans last k (slotBits c.order s.regs.tx n s.regs.mask)) ∧
        t.regs.rx = (if w.miso.isSome then rxAfter c.order ans n s.regs.mask k s.regs.rx else s.regs.rx) ∧
        t.env = sampledEnv w s.env n ∧
        (c.sequenceB = false → w.mosi.isSome = true →
          ∀ b ∈ (slotBits c.order s.regs.tx n s.regs.mask).getLast?, t.regs.lastMosi = b) := by
  induction n with
  | zero =>
    intro s last k h _ _
    refine ⟨s, rfl, .refl c h.returns, by simp [rxAfter], by simp [sampledEnv], by simp [slotBits]⟩
  | succ n ih =>
    intro s last k h ha ht
    obtain ⟨t1, e1, d1, r1, v1⟩ := bitSlot_did h
    have htx : t1.regs.tx = s.regs.tx := by rw [r1]
    have hmk : t1.regs.mask = nextMask c.order s.regs.mask := by rw [r1]
    have hl1 : c.sequenceB = false → w.mosi.isSome = true →
        t1.regs.lastMosi = maskedBit s.regs.tx s.regs.mask := by
      intro hb hm; rw [r1]; simp [trackerAfter, hb, hm]
    obtain ⟨t2, e2, d2, r2, v2, l2⟩ := ih (s := t1) (some (maskedBit s.regs.tx s.regs.mask)) (k + 1) (h.kept d1)
      (by
        intro hm j
        rw [v1, sampledEnv, if_pos hm, levelAt_dropLevels, ha hm]
        congr 1; omega)
      (by
        intro hb hm b _
        rw [hl1 hb hm]
        constructor
        · intro e; exact (Option.some.inj e).symm
        · intro e; rw [e])
    simp only [htx, hmk] at d2 r2 l2
    refine ⟨t2, by simp only [bitSlots, e1, andThen_next, e2], ?_, ?_, ?_, ?_⟩
    · have hs : slotEvents c w (!decide (maskedBit s.regs.tx s.regs.mask = s.regs.lastMosi))
          (maskedBit s.regs.tx s.regs.mask) (s.env.levelAt 0) =
          slotEvents c w (!decide (last = some (maskedBit s.regs.tx s.regs.mask)))
            (maskedBit s.regs.tx s.regs.mask) (ans k) := by
        refine slotEvents_congr ?_ ?_
        · intro hb hm
          have := ht hb hm (maskedBit s.regs.tx s.regs.mask) (by simp [slotBits])
          simp only [decide_eq_decide.mpr this]
        · intro hm; simpa using ha hm 0
      rw [hs] at d1
      simpa only [slotBits, streamEvents] using d1.trans d2
    · rw [r2, r1]
      by_cases hm : w.miso.isSome = true
      · have h0 : s.env.levelAt 0 = ans k := by simpa using ha hm 0
        simp only [hm, if_true, rxAfter, Bool.true_and, h0]
      · simp [hm]
    · rw [v2, v1]
      unfold sampledEnv
      split
      · rw [dropLevels_dropLevels, Nat.add_comm]
      · rfl
    · intro hb hm b hb'
      cases hn : slotBits c.order s.regs.tx n (nextMask c.order s.regs.mask) with
      | nil =>
        simp only [slotBits, hn, List.getLast?_singleton, Option.mem_def, Option.some.injEq] at hb'
        cases n with
        | zero =>
          simp only [bitSlots, Host.Outcome.next.injEq] at e2
          rw [← e2, hl1 hb hm, hb']
        | succ n => simp [slotBits] at hn
      | cons x xs =>
        refine l2 hb hm b ?_
        rw [hn]
        simpa [slotBits, hn, List.getLast?_cons_cons] using hb'

/-- Eight slots from the start mask send the byte's bits in wire order (20_memory.md R56). -/
theorem slotBits_eight (o : BitOrder) (b : Byte) : slotBits o b 8 (startMask o) = bitsOf o b := by
  cases o <;> revert b <;> decide

/-- The received byte has each sampled bit at its slot's position (R56). -/
theorem rxAfter_eight (o : BitOrder) (ans : Nat → Level) (k : Nat) :
    rxAfter o ans 8 (startMask o) k 0#8 = receivedByte o ans k := by
  have key : ∀ (o : BitOrder) (v0 v1 v2 v3 v4 v5 v6 v7 : Bool),
      rxAfter o (fun j => [v0, v1, v2, v3, v4, v5, v6, v7].getD j false) 8 (startMask o) 0 0#8 =
        byteOfLevels o [v0, v1, v2, v3, v4, v5, v6, v7] := by
    intro o; cases o <;> decide
  have := key o (ans k) (ans (k + 1)) (ans (k + 2)) (ans (k + 3)) (ans (k + 4)) (ans (k + 5)) (ans (k + 6))
    (ans (k + 7))
  simpa [rxAfter, receivedByte, List.range, List.range.loop] using this

@[simp] theorem bitsOf_length (o : BitOrder) (b : Byte) : (bitsOf o b).length = 8 := by simp [bitsOf]

theorem streamEvents_append (c : Cfg) (w : SwPins) (ans : Nat → Level) (xs ys : List Level) :
    ∀ (last : Option Level) (k : Nat), streamEvents c w ans last k (xs ++ ys) =
      streamEvents c w ans last k xs ++ streamEvents c w ans (xs.getLast?.or last) (k + xs.length) ys := by
  induction xs with
  | nil => intro last k; simp [streamEvents]
  | cons x xs ih =>
    intro last k
    have hl : (x :: xs).getLast?.or last = xs.getLast?.or (some x) := by
      cases xs with
      | nil => rfl
      | cons y ys => simp [List.getLast?_cons]
    have hk : k + 1 + xs.length = k + (x :: xs).length := by rw [List.length_cons]; omega
    simp only [List.cons_append, streamEvents, ih, hl, hk, List.append_assoc]

/-- The bytes received by a Software-mode invocation, the answers from `ans k` on. -/
def receivedBytes (c : Cfg) (w : SwPins) (ans : Nat → Level) (k : Nat) (bs : List Byte) : List Byte :=
  if w.miso.isSome then (List.range bs.length).map fun i => receivedByte c.order ans (k + 8 * i) else bs

theorem receivedBytes_cons (c : Cfg) (w : SwPins) (ans : Nat → Level) (k : Nat) (b : Byte) (bs : List Byte) :
    receivedBytes c w ans k (b :: bs) =
      (if w.miso.isSome then receivedByte c.order ans k else b) :: receivedBytes c w ans (k + 8) bs := by
  unfold receivedBytes
  split
  · rw [List.length_cons, List.range_succ_eq_map, List.map_cons, List.map_map]
    congr 1
    apply List.map_congr_left
    intro i _
    simp only [Function.comp_apply]
    congr 1; omega
  · rfl

theorem swBytes_did {c : Cfg} {w : SwPins} (ans : Nat → Level) (bs : List Byte) :
    ∀ {s : State} (last : Option Level) (k : Nat), BitReady c w s →
      (w.miso.isSome = true → ∀ j, s.env.levelAt j = ans (k + j)) →
      Tracks c w last s.regs.lastMosi (bs.flatMap (bitsOf c.order)) →
      ∃ t, swBytes c w bs s = .next (receivedBytes c w ans k bs, t) ∧
        Did c s t (streamEvents c w ans last k (bs.flatMap (bitsOf c.order))) ∧
        t.env = sampledEnv w s.env (8 * bs.length) := by
  induction bs with
  | nil =>
    intro s last k h _ _
    exact ⟨s, by simp [swBytes, receivedBytes], .refl c h.returns, by simp [sampledEnv]⟩
  | cons b bs ih =>
    intro s last k h ha ht
    have h0 : BitReady c w (s.loadByte c b) := h.of_eq rfl rfl
    have hbits : slotBits c.order (s.loadByte c b).regs.tx 8 (s.loadByte c b).regs.mask = bitsOf c.order b := by
      simp [slotBits_eight]
    obtain ⟨t1, e1, d1, r1, v1, l1⟩ := bitSlots_did ans 8 (s := s.loadByte c b) last k h0 ha (by
      rw [hbits]
      intro hb hm x hx
      refine ht hb hm x ?_
      have : bitsOf c.order b ≠ [] := by intro hn; have := bitsOf_length c.order b; simp [hn] at this
      rw [List.flatMap_cons, List.head?_append_of_ne_nil _ this]
      exact hx)
    rw [hbits] at d1 l1
    have hrx : t1.regs.rx = if w.miso.isSome then receivedByte c.order ans k else 0#8 := by
      rw [r1]; simp [rxAfter_eight]
    have d1' : Did c s (t1.advance 1) (streamEvents c w ans last k (bitsOf c.order b)) :=
      ⟨d1.trace, d1.pins, d1.dirs, d1.handle, d1.pending, d1.returns⟩
    obtain ⟨t2, e2, d2, v2⟩ := ih (s := t1.advance 1) ((bitsOf c.order b).getLast?.or last) (k + 8) (h.kept d1')
      (by
        intro hm j
        simp only [advance_env, v1, sampledEnv, hm, if_true, levelAt_dropLevels, loadByte_env, ha hm]
        congr 1; omega)
      (by
        intro hb hm x _
        obtain ⟨l, hl⟩ : ∃ l, (bitsOf c.order b).getLast? = some l := by
          cases hg : (bitsOf c.order b).getLast? with
          | none => rw [List.getLast?_eq_none_iff] at hg; have := bitsOf_length c.order b; simp [hg] at this
          | some l => exact ⟨l, rfl⟩
        have := l1 hb hm l hl
        rw [hl, advance_regs, this]
        simp [eq_comm])
    refine ⟨t2, ?_, ?_, ?_⟩
    · simp only [swBytes, swByte, e1, andThen_next, e2, receivedBytes_cons, hrx]
      cases hm : w.miso.isSome <;> simp
    · rw [List.flatMap_cons, streamEvents_append, bitsOf_length]
      exact d1'.trans d2
    · rw [v2, advance_env, v1]
      unfold sampledEnv
      split
      · rw [dropLevels_dropLevels, loadByte_env, List.length_cons]
        congr 1; omega
      · rfl

/-! The engine. -/

/-- What one engine invocation does (R140, R143, R146). -/
theorem engine_did {c : Cfg} {s : State} (hb : BusReady c s.pins) (hr : s.env.stall = none) (bs : List Byte) :
    ∃ t, engine c bs s = .next (engineBytes c bs s.env, t) ∧ Did c s t (engineEvents c bs s.env) ∧
      t.env = engineEnv c bs s.env := by
  cases bs with
  | nil =>
    refine ⟨s, ?_, ?_, ?_⟩
    · unfold engine engineBytes
      cases c.bus <;> simp [Env.bytes]
    · have : engineEvents c [] s.env = [] := by unfold engineEvents; cases c.bus <;> simp [streamEvents]
      rw [this]; exact .refl c hr
    · unfold engineEnv
      cases c.bus <;> simp
  | cons b bs =>
    cases hc : c.bus with
    | hardware p =>
      refine ⟨(((s.atCall (.periphTransfer (b :: bs))).setEnv (s.env.dropBytes (b :: bs).length)).emit
        (.transfer (b :: bs) (s.env.bytes (b :: bs).length))).advance (b :: bs).length,
        by simp only [engine, hc, hwTransfer, periphTransfer_returns _ hr, andThen_next, engineBytes], ?_, ?_⟩
      · simp only [engineEvents, hc, if_neg (List.cons_ne_nil b bs)]
        exact ⟨by simp, by simp [replay, replayEvent], fun _ => rfl, rfl, rfl, hr⟩
      · simp [engineEnv, hc]
    | software w =>
      obtain ⟨t, e, d, v⟩ := swBytes_did (c := c) (w := w) s.env.levelAt (b :: bs)
        (s := s.setRegs { s.regs with lastMosi := !maskedBit b (startMask c.order) }) none 0
        ⟨hc, hb, hr⟩ (by simp)
        (by
          intro _ _ x hx
          have hx' : x = maskedBit b (startMask c.order) := by
            rw [List.flatMap_cons, ← slotBits_eight] at hx
            simpa [slotBits, eq_comm] using hx
          simp [hx'])
      refine ⟨t.forgetRegs, ?_, ?_, ?_⟩
      · simp only [engine, hc, swTransfer, e, andThen_next, engineBytes, receivedBytes]
        simp
      · simp only [engineEvents, hc]
        exact ⟨d.trace, d.pins, d.dirs, d.handle, d.pending, d.returns⟩
      · simp only [forgetRegs_env, v, engineEnv, hc, sampledEnv, setRegs_env]

theorem xferByte_did {c : Cfg} {s : State} (hb : BusReady c s.pins) (hr : s.env.stall = none) (b : Byte) :
    ∃ t, xferByte c b s = .next ((engineBytes c [b] s.env).headD b, t) ∧ Did c s t (engineEvents c [b] s.env) ∧
      t.env = engineEnv c [b] s.env := by
  obtain ⟨t, e, d, v⟩ := engine_did hb hr [b]
  exact ⟨t, by simp only [xferByte, e, andThen_next], d, v⟩

theorem engineBytes_length (c : Cfg) (bs : List Byte) (e : Env) : (engineBytes c bs e).length = bs.length := by
  unfold engineBytes
  cases c.bus with
  | hardware p => simp
  | software w => simp only; split <;> simp

theorem engineBytes_single (c : Cfg) (b : Byte) (e : Env) :
    engineBytes c [b] e = [(engineBytes c [b] e).headD b] := by
  have h := engineBytes_length c [b] e
  match hx : engineBytes c [b] e, h with
  | [x], _ => rfl

end Sys2Proof.Machine
end

