-- ==== Sys2Proof/Laws/Framer.lean ====
section
/-! SUPPORT. What the frame and the byte-by-byte loop do, in closed form, and what that leaves unchanged. -/

namespace Sys2Proof.Machine

/-! One `XferByte` for each byte. -/

theorem engineEnv_append (c : Cfg) (xs ys : List Byte) (e : Env) :
    engineEnv c ys (engineEnv c xs e) = engineEnv c (xs ++ ys) e := by
  unfold engineEnv
  cases c.bus with
  | hardware p => simp [dropBytes_dropBytes]
  | software w =>
    dsimp only
    split
    · rw [dropLevels_dropLevels, List.length_append]
      congr 1; omega
    · rfl

theorem engineEnv_cons (c : Cfg) (b : Byte) (bs : List Byte) (e : Env) :
    engineEnv c bs (engineEnv c [b] e) = engineEnv c (b :: bs) e := engineEnv_append c [b] bs e

theorem xferAll_did {c : Cfg} (bs : List Byte) : ∀ {s : State}, BusReady c s.pins → s.env.stall = none →
    ∃ t, xferAll c bs s = .next (xferBytes c bs s.env, t) ∧ Did c s t (xferEvents c bs s.env) ∧
      t.env = engineEnv c bs s.env := by
  induction bs with
  | nil =>
    intro s _ hr
    refine ⟨s, rfl, .refl c hr, ?_⟩
    unfold engineEnv; cases c.bus <;> simp
  | cons b bs ih =>
    intro s hb hr
    obtain ⟨t1, e1, d1, v1⟩ := xferByte_did hb hr b
    obtain ⟨t2, e2, d2, v2⟩ := ih (hb.kept d1.dirs) d1.returns
    refine ⟨t2, ?_, ?_, ?_⟩
    · simp only [xferAll, e1, andThen_next, e2, v1, xferBytes]
      rw [engineBytes_single c b s.env]
      rfl
    · rw [v1] at d2
      exact d1.trans d2
    · rw [v2, v1, engineEnv_cons]

theorem xferBytes_append (c : Cfg) (xs ys : List Byte) : ∀ e : Env,
    xferBytes c (xs ++ ys) e = xferBytes c xs e ++ xferBytes c ys (engineEnv c xs e) := by
  induction xs with
  | nil =>
    intro e
    have : engineEnv c [] e = e := by unfold engineEnv; cases c.bus <;> simp
    simp [xferBytes, this]
  | cons x xs ih => intro e; simp [xferBytes, ih, engineEnv_cons]

theorem xferEvents_append (c : Cfg) (xs ys : List Byte) : ∀ e : Env,
    xferEvents c (xs ++ ys) e = xferEvents c xs e ++ xferEvents c ys (engineEnv c xs e) := by
  induction xs with
  | nil =>
    intro e
    have : engineEnv c [] e = e := by unfold engineEnv; cases c.bus <;> simp
    simp [xferEvents, this]
  | cons x xs ih => intro e; simp [xferEvents, ih, engineEnv_cons]

theorem xferBytes_length (c : Cfg) (bs : List Byte) : ∀ e : Env, (xferBytes c bs e).length = bs.length := by
  induction bs with
  | nil => intro e; rfl
  | cons b bs ih => intro e; simp [xferBytes, ih, engineBytes_length]; omega

/-! The frame. -/

theorem csControl_live {s : State} {h : Handle} (hs : s.handle = some h) : s.csControl = h.csControlEnabled := by
  unfold State.csControl; rw [hs]

theorem driveCs_did {s : State} {h : Handle} (hs : s.handle = some h) (hc : CsReady h s.pins)
    (hr : s.env.stall = none) (v : Level) :
    ∃ t, driveCs h.cfg v s = .next t ∧ Did h.cfg s t (csEvents h.csControlEnabled v) ∧ t.env = s.env := by
  unfold driveCs csEvents
  rw [csControl_live hs]
  split
  · next hon =>
    obtain ⟨t, e, d, _, v⟩ := pinWrite_did (c := h.cfg) (r := .cs) rfl hr (hc hon) v
    exact ⟨t, e, d, v⟩
  · exact ⟨s, rfl, .refl _ hr, rfl⟩

theorem CsReady.kept {h : Handle} {m m' : Pins} (hd : DirsKept m m') (hc : CsReady h m) : CsReady h m' :=
  fun hon => (hd _).trans (hc hon)

theorem selected_did {α : Type} {h : Handle} {s : State} {body : State → Res (α × State)} {a : α} {es : List Event}
    {e : Env} (hs : s.handle = some h) (hb : BusReady h.cfg s.pins) (hc : CsReady h s.pins) (hr : s.env.stall = none)
    (hbody : ∀ u, BusReady h.cfg u.pins → u.env = s.env →
      ∃ t, body u = .next (a, t) ∧ Did h.cfg u t es ∧ t.env = e) :
    ∃ t, selected h.cfg body s = .next (a, t) ∧ Did h.cfg s t (selectedEvents h.csControlEnabled es) ∧ t.env = e := by
  obtain ⟨t1, e1, d1, v1⟩ := driveCs_did (s := s.atPhase .csLow) hs hc hr false
  obtain ⟨t2, e2, d2, v2⟩ := hbody (t1.atPhase .transfers) (hb.kept d1.dirs) v1
  have d2' : Did h.cfg t1 t2 es := ⟨d2.trace, d2.pins, d2.dirs, d2.handle, d2.pending, d2.returns⟩
  have d12 := d1.trans d2'
  obtain ⟨t3, e3, d3, v3⟩ := driveCs_did (s := t2.atPhase .csHigh) (h := h)
    (by simp [d12.handle, hs]) (hc.kept d12.dirs) d12.returns true
  have d3' : Did h.cfg t2 t3 (csEvents h.csControlEnabled true) :=
    ⟨d3.trace, d3.pins, d3.dirs, d3.handle, d3.pending, d3.returns⟩
  have d := d12.trans d3'
  refine ⟨t3, by simp only [selected, e1, e2, e3, andThen_next], ?_, v3.trans v2⟩
  exact ⟨d.trace, d.pins, d.dirs, d.handle, d.pending, d.returns⟩

theorem frame_did {α : Type} {h : Handle} {s : State} {body : State → Res (α × State)} {a : α} {es : List Event}
    {e : Env} (hs : s.handle = some h) (hb : BusReady h.cfg s.pins) (hc : CsReady h s.pins) (hr : s.env.stall = none)
    (hbody : ∀ u, BusReady h.cfg u.pins → u.env = s.env →
      ∃ t, body u = .next (a, t) ∧ Did h.cfg u t es ∧ t.env = e) :
    ∃ t, frame h.cfg body s = .next (a, t) ∧ Did h.cfg s t (frameEvents h.cfg h.csControlEnabled es) ∧ t.env = e := by
  cases hbus : h.cfg.bus with
  | software w =>
    obtain ⟨t, e1, d, v⟩ := selected_did (s := s.atPhase .beginTransaction) hs hb hc hr hbody
    refine ⟨t.atPhase .endTransaction, ?_, ?_, v⟩
    · simp only [frame, beginSession, hbus, andThen_next, e1, endSession]
    · simp only [frameEvents, hbus]
      exact ⟨d.trace, d.pins, d.dirs, d.handle, d.pending, d.returns⟩
  | hardware p =>
    have e0 := periphBeginTransaction_returns h.cfg (s := s.atPhase .beginTransaction) hr
    generalize hu : (((s.atPhase .beginTransaction).atCall (.periphBeginTransaction h.cfg.freq h.cfg.order
      h.cfg.dataMode)).emit (.beginSession h.cfg.freq h.cfg.order h.cfg.dataMode)) = u at e0
    have d0 : Did h.cfg s u [.beginSession h.cfg.freq h.cfg.order h.cfg.dataMode] := by
      rw [← hu]; exact ⟨by simp, by simp [replay, replayEvent], fun _ => rfl, rfl, rfl, hr⟩
    have v0 : u.env = s.env := by rw [← hu]; rfl
    obtain ⟨t, e1, d, v⟩ := selected_did (s := u) (h := h) (es := es) (e := e) (a := a) (body := body)
      (by rw [d0.handle, hs]) (hb.kept d0.dirs) (hc.kept d0.dirs) d0.returns (by rw [v0]; exact hbody)
    have e2 := periphEndTransaction_returns (s := t.atPhase .endTransaction) d.returns
    have d2 : Did h.cfg t (((t.atPhase .endTransaction).atCall .periphEndTransaction).emit .endSession) [.endSession] :=
      ⟨by simp, by simp [replay, replayEvent], fun _ => rfl, rfl, rfl, d.returns⟩
    refine ⟨((t.atPhase .endTransaction).atCall .periphEndTransaction).emit .endSession, ?_, ?_, v⟩
    · simp only [frame, beginSession, hbus, e0, andThen_next, e1, endSession, e2]
    · have := (d0.trans d).trans d2
      simpa only [frameEvents, hbus] using this

/-! What is left unchanged. -/

/-- Pins the events do not write are as before. -/
theorem replay_kept {c : Cfg} {l : List Pin} (es : List Event) :
    ∀ (m : Pins), (∀ e ∈ es, ∀ r, (∃ v, e = .write r v) ∨ (∃ d, e = .mode r d) → ∀ p ∈ c.pinOf r, p ∈ l) →
      PinsKept l m (replay c m es) := by
  induction es with
  | nil => intro m _ p _; rfl
  | cons e es ih =>
    intro m h p hp
    have h1 := ih (replayEvent c m e) (fun e' he' => h e' (List.mem_cons_of_mem _ he')) p hp
    have h2 : pinGet (replayEvent c m e) p = pinGet m p := by
      cases e with
      | write r v =>
        cases hr : c.pinOf r with
        | none => simp [replayEvent, hr]
        | some q =>
          have hq := h _ List.mem_cons_self r (.inl ⟨v, rfl⟩) q hr
          simp only [replayEvent, hr]
          exact pinGet_pinPut_other (fun h' => hp (by rw [← h']; exact hq)) _ _
      | mode r d =>
        cases hr : c.pinOf r with
        | none => simp [replayEvent, hr]
        | some q =>
          have hq := h _ List.mem_cons_self r (.inr ⟨d, rfl⟩) q hr
          simp only [replayEvent, hr]
          exact pinGet_pinPut_other (fun h' => hp (by rw [← h']; exact hq)) _ _
      | _ => rfl
    exact h1.trans h2

/-- The events of an invocation write nothing but clock and data-out. -/
def EngineWrites (e : Event) : Prop :=
  match e with
  | .write .clk _ | .write .mosi _ | .read .miso _ | .delay _ | .transfer _ _ => True
  | _ => False

theorem slotEvents_writes {c : Cfg} {w : SwPins} {ch : Bool} {b v : Level} :
    ∀ e ∈ slotEvents c w ch b v, EngineWrites e := by
  unfold slotEvents waitEvents driveEvents sampleEvents
  intro e he
  split at he <;> simp only [List.mem_append, List.mem_singleton] at he <;>
    (repeat' (rcases he with he | he)) <;> (try split at he) <;> simp_all [EngineWrites]

theorem streamEvents_writes {c : Cfg} {w : SwPins} {ans : Nat → Level} (bits : List Level) :
    ∀ (last : Option Level) (k : Nat), ∀ e ∈ streamEvents c w ans last k bits, EngineWrites e := by
  induction bits with
  | nil => intro _ _ e he; simp [streamEvents] at he
  | cons b bits ih =>
    intro last k e he
    simp only [streamEvents, List.mem_append] at he
    rcases he with he | he
    · exact slotEvents_writes e he
    · exact ih _ _ e he

theorem engineEvents_writes {c : Cfg} {bs : List Byte} {e : Env} : ∀ x ∈ engineEvents c bs e, EngineWrites x := by
  unfold engineEvents
  cases c.bus with
  | hardware p =>
    intro x hx
    dsimp only at hx
    split at hx
    · simp at hx
    · simp only [List.mem_singleton] at hx; subst hx; trivial
  | software w => exact streamEvents_writes _ _ _

theorem xferEvents_writes {c : Cfg} (bs : List Byte) : ∀ (e : Env), ∀ x ∈ xferEvents c bs e, EngineWrites x := by
  induction bs with
  | nil => intro e x hx; simp [xferEvents] at hx
  | cons b bs ih =>
    intro e x hx
    simp only [xferEvents, List.mem_append] at hx
    rcases hx with hx | hx
    · exact engineEvents_writes x hx
    · exact ih _ x hx

theorem EngineWrites.pins {c : Cfg} {e : Event} (h : EngineWrites e) (r : Role)
    (he : (∃ v, e = .write r v) ∨ (∃ d, e = .mode r d)) : ∀ p ∈ c.pinOf r, p ∈ enginePins c := by
  intro p hp
  rcases he with ⟨v, rfl⟩ | ⟨d, rfl⟩
  · cases r with
    | clk => unfold Cfg.pinOf at hp; unfold enginePins; cases hb : c.bus <;> simp_all
    | mosi => unfold Cfg.pinOf at hp; unfold enginePins; cases hb : c.bus <;> simp_all
    | cs => exact absurd h (by simp [EngineWrites])
    | miso => exact absurd h (by simp [EngineWrites])
  · exact absurd h (by simp [EngineWrites])

theorem engine_kept {c : Cfg} {es : List Event} (h : ∀ e ∈ es, EngineWrites e) (m : Pins) :
    PinsKept (enginePins c) m (replay c m es) :=
  replay_kept es m fun e he r hr => (h e he).pins r hr

theorem selected_kept {h : Handle} {es : List Event} (he : ∀ e ∈ es, EngineWrites e) (m : Pins) :
    PinsKept (framePins h) m (replay h.cfg m (selectedEvents h.csControlEnabled es)) := by
  refine replay_kept _ m ?_
  unfold selectedEvents csEvents framePins
  intro x hx r hr p hp
  by_cases hon : h.csControlEnabled = true
  · simp only [hon, if_true] at hx ⊢
    simp only [List.mem_append, List.mem_singleton] at hx
    rcases hx with (rfl | hx) | rfl
    · rcases hr with ⟨v, hv⟩ | ⟨d, hv⟩ <;> cases hv; simp [Cfg.pinOf] at hp; simp [hp]
    · exact List.mem_cons_of_mem _ ((he x hx).pins r hr p hp)
    · rcases hr with ⟨v, hv⟩ | ⟨d, hv⟩ <;> cases hv; simp [Cfg.pinOf] at hp; simp [hp]
  · simp only [hon, Bool.false_eq_true, if_false, List.nil_append, List.append_nil] at hx ⊢
    exact (he x hx).pins r hr p hp

theorem frame_kept {h : Handle} {es : List Event} (he : ∀ e ∈ es, EngineWrites e) (m : Pins) :
    PinsKept (framePins h) m (replay h.cfg m (frameEvents h.cfg h.csControlEnabled es)) := by
  unfold frameEvents
  cases h.cfg.bus with
  | software w => exact selected_kept he m
  | hardware p =>
    simp only [replay_append]
    exact selected_kept he m

/-! From a part to the operation. -/

/-- A body that did its events and left the listed pins is, between operations, a move of bytes. -/
theorem Did.moved {c : Cfg} {s u : State} {es : List Event} {l : List Pin} {op : Instr} (d : Did c (s.start op) u es)
    (hk : PinsKept l s.pins (replay c s.pins es)) (r : Ret) : Moved s (u.finish r) es u.env l :=
  ⟨d.trace, rfl, by rw [finish_pins, d.pins]; exact hk, d.dirs, d.handle, d.pending, rfl⟩

end Sys2Proof.Machine
end

