-- ==== Sys2Proof/Laws/PerInstr.lean ====
section
/-! SUPPORT. One family of laws with a lemma for each operation: `Length`, the length that the fixed part of a descriptor gives is
the length of what the encoder writes (30_encoding.md R82, R83). -/

namespace Sys2Proof.Laws.Length

/-- Whatever follows it, the descriptor of a well-formed operation says how long it is. -/
def Statement (i : Instr) : Prop :=
  i.wf = true → ∀ rest : List Byte, descriptorLength (encode i ++ rest) = (encode i).length

/-- A well-formed inline buffer has its own length, which fits its field. -/
theorem srcBuf_wf {b : SrcBuf} (h : b.wf = true) : b.inline.length = b.len ∧ b.len < 65536 := by
  obtain ⟨bytes, len⟩ := b
  cases bytes with
  | none => cases h
  | some bs =>
    simp only [SrcBuf.wf, Bool.and_eq_true, decide_eq_true_eq] at h
    exact ⟨h.1.symm, h.2⟩

theorem constructHw (cs : Option Pin) (freq : Nat) (order : BitOrder) (mode : Nat) (periph : PeriphRef) :
    Statement (.constructHw cs freq order mode periph) := fun _ _ => rfl

theorem constructSw (cs : Option Pin) (clk : Pin) (miso mosi : Option Pin) (freq : Nat) (order : BitOrder) (mode : Nat) :
    Statement (.constructSw cs clk miso mosi freq order mode) := fun _ _ => rfl

theorem beginInit : Statement .beginInit := fun _ _ => rfl
theorem endRelease : Statement .endRelease := fun _ _ => rfl
theorem beginTransaction : Statement .beginTransaction := fun _ _ => rfl
theorem endTransaction : Statement .endTransaction := fun _ _ => rfl
theorem disableCsToggle : Statement .disableCsToggle := fun _ _ => rfl
theorem enableCsToggle : Statement .enableCsToggle := fun _ _ => rfl

theorem write (buffer lead : SrcBuf) (invert : Bool) : Statement (.write buffer lead invert) := by
  intro h rest
  simp only [Instr.wf, Bool.and_eq_true] at h
  obtain ⟨hb, hbl⟩ := srcBuf_wf h.1
  obtain ⟨hp, hpl⟩ := srcBuf_wf h.2
  have e : descriptorLength (encode (.write buffer lead invert) ++ rest) =
      6 + u16 (BitVec.ofNat 8 lead.len) (BitVec.ofNat 8 (lead.len / 256))
        + u16 (BitVec.ofNat 8 buffer.len) (BitVec.ofNat 8 (buffer.len / 256)) := rfl
  rw [e, u16_le16 hpl, u16_le16 hbl]
  simp only [encode, Instr.operandBytes, List.length_cons, List.length_append, le16_length, List.length_nil, hb, hp]
  omega

theorem read (buffer : DstBuf) (fill : Byte) : Statement (.read buffer fill) := fun _ _ => rfl

theorem writeThenRead (source : SrcBuf) (buffer : DstBuf) (fill : Byte) :
    Statement (.writeThenRead source buffer fill) := by
  intro h rest
  simp only [Instr.wf, Bool.and_eq_true] at h
  obtain ⟨hb, hbl⟩ := srcBuf_wf h.1
  have e : descriptorLength (encode (.writeThenRead source buffer fill) ++ rest) =
      6 + u16 (BitVec.ofNat 8 source.len) (BitVec.ofNat 8 (source.len / 256)) := rfl
  rw [e, u16_le16 hbl]
  simp only [encode, Instr.operandBytes, List.length_cons, List.length_append, le16_length, List.length_nil, hb]
  omega

theorem repeated (value : Byte) (times : Nat) (lead : SrcBuf) : Statement (.repeated value times lead) := by
  intro h rest
  simp only [Instr.wf, Bool.and_eq_true] at h
  obtain ⟨hb, hbl⟩ := srcBuf_wf h.2
  have e : descriptorLength (encode (.repeated value times lead) ++ rest) =
      6 + u16 (BitVec.ofNat 8 lead.len) (BitVec.ofNat 8 (lead.len / 256)) := rfl
  rw [e, u16_le16 hbl]
  simp only [encode, Instr.operandBytes, List.length_cons, List.length_append, le16_length, List.length_nil, hb]
  omega

theorem transfer (buffer : SrcBuf) : Statement (.transfer buffer) := by
  intro h rest
  obtain ⟨hb, hbl⟩ := srcBuf_wf h
  have e : descriptorLength (encode (.transfer buffer) ++ rest) =
      3 + u16 (BitVec.ofNat 8 buffer.len) (BitVec.ofNat 8 (buffer.len / 256)) := rfl
  rw [e, u16_le16 hbl]
  simp only [encode, Instr.operandBytes, List.length_cons, List.length_append, le16_length, hb]
  omega

theorem transferByte (byte : Byte) : Statement (.transferByte byte) := fun _ _ => rfl
theorem writeAndRead (byte : Byte) : Statement (.writeAndRead byte) := fun _ _ => rfl
theorem destroy : Statement .destroy := fun _ _ => rfl

end Sys2Proof.Laws.Length
end

