-- ==== Sys2Proof/Laws/Run.lean ====
section
/-! SUPPORT. What any part of an operation does, whatever the state: which events it may make, that pins follow the events, and how
it stops. No readiness is assumed here. -/

namespace Sys2Proof.Machine

/-- What a part of an operation left: events `es` more, the pins as the events say, handle, requests and running operation as
before, and PrimitivesReturn exactly if it held before. -/
structure Ext (c : Cfg) (s t : State) (es : List Event) : Prop where
  trace : t.trace = s.trace ++ es
  pins : t.pins = replay c s.pins es
  handle : t.handle = s.handle
  pending : t.pending = s.pending
  op : t.seq.map (·.op) = s.seq.map (·.op)
  returns : t.env.stall = none ↔ s.env.stall = none

theorem Ext.refl (c : Cfg) (s : State) : Ext c s s [] := ⟨by simp, rfl, rfl, rfl, rfl, Iff.rfl⟩

theorem Ext.trans {c : Cfg} {s t u : State} {es es' : List Event} (h : Ext c s t es) (h' : Ext c t u es') :
    Ext c s u (es ++ es') :=
  ⟨by rw [h'.trace, h.trace, List.append_assoc], by rw [h'.pins, h.pins, replay_append], h'.handle.trans h.handle,
    h'.pending.trans h.pending, h'.op.trans h.op, h'.returns.trans h.returns⟩

/-- Registers, the free-value counter, the position inside the operation and the answers to come are none of `Ext`'s business. -/
theorem Ext.silent {c : Cfg} {s t : State} (h1 : t.trace = s.trace) (h2 : t.pins = s.pins) (h3 : t.handle = s.handle)
    (h4 : t.pending = s.pending) (h5 : t.seq.map (·.op) = s.seq.map (·.op)) (h6 : t.env.stall = s.env.stall) :
    Ext c s t [] := ⟨by simp [h1], by simp [h2], h3, h4, h5, by rw [h6]⟩

/-- What a part of an operation may do: answer, after events of the kind `P`; hang at a primitive call, after such events; or be
refused for a pin. `st` is the state in the answer. -/
def Ran (c : Cfg) (P : Event → Prop) {α : Type} (st : α → State) (s : State) (x : Res α) : Prop :=
  match x with
  | .next a => ∃ es, Ext c s (st a) es ∧ ∀ e ∈ es, P e
  | .fault (.neverReturns u) =>
    ∃ es, Ext c s u es ∧ (∀ e ∈ es, P e) ∧ u.env.stall = some 0 ∧
      (s.seq.isSome = true → ∃ q, u.seq = some q ∧ q.call.isSome = true)
  | .refused r => r = .pinNotConfigured

theorem Ran.mono {c : Cfg} {P Q : Event → Prop} {α : Type} {st : α → State} {s : State} {x : Res α}
    (hPQ : ∀ e, P e → Q e) (h : Ran c P st s x) : Ran c Q st s x := by
  cases x with
  | next a => obtain ⟨es, he, hp⟩ := h; exact ⟨es, he, fun e h => hPQ e (hp e h)⟩
  | fault r =>
    cases r
    obtain ⟨es, he, hp, h⟩ := h; exact ⟨es, he, fun e h => hPQ e (hp e h), h⟩
  | refused r => exact h

theorem Ran.next {c : Cfg} {P : Event → Prop} {α : Type} {st : α → State} {s : State} {a : α}
    (h : Ext c s (st a) []) : Ran c P st s (.next a) := ⟨[], h, by simp⟩

/-- Parts of an operation in sequence. -/
theorem Ran.andThen {c : Cfg} {P : Event → Prop} {α β : Type} {st : α → State} {st' : β → State} {s : State} {x : Res α}
    {f : α → Res β} (hx : Ran c P st s x) (hf : ∀ a es, Ext c s (st a) es → Ran c P st' (st a) (f a)) :
    Ran c P st' s (andThen x f) := by
  cases x with
  | refused r => exact hx
  | fault r => cases r; exact hx
  | next a =>
    obtain ⟨es, he, hp⟩ := hx
    have h2 := hf a es he
    rw [andThen_next]
    have hmem : ∀ es', (∀ e ∈ es', P e) → ∀ e ∈ es ++ es', P e := by
      intro es' hp' e h
      rcases List.mem_append.mp h with h | h
      · exact hp e h
      · exact hp' e h
    cases hfa : f a with
    | refused r => rw [hfa] at h2; exact h2
    | next b =>
      rw [hfa] at h2
      obtain ⟨es', he', hp'⟩ := h2
      exact ⟨es ++ es', he.trans he', hmem es' hp'⟩
    | fault r =>
      rw [hfa] at h2
      cases r
      obtain ⟨es', he', hp', hs, hq⟩ := h2
      refine ⟨es ++ es', he.trans he', hmem es' hp', hs, fun hsq => hq ?_⟩
      have := congrArg Option.isSome he.op
      simpa [hsq] using this

/-- A part that starts from a silently changed state. -/
theorem Ran.from_silent {c : Cfg} {P : Event → Prop} {α : Type} {st : α → State} {s s' : State} {x : Res α}
    (h : Ext c s s' []) (hx : Ran c P st s' x) : Ran c P st s x := by
  cases x with
  | refused r => exact hx
  | next a =>
    obtain ⟨es, he, hp⟩ := hx
    exact ⟨es, by simpa using h.trans he, hp⟩
  | fault r =>
    cases r
    obtain ⟨es, he, hp, hs, hq⟩ := hx
    refine ⟨es, by simpa using h.trans he, hp, hs, fun hsq => hq ?_⟩
    have := congrArg Option.isSome h.op
    simpa [hsq] using this

/-! Primitives. -/

/-- A primitive that makes one event. -/
theorem callPrim_ran {c : Cfg} {P : Event → Prop} {α : Type} {st : α → State} {s : State} (p : Prim)
    (f : State → Res α)
    (hf : ∀ n, (s.env.stall = none ↔ n = none) →
      Ran c P st ((s.atCall p).setEnv { s.env with stall := n }) (f ((s.atCall p).setEnv { s.env with stall := n }))) :
    Ran c P st s (Machine.andThen (callPrim p s) f) := by
  have hop : (s.atCall p).seq.map (·.op) = s.seq.map (·.op) := by
    simp [State.atCall, State.setSeq, Option.map_map, Function.comp_def]
  rcases callPrim_cases p s with ⟨n, hn, hs⟩ | ⟨hn, hs⟩
  · rw [hn, andThen_next]
    have h := hf n hs
    have he : Ext c s ((s.atCall p).setEnv { s.env with stall := n }) [] :=
      ⟨by simp, rfl, rfl, rfl, hop, hs.symm⟩
    exact Ran.from_silent he h
  · rw [hn, andThen_fault]
    refine ⟨[], ⟨by simp, rfl, rfl, rfl, hop, Iff.rfl⟩, by simp, hs, ?_⟩
    intro hq
    obtain ⟨q, hq⟩ := Option.isSome_iff_exists.mp hq
    exact ⟨{ q with call := some p }, by simp [State.atCall, State.setSeq, hq], rfl⟩

theorem Ran.event {c : Cfg} {P : Event → Prop} {α : Type} {st : α → State} {s : State} {a : α} {e : Event}
    (h : Ext c s (st a) [e]) (he : P e) : Ran c P st s (.next a) := ⟨[e], h, by simpa using he⟩

theorem pinWrite_ran {c : Cfg} {P : Event → Prop} {r : Role} {p : Pin} {v : Level} {s : State}
    (hp : c.pinOf r = some p) (he : P (.write r v)) : Ran c P id s (pinWrite r p v s) := by
  unfold pinWrite
  split
  · refine callPrim_ran _ _ fun n _ => Ran.event ⟨rfl, ?_, rfl, rfl, rfl, Iff.rfl⟩ he
    simp [replay, replayEvent, hp, pin_eq]
  · rfl

theorem pinMode_ran {c : Cfg} {P : Event → Prop} {r : Role} {p : Pin} {d : Dir} {s : State}
    (hp : c.pinOf r = some p) (he : P (.mode r d)) : Ran c P id s (pinMode r p d s) := by
  unfold pinMode
  refine callPrim_ran _ _ fun n _ => Ran.event ⟨rfl, ?_, rfl, rfl, rfl, Iff.rfl⟩ he
  simp [replay, replayEvent, hp, pin_eq]

theorem pinRead_ran {c : Cfg} {P : Event → Prop} {r : Role} {p : Pin} {s : State}
    (he : ∀ v, P (.read r v)) : Ran c P Prod.snd s (pinRead r p s) := by
  unfold pinRead
  split
  · exact callPrim_ran _ _ fun n _ => Ran.event (e := .read r _)
      ⟨rfl, by simp [replay, replayEvent], rfl, rfl, rfl, Iff.rfl⟩ (he _)
  · rfl

theorem emit_ran {c : Cfg} {P : Event → Prop} {s : State} {p : Prim} {e : Event} (hr : ∀ m, replayEvent c m e = m)
    (he : P e) : Ran c P id s (Machine.andThen (callPrim p s) fun s => .next (s.emit e)) :=
  callPrim_ran _ _ fun n _ => Ran.event ⟨rfl, by simp [replay, hr], rfl, rfl, rfl, Iff.rfl⟩ he

/-! The engine. -/

/-- The events an engine invocation may make (41_transfer_engine.md R142, R147, R160). -/
def EngineEvent (c : Cfg) (e : Event) : Prop :=
  match c.bus with
  | .hardware _ => ∃ s r, e = .transfer s r ∧ r.length = s.length
  | .software w =>
    (∃ v, e = .write .clk v) ∨ (∃ v, e = .write .mosi v ∧ w.mosi.isSome) ∨ (∃ v, e = .read .miso v ∧ w.miso.isSome) ∨
      (e = .delay c.halfPeriod ∧ c.halfPeriod ≠ 0)

theorem waitHalf_ran {c : Cfg} {w : SwPins} (hb : c.bus = .software w) {s : State} :
    Ran c (EngineEvent c) id s (waitHalf c s) := by
  unfold waitHalf
  split
  · next h =>
    refine emit_ran (fun _ => rfl) ?_
    unfold EngineEvent; rw [hb]
    exact .inr (.inr (.inr ⟨rfl, by omega⟩))
  · exact Ran.next (Ext.refl c s)

theorem clkWrite_ran {c : Cfg} {w : SwPins} (hb : c.bus = .software w) {v : Level} {s : State} :
    Ran c (EngineEvent c) id s (pinWrite .clk w.clk v s) := by
  refine pinWrite_ran (by simp [Cfg.pinOf, hb]) ?_
  unfold EngineEvent; rw [hb]
  exact .inl ⟨v, rfl⟩

theorem mosiWrite_ran {c : Cfg} {w : SwPins} (hb : c.bus = .software w) {p : Pin} (hm : w.mosi = some p) {v : Level}
    {s : State} : Ran c (EngineEvent c) id s (pinWrite .mosi p v s) := by
  refine pinWrite_ran (by simp [Cfg.pinOf, hb, hm]) ?_
  unfold EngineEvent; rw [hb]
  exact .inr (.inl ⟨v, rfl, by simp [hm]⟩)

theorem driveIfChanged_ran {c : Cfg} {w : SwPins} (hb : c.bus = .software w) {bit : Level} {s : State} :
    Ran c (EngineEvent c) id s (driveIfChanged w bit s) := by
  unfold driveIfChanged
  split
  · exact Ran.next (Ext.refl c s)
  · next p hm =>
    split
    · exact Ran.next (Ext.refl c s)
    · refine (mosiWrite_ran hb hm).andThen fun t es _ => Ran.next (Ext.silent rfl rfl rfl rfl rfl rfl)

theorem driveAlways_ran {c : Cfg} {w : SwPins} (hb : c.bus = .software w) {bit : Level} {s : State} :
    Ran c (EngineEvent c) id s (driveAlways w bit s) := by
  unfold driveAlways
  split
  · exact Ran.next (Ext.refl c s)
  · next p hm => exact mosiWrite_ran hb hm

theorem sample_ran {c : Cfg} {w : SwPins} (hb : c.bus = .software w) {s : State} :
    Ran c (EngineEvent c) id s (sample w s) := by
  unfold sample
  split
  · exact Ran.next (Ext.refl c s)
  · next p hm =>
    refine Ran.andThen (pinRead_ran ?_) fun r es _ => ?_
    · intro v; unfold EngineEvent; rw [hb]; exact .inr (.inr (.inl ⟨v, rfl, by simp [hm]⟩))
    · cases r.1 <;> exact Ran.next (Ext.silent rfl rfl rfl rfl rfl rfl)

theorem bitSlot_ran {c : Cfg} {w : SwPins} (hb : c.bus = .software w) {s : State} :
    Ran c (EngineEvent c) id s (bitSlot c w s) := by
  unfold bitSlot
  refine (waitHalf_ran hb).andThen fun t es _ => Ran.andThen (st := id) ?_ fun u es _ =>
    Ran.next (Ext.silent rfl rfl rfl rfl rfl rfl)
  split
  · unfold sequenceB
    exact (clkWrite_ran hb).andThen fun _ _ _ => (waitHalf_ran hb).andThen fun _ _ _ =>
      (driveAlways_ran hb).andThen fun _ _ _ => (clkWrite_ran hb).andThen fun _ _ _ => sample_ran hb
  · unfold sequenceA
    exact (driveIfChanged_ran hb).andThen fun _ _ _ => (clkWrite_ran hb).andThen fun _ _ _ =>
      (waitHalf_ran hb).andThen fun _ _ _ => (sample_ran hb).andThen fun _ _ _ => clkWrite_ran hb

theorem bitSlots_ran {c : Cfg} {w : SwPins} (hb : c.bus = .software w) (n : Nat) :
    ∀ {s : State}, Ran c (EngineEvent c) id s (bitSlots c w n s) := by
  induction n with
  | zero => intro s; exact Ran.next (Ext.refl c s)
  | succ n ih => intro s; exact (bitSlot_ran hb).andThen fun t es _ => ih

theorem advance_silent (c : Cfg) (s : State) (n : Nat) : Ext c s (s.advance n) [] :=
  Ext.silent rfl rfl rfl rfl (by simp [State.advance, State.setSeq, Option.map_map, Function.comp_def]) rfl

theorem atPhase_silent (c : Cfg) (s : State) (p : Phase) : Ext c s (s.atPhase p) [] :=
  Ext.silent rfl rfl rfl rfl (by simp [State.atPhase, State.setSeq, Option.map_map, Function.comp_def]) rfl

theorem swBytes_ran {c : Cfg} {w : SwPins} (hb : c.bus = .software w) (bs : List Byte) :
    ∀ {s : State}, Ran c (EngineEvent c) Prod.snd s (swBytes c w bs s) := by
  induction bs with
  | nil => intro s; exact Ran.next (Ext.refl c s)
  | cons b bs ih =>
    intro s
    refine Ran.andThen (st := Prod.snd) ?_ fun r es _ => Ran.andThen ih fun rs es _ => Ran.next (Ext.refl c _)
    refine Ran.andThen (st := id) ?_ fun t es _ => Ran.next (advance_silent c t 1)
    exact Ran.from_silent (s' := s.loadByte c b) (Ext.silent rfl rfl rfl rfl rfl rfl) (bitSlots_ran hb 8)

/-- Whatever the state, an engine invocation makes engine events only, and stops only at a pin or a hang. -/
theorem engine_ran {c : Cfg} (bs : List Byte) {s : State} : Ran c (EngineEvent c) Prod.snd s (engine c bs s) := by
  unfold engine
  cases bs with
  | nil => exact Ran.next (Ext.refl c s)
  | cons b bs =>
    dsimp only
    cases hb : c.bus with
    | hardware p =>
      refine Ran.andThen (st := Prod.snd) ?_ fun r es _ => Ran.next (advance_silent c r.2 _)
      refine callPrim_ran _ _ fun n _ => Ran.event (e := .transfer (b :: bs) _)
        ⟨rfl, by simp [replay, replayEvent], rfl, rfl, rfl, Iff.rfl⟩ ?_
      unfold EngineEvent; rw [hb]
      exact ⟨_, _, rfl, by simp⟩
    | software w =>
      refine Ran.andThen (st := Prod.snd) ?_ fun r es _ => Ran.next (Ext.silent rfl rfl rfl rfl rfl rfl)
      exact Ran.from_silent
        (s' := s.setRegs { s.regs with lastMosi := !maskedBit b (startMask c.order) })
        (Ext.silent rfl rfl rfl rfl rfl rfl) (swBytes_ran hb (b :: bs))

theorem xferByte_ran {c : Cfg} (b : Byte) {s : State} : Ran c (EngineEvent c) Prod.snd s (xferByte c b s) :=
  Ran.andThen (engine_ran [b]) fun r _ _ => Ran.next (Ext.refl c r.2)

theorem xferAll_ran {c : Cfg} (bs : List Byte) : ∀ {s : State}, Ran c (EngineEvent c) Prod.snd s (xferAll c bs s) := by
  induction bs with
  | nil => intro s; exact Ran.next (Ext.refl c s)
  | cons b bs ih =>
    intro s
    exact Ran.andThen (xferByte_ran b) fun r _ _ => Ran.andThen ih fun rs _ _ => Ran.next (Ext.refl c _)

/-! Any operation of a live handle. -/

/-- The events any operation of a live handle may make: chip-select only under its control (10_state.md R31), a
direction only as BEGIN gives it (40_lifecycle_control.md R113), the peripheral only in Hardware mode, clock, data and delays only in Software mode (41_transfer_engine.md R142), delays of the half period (R147). -/
def HandleEvent (h : Handle) (e : Event) : Prop :=
  match e with
  | .write .cs _ | .mode .cs .output => h.csControlEnabled = true
  | .write .clk _ | .mode .clk .output | .write .mosi _ | .mode .mosi .output | .read .miso _ | .mode .miso .input =>
    ∃ w, h.cfg.bus = .software w
  | .delay n => (∃ w, h.cfg.bus = .software w) ∧ n = h.cfg.halfPeriod ∧ n ≠ 0
  | .setup | .release | .beginSession .. | .endSession | .transfer .. => ∃ p, h.cfg.bus = .hardware p
  | .write .miso _ | .read .cs _ | .read .clk _ | .read .mosi _ => False
  | .mode .cs .input | .mode .cs .unconfigured | .mode .clk .input | .mode .clk .unconfigured | .mode .mosi .input
  | .mode .mosi .unconfigured | .mode .miso .output | .mode .miso .unconfigured => False

theorem EngineEvent.handleEvent {h : Handle} {e : Event} (he : EngineEvent h.cfg e) : HandleEvent h e := by
  unfold EngineEvent at he
  cases hb : h.cfg.bus with
  | hardware p =>
    rw [hb] at he
    obtain ⟨s, r, rfl, _⟩ := he
    exact ⟨p, hb⟩
  | software w =>
    rw [hb] at he
    rcases he with ⟨v, rfl⟩ | ⟨v, rfl, _⟩ | ⟨v, rfl, _⟩ | ⟨rfl, hn⟩
    · exact ⟨w, hb⟩
    · exact ⟨w, hb⟩
    · exact ⟨w, hb⟩
    · exact ⟨⟨w, hb⟩, rfl, hn⟩

theorem driveCs_ran {h : Handle} {s : State} (hs : s.handle = some h) (v : Level) :
    Ran h.cfg (HandleEvent h) id s (driveCs h.cfg v s) := by
  unfold driveCs
  rw [csControl_live hs]
  split
  · next hon => exact pinWrite_ran rfl hon
  · exact Ran.next (Ext.refl _ s)

theorem selected_ran {h : Handle} {α : Type} {body : State → Res (α × State)} {s : State} (hs : s.handle = some h)
    (hbody : ∀ u, Ran h.cfg (HandleEvent h) Prod.snd u (body u)) :
    Ran h.cfg (HandleEvent h) Prod.snd s (selected h.cfg body s) := by
  unfold selected
  refine Ran.andThen (st := id) (Ran.from_silent (s' := s.atPhase .csLow) (atPhase_silent _ _ _)
    (driveCs_ran (s := s.atPhase .csLow) hs _)) fun t es ht => ?_
  refine Ran.andThen (st := Prod.snd) (Ran.from_silent (s' := t.atPhase .transfers) (atPhase_silent _ _ _) (hbody _)) fun r es hr => ?_
  refine Ran.andThen (st := id) (Ran.from_silent (s' := r.2.atPhase .csHigh) (atPhase_silent _ _ _) (driveCs_ran (h := h) ?_ _)) fun u es _ =>
    Ran.next (Ext.refl _ _)
  rw [atPhase_handle, hr.handle]
  exact ht.handle.trans hs

theorem frame_ran {h : Handle} {α : Type} {body : State → Res (α × State)} {s : State} (hs : s.handle = some h)
    (hbody : ∀ u, Ran h.cfg (HandleEvent h) Prod.snd u (body u)) :
    Ran h.cfg (HandleEvent h) Prod.snd s (frame h.cfg body s) := by
  unfold frame beginSession endSession
  refine Ran.andThen (st := id) (Ran.from_silent (s' := s.atPhase .beginTransaction) (atPhase_silent _ _ _) ?_) fun t es ht => ?_
  · cases hb : h.cfg.bus with
    | hardware p => exact emit_ran (fun _ => rfl) ⟨p, hb⟩
    | software w => exact Ran.next (Ext.refl _ _)
  refine Ran.andThen (st := Prod.snd) (selected_ran (ht.handle.trans hs) hbody) fun r es hr => ?_
  refine Ran.andThen (st := id) (Ran.from_silent (s' := r.2.atPhase .endTransaction) (atPhase_silent _ _ _) ?_) fun u es _ => Ran.next (Ext.refl _ _)
  cases hb : h.cfg.bus with
  | hardware p => exact emit_ran (fun _ => rfl) ⟨p, hb⟩
  | software w => exact Ran.next (Ext.refl _ _)

theorem beginOutput_ran {h : Handle} {w : SwPins} (hb : h.cfg.bus = .software w) {r : Role} {p : Option Pin} {v : Level}
    {s : State} (hr : r = .clk ∨ r = .mosi) (hp : h.cfg.pinOf r = p) :
    Ran h.cfg (HandleEvent h) id s (beginOutput r p v s) := by
  unfold beginOutput
  split
  · exact Ran.next (Ext.refl _ s)
  · have he : HandleEvent h (.mode r .output) ∧ HandleEvent h (.write r v) := by
      rcases hr with rfl | rfl <;> exact ⟨⟨w, hb⟩, ⟨w, hb⟩⟩
    exact (pinMode_ran hp he.1).andThen fun t es _ => pinWrite_ran hp he.2

theorem beginBus_ran {h : Handle} {s : State} : Ran h.cfg (HandleEvent h) id s (beginBus h.cfg s) := by
  unfold beginBus
  cases hb : h.cfg.bus with
  | hardware p => exact emit_ran (fun _ => rfl) ⟨p, hb⟩
  | software w =>
    refine (beginOutput_ran hb (.inl rfl) (by simp [Cfg.pinOf, hb])).andThen fun t es _ => ?_
    refine (beginOutput_ran hb (.inr rfl) (by simp [Cfg.pinOf, hb])).andThen fun u es _ => ?_
    unfold beginInput
    split
    · exact Ran.next (Ext.refl _ _)
    · next p hp => exact pinMode_ran (by simp [Cfg.pinOf, hb, hp]) ⟨w, hb⟩

theorem beginCs_ran {h : Handle} {s : State} (hs : s.handle = some h) :
    Ran h.cfg (HandleEvent h) id s (beginCs h.cfg s) := by
  unfold beginCs
  rw [csControl_live hs]
  split
  · next hon => exact (pinMode_ran rfl hon).andThen fun t es _ => pinWrite_ran rfl hon
  · exact Ran.next (Ext.refl _ s)

theorem onlyHardware_cases {h : Handle} {signal : State → Res State} {s : State}
    (hsig : ∀ p, h.cfg.bus = .hardware p → Ran h.cfg (HandleEvent h) id s (signal s)) :
    onlyHardware h signal s = .refused .notInitialized ∨
      Ran h.cfg (HandleEvent h) Prod.snd s (onlyHardware h signal s) := by
  unfold onlyHardware
  cases hb : h.cfg.bus with
  | software w => exact .inr (Ran.next (Ext.refl _ s))
  | hardware p =>
    dsimp only
    cases hi : h.isInitialized with
    | false => exact .inl (whenInitialized_false hi _)
    | true =>
      rw [whenInitialized_true hi]
      exact .inr ((hsig p hb).andThen fun t _ _ => Ran.next (Ext.refl _ t))

/-! Operations. -/

/-- What an operation of a live handle may do: return, with events of `HandleEvent`, the pins as they say, the requests kept and
the sequencer idle; hang inside itself; or be refused. -/
def OpRan (h : Handle) (i : Instr) (s : State) (x : Res State) : Prop :=
  match x with
  | .next t =>
    ∃ es, t.trace = s.trace ++ es ∧ t.pins = replay h.cfg s.pins es ∧ t.pending = s.pending ∧ t.seq = none ∧
      (t.env.stall = none ↔ s.env.stall = none) ∧ ∀ e ∈ es, HandleEvent h e
  | .fault (.neverReturns u) =>
    ∃ es, Ext h.cfg (s.start i) u es ∧ (∀ e ∈ es, HandleEvent h e) ∧ u.env.stall = some 0 ∧
      ∃ q, u.seq = some q ∧ q.op = i ∧ q.call.isSome = true
  | .refused _ => True

/-- From the parts of a body to the operation: `f` ends the body, with the result and maybe another handle. -/
theorem body_ran {h : Handle} {i : Instr} {s : State} {α : Type} {x : Res α} {st : α → State}
    {f : α → Res (Ret × State)} (hx : Ran h.cfg (HandleEvent h) st (s.start i) x)
    (hf : ∀ a, ∃ r v, f a = .next (r, v) ∧ v.trace = (st a).trace ∧ v.pins = (st a).pins ∧
      v.pending = (st a).pending ∧ v.env = (st a).env) :
    OpRan h i s (andThen (andThen x f) fun r => .next (r.2.finish r.1)) := by
  cases x with
  | refused r => trivial
  | next a =>
    obtain ⟨es, he, hp⟩ := hx
    obtain ⟨r, v, hv, h1, h2, h3, h4⟩ := hf a
    rw [andThen_next, hv]
    exact ⟨es, h1.trans he.trace, h2.trans he.pins, h3.trans he.pending, rfl,
      by have := he.returns; rw [← h4] at this; exact this, hp⟩
  | fault r =>
    cases r with
    | neverReturns u =>
      obtain ⟨es, he, hp, hz, hq⟩ := hx
      obtain ⟨q, hq, hc⟩ := hq rfl
      refine ⟨es, he, hp, hz, q, hq, ?_, hc⟩
      have := he.op
      simpa [hq, State.start, State.setSeq] using this

theorem xferEngine_ran {h : Handle} {α : Type} {st : α → State} {u : State} {x : Res α}
    (hx : Ran h.cfg (EngineEvent h.cfg) st u x) : Ran h.cfg (HandleEvent h) st u x :=
  hx.mono fun _ he => he.handleEvent

/-- A constructor that answers made a handle of distinct pins, by `State.construct`, and nothing else (40_lifecycle_control.md R110,
R111). -/
theorem exec_constructor {i : Instr} {s t : State} (hi : i.isConstructor = true) (h : exec i s = .next t) :
    ∃ c, PinsDistinct c ∧ t = (s.construct c).finish { value := .handle } := by
  cases i with
  | constructHw cs freq order mode periph =>
    simp only [exec, execConstructHw] at h
    obtain ⟨-, h⟩ := withDataMode_eq_next h
    obtain ⟨p, -, h⟩ := withCsPin_eq_next h
    exact ⟨⟨p, freq, order, BitVec.ofNat 2 mode, .hardware periph⟩, by simp [PinsDistinct, Cfg.pins, allDistinct],
      by cases h; rfl⟩
  | constructSw cs clk miso mosi freq order mode =>
    simp only [exec, execConstructSw] at h
    obtain ⟨-, h⟩ := withDataMode_eq_next h
    obtain ⟨hd, h⟩ := withDistinct_eq_next h
    obtain ⟨p, rfl, h⟩ := withCsPin_eq_next h
    exact ⟨⟨p, freq, order, BitVec.ofNat 2 mode, .software ⟨clk, mosi, miso⟩⟩, hd, by cases h; rfl⟩
  | _ => cases hi

/-- A constructor calls no primitive, so it never hangs (70_reset_and_hazards.md R240). -/
theorem exec_constructor_ne_fault {i : Instr} {s : State} (hi : i.isConstructor = true) (r : Fault) : exec i s ≠ .fault r := by
  cases i with
  | constructHw cs freq order mode periph =>
    cases cs <;> simp only [exec, execConstructHw, withDataMode, withCsPin] <;> split <;> simp
  | constructSw cs clk miso mosi freq order mode =>
    cases cs <;> simp only [exec, execConstructSw, withDataMode, withDistinct, withCsPin] <;> split <;> (try split) <;> simp
  | _ => cases hi

/-- Without a handle everything but a constructor is refused `noHandle` (60_exceptions.md R216, D23). -/
theorem exec_noHandle {i : Instr} {s : State} (hs : s.handle = none) (hi : i.isConstructor = false) :
    exec i s = .refused .noHandle := by
  cases i with
  | constructHw _ _ _ _ _ | constructSw _ _ _ _ _ _ _ => cases hi
  | _ =>
    simp only [exec, execBegin, execEnd, execBeginTransaction, execEndTransaction, execDisableCsToggle, execEnableCsToggle,
      execWrite, execRead, execWriteThenRead, execRepeated, execTransfer, execTransferByte, execWriteAndRead, execDestroy,
      operation_noHandle hs]

/-- Every operation but a constructor, on a live handle, in any state. -/
theorem exec_ran {h : Handle} {i : Instr} {s : State} (hs : s.handle = some h) (hi : i.isConstructor = false) :
    OpRan h i s (exec i s) := by
  have hst : (s.start i).handle = some h := hs
  have signal : ∀ (sig : State → Res State),
      (∀ p, h.cfg.bus = .hardware p → Ran h.cfg (HandleEvent h) id (s.start i) (sig (s.start i))) →
      OpRan h i s (andThen (onlyHardware h sig (s.start i)) fun r => .next (r.2.finish r.1)) := by
    intro sig hsig
    rcases onlyHardware_cases hsig with hr | hr
    · rw [hr]; trivial
    · have := body_ran (f := fun a => .next a) hr fun a => ⟨a.1, a.2, rfl, rfl, rfl, rfl, rfl⟩
      rw [andThen_assoc] at this
      exact this
  have plain : ∀ v : State, v.trace = s.trace → v.pins = s.pins → v.pending = s.pending → v.env = s.env →
      ∀ r, OpRan h i s (.next (v.finish r)) := by
    intro v h1 h2 h3 h4 r
    exact ⟨[], by simpa using h1, h2, h3, rfl, by rw [← h4]; rfl, by simp⟩
  cases i with
  | constructHw cs freq order mode periph => cases hi
  | constructSw cs clk miso mosi freq order mode => cases hi
  | beginInit =>
    simp only [exec, execBegin, operation_live hs, ← andThen_assoc]
    exact body_ran ((beginCs_ran hst).andThen fun _ _ _ => beginBus_ran) fun a => ⟨_, _, rfl, rfl, rfl, rfl, rfl⟩
  | endRelease =>
    simp only [exec, execEnd, operation_live hs]
    exact signal periphRelease fun p hp => emit_ran (fun _ => rfl) ⟨p, hp⟩
  | beginTransaction =>
    simp only [exec, execBeginTransaction, operation_live hs]
    exact signal (periphBeginTransaction h.cfg) fun p hp => emit_ran (fun _ => rfl) ⟨p, hp⟩
  | endTransaction =>
    simp only [exec, execEndTransaction, operation_live hs]
    exact signal periphEndTransaction fun p hp => emit_ran (fun _ => rfl) ⟨p, hp⟩
  | disableCsToggle =>
    simp only [exec, execDisableCsToggle, operation_live hs]
    exact plain ((s.start .disableCsToggle).setHandle (some (h.withCsControl false))) rfl rfl rfl rfl { value := .nothing }
  | enableCsToggle =>
    simp only [exec, execEnableCsToggle, operation_live hs]
    exact plain ((s.start .enableCsToggle).setHandle (some (h.withCsControl true))) rfl rfl rfl rfl { value := .nothing }
  | destroy =>
    simp only [exec, execDestroy, operation_live hs]
    exact plain ((s.start .destroy).setHandle (none)) rfl rfl rfl rfl { value := .nothing }
  | transfer b =>
    simp only [exec, execTransfer, operation_live hs]
    cases hin : h.isInitialized with
    | false => rw [whenInitialized_false hin]; trivial
    | true =>
      rw [whenInitialized_true hin]
      by_cases hb : BadSrc b
      · rw [withSrc_bad hb]; trivial
      · rw [withSrc_good hb]
        exact body_ran (xferEngine_ran (engine_ran _)) fun a => ⟨_, _, rfl, rfl, rfl, rfl, rfl⟩
  | transferByte b =>
    simp only [exec, execTransferByte, operation_live hs]
    cases hin : h.isInitialized with
    | false => rw [whenInitialized_false hin]; trivial
    | true =>
      rw [whenInitialized_true hin]
      exact body_ran (xferEngine_ran (xferByte_ran b)) fun a => ⟨_, _, rfl, rfl, rfl, rfl, rfl⟩
  | writeAndRead b =>
    simp only [exec, execWriteAndRead, operation_live hs]
    cases hin : h.isInitialized with
    | false => rw [whenInitialized_false hin]; trivial
    | true =>
      rw [whenInitialized_true hin]
      exact body_ran (selected_ran hst fun u => xferEngine_ran (xferByte_ran b))
        fun a => ⟨_, _, rfl, rfl, rfl, rfl, rfl⟩
  | write b l v =>
    simp only [exec, execWrite, operation_live hs]
    cases hin : h.isInitialized with
    | false => rw [whenInitialized_false hin]; trivial
    | true =>
      rw [whenInitialized_true hin]
      by_cases hl : BadSrc l
      · rw [withSrc_bad hl]; trivial
      · by_cases hb : BadSrc b
        · rw [withSrc_good hl, withSrc_bad hb]; trivial
        · rw [withSrc_good hl, withSrc_good hb]
          exact body_ran (frame_ran hst fun u => xferEngine_ran (xferAll_ran _))
            fun a => ⟨_, _, rfl, rfl, rfl, rfl, rfl⟩
  | read b f =>
    simp only [exec, execRead, operation_live hs]
    cases hin : h.isInitialized with
    | false => rw [whenInitialized_false hin]; trivial
    | true =>
      rw [whenInitialized_true hin]
      by_cases hb : BadDst b
      · rw [withDst_bad hb]; trivial
      · rw [withDst_good hb]
        exact body_ran (frame_ran hst fun u => xferEngine_ran (engine_ran _))
          fun a => ⟨_, _, rfl, rfl, rfl, rfl, rfl⟩
  | writeThenRead a b f =>
    simp only [exec, execWriteThenRead, operation_live hs]
    cases hin : h.isInitialized with
    | false => rw [whenInitialized_false hin]; trivial
    | true =>
      rw [whenInitialized_true hin]
      by_cases ha : BadSrc a
      · rw [withSrc_bad ha]; trivial
      · by_cases hb : BadDst b
        · rw [withSrc_good ha, withDst_bad hb]; trivial
        · rw [withSrc_good ha, withDst_good hb]
          exact body_ran (frame_ran hst fun u => xferEngine_ran ((xferAll_ran _).andThen fun r _ _ => xferAll_ran _))
            fun a => ⟨_, _, rfl, rfl, rfl, rfl, rfl⟩
  | repeated v n l =>
    simp only [exec, execRepeated, operation_live hs]
    cases hin : h.isInitialized with
    | false => rw [whenInitialized_false hin]; trivial
    | true =>
      rw [whenInitialized_true hin]
      by_cases hl : BadSrc l
      · rw [withSrc_bad hl]; trivial
      · rw [withSrc_good hl]
        exact body_ran (frame_ran hst fun u => xferEngine_ran (xferAll_ran _))
          fun a => ⟨_, _, rfl, rfl, rfl, rfl, rfl⟩

/-! The brackets. -/

/-- What `x` left, where it answered. -/
theorem Ran.of_next {c : Cfg} {P : Event → Prop} {α : Type} {st : α → State} {s : State} {x : Res α} {a : α}
    (h : Ran c P st s x) (hx : x = .next a) : ∃ es, Ext c s (st a) es ∧ ∀ e ∈ es, P e := by
  rw [hx] at h; exact h

/-- A chip-select step that answered made its event, or none without chip-select control (42_transaction_framer.md R181). -/
theorem driveCs_next {h : Handle} {s t : State} {v : Level} (hs : s.handle = some h) (hx : driveCs h.cfg v s = .next t) :
    Ext h.cfg s t (csEvents h.csControlEnabled v) := by
  unfold driveCs at hx
  rw [csControl_live hs] at hx
  unfold csEvents
  split at hx
  · next hon =>
    rw [if_pos hon]
    unfold pinWrite at hx
    split at hx
    · rcases callPrim_cases (.pinWrite .cs v) s with ⟨n, hn, hst⟩ | ⟨hn, _⟩
      · rw [hn, andThen_next] at hx
        cases hx
        refine ⟨rfl, ?_, rfl, rfl, ?_, hst.symm⟩
        · simp [replay, replayEvent, Cfg.pinOf, pin_eq]
        · simp [State.atCall, State.setSeq, State.emit, State.setPin, State.setPins, State.setEnv, Option.map_map,
            Function.comp_def]
      · rw [hn] at hx; cases hx
    · cases hx
  · next hoff => cases hx; rw [if_neg hoff]; exact Ext.refl _ _

/-- The chip-select bracket around transfers, where it answered (R181, R189). -/
theorem selected_next {h : Handle} {α : Type} {P : Event → Prop} {body : State → Res (α × State)} {s u : State} {a : α}
    (hs : s.handle = some h) (hbody : ∀ u, Ran h.cfg P Prod.snd u (body u)) (hx : selected h.cfg body s = .next (a, u)) :
    ∃ es, Ext h.cfg s u (selectedEvents h.csControlEnabled es) ∧ ∀ e ∈ es, P e := by
  unfold selected at hx
  rw [andThen_eq_next] at hx
  obtain ⟨s1, h1, hx⟩ := hx
  rw [andThen_eq_next] at hx
  obtain ⟨r, h2, hx⟩ := hx
  rw [andThen_eq_next] at hx
  obtain ⟨s3, h3, hx⟩ := hx
  cases hx
  have e1 := (atPhase_silent h.cfg s .csLow).trans (driveCs_next (s := s.atPhase .csLow) hs h1)
  obtain ⟨es, e2, hp⟩ := (hbody _).of_next h2
  have e2' := (e1.trans (atPhase_silent h.cfg s1 .transfers)).trans e2
  have e3 := driveCs_next (s := r.2.atPhase .csHigh) (by simpa using e2'.handle.trans hs) h3
  have e4 := (e2'.trans (atPhase_silent h.cfg r.2 .csHigh)).trans e3
  exact ⟨es, by simpa [selectedEvents, List.append_assoc] using e4, hp⟩

/-- A session signal that answered. -/
theorem session_next {c : Cfg} {s u : State} {p : Prim} {e : Event} (he : ∀ m, replayEvent c m e = m)
    (hx : andThen (callPrim p s) (fun s => .next (s.emit e)) = .next u) : Ext c s u [e] := by
  rcases callPrim_cases p s with ⟨n, hn, hst⟩ | ⟨hn, _⟩
  · rw [hn, andThen_next] at hx
    cases hx
    refine ⟨rfl, by simp [replay, he], rfl, rfl, ?_, hst.symm⟩
    simp [State.atCall, State.setSeq, State.emit, State.setEnv, Option.map_map, Function.comp_def]
  · rw [hn] at hx; cases hx

/-- The frame around transfers, where it answered (R180). -/
theorem frame_next {h : Handle} {α : Type} {P : Event → Prop} {body : State → Res (α × State)} {s u : State} {a : α}
    (hs : s.handle = some h) (hbody : ∀ u, Ran h.cfg P Prod.snd u (body u)) (hx : frame h.cfg body s = .next (a, u)) :
    ∃ es, Ext h.cfg s u (frameEvents h.cfg h.csControlEnabled es) ∧ ∀ e ∈ es, P e := by
  unfold frame at hx
  rw [andThen_eq_next] at hx
  obtain ⟨s1, h1, hx⟩ := hx
  rw [andThen_eq_next] at hx
  obtain ⟨r, h2, hx⟩ := hx
  rw [andThen_eq_next] at hx
  obtain ⟨s3, h3, hx⟩ := hx
  cases hx
  unfold beginSession at h1
  unfold endSession at h3
  unfold frameEvents
  cases hb : h.cfg.bus with
  | hardware p =>
    rw [hb] at h1 h3
    have e1 := (atPhase_silent h.cfg s .beginTransaction).trans (session_next (fun _ => rfl) h1)
    obtain ⟨es, e2, hp⟩ := selected_next (e1.handle.trans hs) hbody h2
    have e3 := ((e1.trans e2).trans (atPhase_silent h.cfg r.2 .endTransaction)).trans (session_next (fun _ => rfl) h3)
    exact ⟨es, by simpa [List.append_assoc] using e3, hp⟩
  | software w =>
    rw [hb] at h1 h3
    cases h1
    cases h3
    have e1 := atPhase_silent h.cfg s .beginTransaction
    obtain ⟨es, e2, hp⟩ := selected_next (e1.handle.trans hs) hbody h2
    have e3 := (e1.trans e2).trans (atPhase_silent h.cfg r.2 .endTransaction)
    exact ⟨es, by simpa using e3, hp⟩

/-- A framed operation that answered: engine events inside the frame, or inside the chip-select bracket alone for
WRITE_AND_READ (42_transaction_framer.md R180, R186). -/
theorem framed_next {h : Handle} {i : Instr} {s t : State} (hs : s.handle = some h) (hi : IsFramed i)
    (hx : exec i s = .next t) : ∃ es pre post, (∀ e ∈ es, EngineEvent h.cfg e) ∧
      (∀ e ∈ pre ++ post, e.isSession = true) ∧
      t.trace = s.trace ++ (pre ++ selectedEvents h.csControlEnabled es ++ post) ∧
      t.pins = replay h.cfg s.pins (pre ++ selectedEvents h.csControlEnabled es ++ post) ∧ t.handle = s.handle := by
  have frame : ∀ {α : Type} {body : State → Res (α × State)} {a : α} {u : State} {r : Ret},
      (∀ u, Ran h.cfg (EngineEvent h.cfg) Prod.snd u (body u)) → Machine.frame h.cfg body (s.start i) = .next (a, u) →
      t = u.finish r → ∃ es pre post, (∀ e ∈ es, EngineEvent h.cfg e) ∧ (∀ e ∈ pre ++ post, e.isSession = true) ∧
        t.trace = s.trace ++ (pre ++ selectedEvents h.csControlEnabled es ++ post) ∧
        t.pins = replay h.cfg s.pins (pre ++ selectedEvents h.csControlEnabled es ++ post) ∧ t.handle = s.handle := by
    intro α body a u r hb hf ht
    obtain ⟨es, he, hp⟩ := frame_next (s := s.start i) hs hb hf
    subst ht
    cases hbus : h.cfg.bus with
    | hardware p =>
      refine ⟨es, [.beginSession h.cfg.freq h.cfg.order h.cfg.dataMode], [.endSession], hp, by simp [Event.isSession],
        ?_, ?_, he.handle⟩
      · simpa [frameEvents, hbus] using he.trace
      · simpa [frameEvents, hbus] using he.pins
    | software w =>
      refine ⟨es, [], [], hp, by simp, ?_, ?_, he.handle⟩
      · simpa [frameEvents, hbus] using he.trace
      · simpa [frameEvents, hbus] using he.pins
  rcases hi with ⟨b, l, v, rfl⟩ | ⟨b, f, rfl⟩ | ⟨a, b, f, rfl⟩ | ⟨v, n, l, rfl⟩ | ⟨b, rfl⟩ <;>
    simp only [exec, execWrite, execRead, execWriteThenRead, execRepeated, execWriteAndRead] at hx <;>
    obtain ⟨hd, r, u, hs', hb, ht⟩ := operation_eq_next hx <;>
    obtain rfl : hd = h := Option.some.inj (hs'.symm.trans hs) <;>
    replace hb := (whenInitialized_eq_next.mp hb).2
  · replace hb := (withSrc_eq_next (withSrc_eq_next hb).2).2
    obtain ⟨q, hf, hb⟩ := andThen_eq_next.mp hb
    cases hb
    exact frame (fun _ => xferAll_ran _) hf ht
  · replace hb := (withDst_eq_next hb).2
    obtain ⟨q, hf, hb⟩ := andThen_eq_next.mp hb
    cases hb
    exact frame (fun _ => engine_ran _) hf ht
  · replace hb := (withDst_eq_next (withSrc_eq_next hb).2).2
    obtain ⟨q, hf, hb⟩ := andThen_eq_next.mp hb
    cases hb
    exact frame (fun _ => (xferAll_ran _).andThen fun _ _ _ => xferAll_ran _) hf ht
  · replace hb := (withSrc_eq_next hb).2
    obtain ⟨q, hf, hb⟩ := andThen_eq_next.mp hb
    cases hb
    exact frame (fun _ => xferAll_ran _) hf ht
  · obtain ⟨q, hf, hb⟩ := andThen_eq_next.mp hb
    cases hb
    obtain ⟨es, he, hp⟩ := selected_next (s := s.start _) hs (fun _ => xferByte_ran _) hf
    subst ht
    exact ⟨es, [], [], hp, by simp, by simpa using he.trace, by simpa using he.pins, he.handle⟩

end Sys2Proof.Machine
end

