-- ==== Sys2Proof/Laws/Slot.lean ====
section
/-! SUPPORT. The parts of a bit slot, and the loops over slots and bytes, in any state: if a part answers, what became of the working registers, the pins and the levels
still to come from the slave. No readiness is assumed (41_transfer_engine.md R147 to R149). -/

namespace Sys2Proof.Machine

/-- A part that changed neither the working registers nor the levels still to come; pin `q` then is in the state `pins q`. -/
structure Quiet (s t : State) (pins : Pin → PinState) : Prop where
  regs : t.regs = s.regs
  levels : ∀ k, t.env.levelAt k = s.env.levelAt k
  pin : ∀ q, t.pin q = pins q

/-- Pin space after the latch of `p` was written. -/
def latched (s : State) (p : Pin) (v : Level) (q : Pin) : PinState := if p = q then { s.pin q with out := some v } else s.pin q

theorem callPrim_next {p : Prim} {s t : State} (h : callPrim p s = .next t) :
    Quiet s t s.pin := by
  rcases callPrim_cases p s with ⟨n, hn, -⟩ | ⟨hn, -⟩ <;> rw [hn] at h <;> cases h
  exact ⟨rfl, fun _ => rfl, fun _ => rfl⟩

theorem pinWrite_next {r : Role} {p : Pin} {v : Level} {s t : State} (h : pinWrite r p v s = .next t) :
    Quiet s t (latched s p v) := by
  unfold pinWrite at h
  split at h
  · obtain ⟨u, hu, h⟩ := andThen_eq_next.mp h
    cases h
    have hq := callPrim_next hu
    refine ⟨hq.regs, hq.levels, fun q => ?_⟩
    have e : ∀ q, pinGet u.pins q = pinGet s.pins q := hq.pin
    simp only [latched, pin_eq, emit_pins, setPin_pins, pinGet_pinPut, e]
    split
    · next hpq => subst hpq; rfl
    · rfl
  · cases h

theorem waitHalf_next {c : Cfg} {s t : State} (h : waitHalf c s = .next t) : Quiet s t s.pin := by
  unfold waitHalf at h
  split at h
  · obtain ⟨u, hu, h⟩ := andThen_eq_next.mp h
    cases h
    have hq := callPrim_next hu
    exact ⟨hq.regs, hq.levels, hq.pin⟩
  · cases h; exact ⟨rfl, fun _ => rfl, fun _ => rfl⟩

/-- Sequence A's drive: the tracker is the bit afterwards, and the latch is written where the tracker was not (R148). -/
theorem driveIfChanged_next {w : SwPins} {bit : Level} {s t : State} (h : driveIfChanged w bit s = .next t) :
    t.regs = { s.regs with lastMosi := if w.mosi.isSome then bit else s.regs.lastMosi } ∧
    (∀ k, t.env.levelAt k = s.env.levelAt k) ∧
    ∀ q, t.pin q = if w.mosi = some q ∧ bit ≠ s.regs.lastMosi then { s.pin q with out := some bit } else s.pin q := by
  unfold driveIfChanged at h
  split at h
  · next hm => cases h; simp [hm]
  · next p hm =>
    split at h
    · next hb => cases h; simp [hm, hb]
    · next hb =>
      obtain ⟨u, hu, h⟩ := andThen_eq_next.mp h
      cases h
      have hq := pinWrite_next hu
      refine ⟨by simp [hm, hq.regs], hq.levels, fun q => ?_⟩
      simp only [hm, Option.some.injEq, ne_eq, hb, not_false_eq_true, and_true]
      exact hq.pin q

/-- Sequence B's drive: always, and the tracker is none of its business (R149). -/
theorem driveAlways_next {w : SwPins} {bit : Level} {s t : State} (h : driveAlways w bit s = .next t) :
    Quiet s t fun q => if w.mosi = some q then { s.pin q with out := some bit } else s.pin q := by
  unfold driveAlways at h
  split at h
  · next hm => cases h; exact ⟨rfl, fun _ => rfl, fun q => by simp [hm]⟩
  · next p hm =>
    have hq := pinWrite_next h
    exact ⟨hq.regs, hq.levels, fun q => by simp only [hm, Option.some.injEq]; exact hq.pin q⟩

/-- The sample: a 1 is OR-ed into `rx`, one level is used up where data-in is present (R151). -/
theorem sample_next {w : SwPins} {s t : State} (h : sample w s = .next t) :
    t.regs = { s.regs with rx := if w.miso.isSome && s.env.levelAt 0 then s.regs.rx ||| s.regs.mask else s.regs.rx } ∧
    (∀ k, t.env.levelAt k = s.env.levelAt (if w.miso.isSome then k + 1 else k)) ∧ ∀ q, t.pin q = s.pin q := by
  unfold sample at h
  split at h
  · next hm => cases h; simp [hm]
  · next p hm =>
    obtain ⟨⟨v, u⟩, hu, h⟩ := andThen_eq_next.mp h
    unfold pinRead at hu
    split at hu
    · obtain ⟨x, hx, hu⟩ := andThen_eq_next.mp hu
      cases hu
      have hq := callPrim_next hx
      have hv := hq.levels 0
      cases h
      simp only [hm, Option.isSome_some, Bool.true_and, if_true]
      refine ⟨?_, fun k => ?_, fun q => ?_⟩
      · rw [hv]; split <;> simp [hq.regs]
      · rw [Nat.add_comm, ← hq.levels (1 + k), ← levelAt_dropLevels]; split <;> rfl
      · rw [← hq.pin q]; split <;> rfl
    · cases hu

/-- A slot in any state: the registers and the levels still to come, whatever the sequence (R146 to R149). -/
theorem bitSlot_next {c : Cfg} {w : SwPins} {s t : State} (h : bitSlot c w s = .next t) :
    t.regs = { tx := s.regs.tx
               rx := if w.miso.isSome && s.env.levelAt 0 then s.regs.rx ||| s.regs.mask else s.regs.rx
               mask := nextMask c.order s.regs.mask
               lastMosi := if !c.sequenceB && w.mosi.isSome then maskedBit s.regs.tx s.regs.mask else s.regs.lastMosi } ∧
    (∀ k, t.env.levelAt k = s.env.levelAt (if w.miso.isSome then k + 1 else k)) := by
  unfold bitSlot at h
  obtain ⟨t1, h1, h⟩ := andThen_eq_next.mp h
  obtain ⟨u, hu, h⟩ := andThen_eq_next.mp h
  cases h
  have q1 := waitHalf_next h1
  cases hb : c.sequenceB
  · simp only [hb, Bool.false_eq_true, if_false, sequenceA] at hu
    obtain ⟨t2, h2, hu⟩ := andThen_eq_next.mp hu
    obtain ⟨t3, h3, hu⟩ := andThen_eq_next.mp hu
    obtain ⟨t4, h4, hu⟩ := andThen_eq_next.mp hu
    obtain ⟨t5, h5, hu⟩ := andThen_eq_next.mp hu
    obtain ⟨r2, l2, -⟩ := driveIfChanged_next h2
    have q3 := pinWrite_next h3
    have q4 := waitHalf_next h4
    obtain ⟨r5, l5, -⟩ := sample_next h5
    have q6 := pinWrite_next hu
    refine ⟨?_, fun k => ?_⟩
    · simp [q6.regs, r5, q4.regs, q3.regs, r2, q1.regs, q4.levels, q3.levels, l2, q1.levels]
    · simp [q6.levels, l5, q4.levels, q3.levels, l2, q1.levels]
  · simp only [hb, if_true, sequenceB] at hu
    obtain ⟨t2, h2, hu⟩ := andThen_eq_next.mp hu
    obtain ⟨t3, h3, hu⟩ := andThen_eq_next.mp hu
    obtain ⟨t4, h4, hu⟩ := andThen_eq_next.mp hu
    obtain ⟨t5, h5, hu⟩ := andThen_eq_next.mp hu
    have q2 := pinWrite_next h2
    have q3 := waitHalf_next h3
    have q4 := driveAlways_next h4
    have q5 := pinWrite_next h5
    obtain ⟨r6, l6, -⟩ := sample_next hu
    refine ⟨?_, fun k => ?_⟩
    · simp [r6, q5.regs, q4.regs, q3.regs, q2.regs, q1.regs, q5.levels, q4.levels, q3.levels, q2.levels, q1.levels]
    · simp [l6, q5.levels, q4.levels, q3.levels, q2.levels, q1.levels]

/-- `n` slots in any state: the latched byte, the mask, the levels used up, and `rx` under the answers `ans` from `j` on. -/
theorem bitSlots_next {c : Cfg} {w : SwPins} (n : Nat) : ∀ {s t : State}, bitSlots c w n s = .next t →
    t.regs.tx = s.regs.tx ∧ t.regs.mask = (nextMask c.order)^[n] s.regs.mask ∧
    (∀ k, t.env.levelAt k = s.env.levelAt (if w.miso.isSome then k + n else k)) ∧
    ∀ (ans : Nat → Level) (j : Nat), (∀ k, s.env.levelAt k = ans (j + k)) →
      t.regs.rx = if w.miso.isSome then rxAfter c.order ans n s.regs.mask j s.regs.rx else s.regs.rx := by
  induction n with
  | zero => intro s t h; cases h; simp [rxAfter]
  | succ n ih =>
    intro s t h
    obtain ⟨u, hu, h⟩ := andThen_eq_next.mp h
    obtain ⟨r, l⟩ := bitSlot_next hu
    obtain ⟨i1, i2, i3, i4⟩ := ih h
    refine ⟨by rw [i1, r], by rw [i2, r]; rfl, fun k => ?_, fun ans j ha => ?_⟩
    · rw [i3, l]; split
      · congr 1
      · rfl
    · cases hm : w.miso.isSome
      · simpa [hm, r] using i4 (fun k => u.env.levelAt k) 0 (by simp)
      · rw [i4 ans (j+1) (fun k => by rw [l, ha]; simp only [hm, if_true]; congr 1; omega)]
        simp [hm, rxAfter, r, ha]

/-- Slots in sequence: the later ones run from the state the earlier ones left. -/
theorem bitSlots_add (c : Cfg) (w : SwPins) (m n : Nat) : ∀ s : State,
    bitSlots c w (m + n) s = andThen (bitSlots c w m s) (bitSlots c w n) := by
  induction m with
  | zero => intro s; rw [Nat.zero_add]; rfl
  | succ m ih =>
    intro s
    rw [Nat.add_right_comm]
    simp only [bitSlots, andThen_assoc, ih]

/-- Bytes in sequence: the later ones run from the state the earlier ones left (41_transfer_engine.md R146, R155). -/
theorem swBytes_append (c : Cfg) (w : SwPins) (xs ys : List Byte) : ∀ s : State,
    swBytes c w (xs ++ ys) s =
      andThen (swBytes c w xs s) fun r => andThen (swBytes c w ys r.2) fun q => .next (r.1 ++ q.1, q.2) := by
  induction xs with
  | nil =>
    intro s
    simp only [List.nil_append, swBytes, andThen_next]
    cases swBytes c w ys s <;> rfl
  | cons x xs ih =>
    intro s
    simp only [List.cons_append, swBytes, andThen_assoc, andThen_next, ih]

/-- The first bit of a byte on the wire is the one the start mask selects (R145). -/
theorem maskedBit_start (o : BitOrder) (b : Byte) : maskedBit b (startMask o) = b.getLsbD (slotBit o 0) := by
  cases o <;> revert b <;> decide

/-- The last bit is the one the eighth mask selects. -/
theorem maskedBit_last (o : BitOrder) (b : Byte) :
    maskedBit b ((nextMask o)^[7] (startMask o)) = b.getLsbD (slotBit o 7) := by
  cases o <;> revert b <;> decide

/-- The clock is another pin than data-out (D18). -/
theorem PinsDistinct.clk_ne_mosi {c : Cfg} {w : SwPins} (hd : PinsDistinct c) (hb : c.bus = .software w) {p : Pin}
    (hm : p ∈ w.mosi) : w.clk ≠ p := by
  unfold PinsDistinct Cfg.pins at hd
  rw [hb, allDistinct_iff_nodup] at hd
  have hm' : w.mosi = some p := hm
  simp [presentPins, hm'] at hd
  tauto

/-- What sequence A leaves on data-out: the bit, where the tracker was right or was not the bit (R155). -/
theorem bitSlot_latch {c : Cfg} {w : SwPins} {s t : State} {p : Pin} (h : bitSlot c w s = .next t)
    (hb : c.sequenceB = false) (hm : w.mosi = some p) (hp : w.clk ≠ p)
    (ht : (s.pin p).out = some s.regs.lastMosi ∨ maskedBit s.regs.tx s.regs.mask ≠ s.regs.lastMosi) :
    (t.pin p).out = some (maskedBit s.regs.tx s.regs.mask) := by
  unfold bitSlot at h
  obtain ⟨t1, h1, h⟩ := andThen_eq_next.mp h
  obtain ⟨u, hu, h⟩ := andThen_eq_next.mp h
  cases h
  have q1 := waitHalf_next h1
  simp only [hb, Bool.false_eq_true, if_false, sequenceA] at hu
  obtain ⟨t2, h2, hu⟩ := andThen_eq_next.mp hu
  obtain ⟨t3, h3, hu⟩ := andThen_eq_next.mp hu
  obtain ⟨t4, h4, hu⟩ := andThen_eq_next.mp hu
  obtain ⟨t5, h5, hu⟩ := andThen_eq_next.mp hu
  obtain ⟨-, -, p2⟩ := driveIfChanged_next h2
  have p3 := (pinWrite_next h3).pin
  have p4 := (waitHalf_next h4).pin
  obtain ⟨-, -, p5⟩ := sample_next h5
  have p6 := (pinWrite_next hu).pin
  show (u.pin p).out = _
  rw [p6]
  simp only [latched, if_neg hp, p5, p4, p3, p2, q1.pin, q1.regs, hm, true_and]
  split
  · rfl
  · next hn => rcases ht with ht | ht
               · rw [ht, not_not.mp hn]
               · exact absurd ht hn

end Sys2Proof.Machine
end

