-- ==== Sys2Proof/Tests/Slice0.lean ====
section
/-! SUPPORT. Tests: ill-formed operations, descriptors written out from 30_encoding.md, vectors of 95_test_vectors.md, and for every
statement with hypotheses a witness that meets them. -/

namespace Sys2Proof.Tests

open Sys2Proof.Machine

/-! Helpers. -/

/-- What an operation, or a part of one, answered. -/
def after {α : Type} (x : Res α) : Option α :=
  match x with
  | .next t => some t
  | .fault _ => none
  | .refused _ => none

/-- Its trace. -/
def traceOf (x : Res State) : Option (List Event) := (after x).map (·.trace)

/-- Its result. -/
def retOf (x : Res State) : Option Ret := (after x).map (·.ret)

/-- The refusal. -/
def refusalOf (x : Res State) : Option Refusal :=
  match x with
  | .refused r => some r
  | .next _ => none
  | .fault _ => none

/-- The state a hang left. -/
def stuckOf (x : Res State) : Option State :=
  match x with
  | .fault (.neverReturns u) => some u
  | .next _ => none
  | .refused _ => none

theorem next_of_isSome {α : Type} {x : Res α} (h : (after x).isSome = true) : ∃ t, x = .next t := by
  cases x with
  | next t => exact ⟨t, rfl⟩
  | fault r => cases h
  | refused r => cases h

theorem runs {i : Instr} {s : State} (h : (after (exec i s)).isSome = true) (hs : s.trace = []) :
    ∃ t es, exec i s = .next t ∧ t.trace = s.trace ++ es := by
  obtain ⟨t, ht⟩ := next_of_isSome h
  exact ⟨t, t.trace, ht, by rw [hs]; rfl⟩

/-- The pins of 95_test_vectors.md's conventions. -/
def swBus : Bus := .software ⟨13, some 11, some 12⟩

/-- A configuration with chip-select on pin 10. -/
def cfg (bus : Bus) (mode : BitVec 2 := 0) (order : BitOrder := .msbFirst) (freq : Nat := 1000000) : Cfg :=
  ⟨10, freq, order, mode, bus⟩

/-- The pins after BEGIN, the clock at `idle` and MOSI_INIT_LEVEL taken as 0. -/
def swPins (idle : Level := false) : Pins :=
  [(10, ⟨.output, some true⟩), (11, ⟨.output, some false⟩), (12, ⟨.input, none⟩), (13, ⟨.output, some idle⟩)]

/-- A handle after BEGIN, with a slave that will answer `miso`. -/
def soft (c : Cfg := cfg swBus) (miso : List Level := List.replicate 16 false) (on : Bool := true) : State :=
  { State.reset with handle := some ⟨c, on, true⟩, pins := swPins c.idleLevel, env := ⟨miso, 0, [], 0, none⟩ }

/-- A Hardware-mode handle after BEGIN, with a peripheral that will answer `bytes`. -/
def hard (bytes : List Byte := []) (on : Bool := true) : State :=
  { State.reset with handle := some ⟨cfg (.hardware 0), on, true⟩, pins := [(10, ⟨.output, some true⟩)],
                     env := ⟨[], 0, bytes, 0, none⟩ }

/-- A handle before BEGIN. -/
def built (bus : Bus := swBus) (on : Bool := true) : State := { State.reset with handle := some ⟨cfg bus, on, false⟩ }

/-- A handle after a BEGIN with chip-select control off, and control on again (95_test_vectors.md T33). -/
def uncontrolled (bus : Bus := .hardware 0) : State := { State.reset with handle := some ⟨cfg bus, true, true⟩ }

/-- A buffer with its own length. -/
def buf (bs : List Byte) : SrcBuf := ⟨some bs, bs.length⟩

/-- The levels of a byte in slot order, MSB first. -/
def answers (b : Byte) : List Level := bitsOf .msbFirst b

/-- One slot of sequence A without delay: `d` is driven first. -/
def slotA (d : Option Level) (v : Level) : List Event :=
  (match d with | some b => [.write .mosi b] | none => []) ++ [.write .clk true, .read .miso v, .write .clk false]

/-- `ck` of the vectors, after a drive: no data-in pin. -/
def ck (d : Option Level) : List Event :=
  (match d with | some b => [.write .mosi b] | none => []) ++ [.write .clk true, .write .clk false]

/-! WellFormed: one ill-formed operation for each check. -/

theorem test_wf_null_buffer : (Instr.transfer ⟨none, 0⟩).wf = false := by decide
theorem test_wf_length_mismatch : (Instr.transfer ⟨some [1, 2], 1⟩).wf = false := by decide
theorem test_wf_write_prefix : (Instr.write ⟨some [1], 1⟩ ⟨none, 0⟩ false).wf = false := by decide
theorem test_wf_length_too_long : (SrcBuf.mk (some []) 65536).wf = false := by decide
theorem test_wf_read_null : (Instr.read ⟨none, 2⟩ 0xFF).wf = false := by decide
theorem test_wf_read_too_long : (Instr.read ⟨some 65536, 65536⟩ 0xFF).wf = false := by decide
theorem test_wf_read_buffer : (Instr.writeThenRead ⟨some [], 0⟩ ⟨some 3, 2⟩ 0).wf = false := by decide
theorem test_wf_times : (Instr.repeated 0 65536 ⟨some [], 0⟩).wf = false := by decide
theorem test_wf_cs_unset : (Instr.constructHw none 0 .msbFirst 0 0).wf = false := by decide
theorem test_wf_cs_width : (Instr.constructHw (some 256) 0 .msbFirst 0 0).wf = false := by decide
theorem test_wf_freq_width : (Instr.constructHw (some 1) 4294967296 .msbFirst 0 0).wf = false := by decide
theorem test_wf_mode : (Instr.constructHw (some 1) 0 .msbFirst 4 0).wf = false := by decide
theorem test_wf_periph_width : (Instr.constructHw (some 1) 0 .msbFirst 0 256).wf = false := by decide
theorem test_wf_clk_width : (Instr.constructSw (some 1) 256 none none 0 .msbFirst 0).wf = false := by decide
theorem test_wf_miso_width : (Instr.constructSw (some 1) 2 (some 256) none 0 .msbFirst 0).wf = false := by decide
theorem test_wf_mosi_width : (Instr.constructSw (some 1) 2 none (some 256) 0 .msbFirst 0).wf = false := by decide

/-! Decoding, byte by byte from 30_encoding.md R81 to R87: `cfg` is bits 7-5 zero, data-in, data-out, mode, order. -/

theorem test_decode_construct_hw : decodeDescriptor
    [0b00000000, 0b00000110, 0x00, 0x09, 0x3D, 0x00, 0x0A, 0x01] =
      .ok (.constructHw (some 10) 4000000 .lsbFirst 3 1) := by rfl
theorem test_decode_construct_sw : decodeDescriptor
    [0b00000001, 0b00011110, 0xA0, 0x86, 0x01, 0x00, 0x04, 0x05, 0x06, 0x07] =
      .ok (.constructSw (some 4) 5 (some 6) (some 7) 100000 .lsbFirst 3) := by rfl
theorem test_decode_construct_sw_no_mosi : decodeDescriptor
    [0b00000001, 0b00010011, 0x40, 0x42, 0x0F, 0x00, 0x0A, 0x0D, 0x0C, 0xFF] =
      .ok (.constructSw (some 10) 13 (some 12) none 1000000 .msbFirst 1) := by rfl
theorem test_decode_begin : decodeDescriptor [0b00000010] = .ok .beginInit := by rfl
theorem test_decode_end : decodeDescriptor [0b00000011] = .ok .endRelease := by rfl
theorem test_decode_begin_transaction : decodeDescriptor [0b00000100] = .ok .beginTransaction := by rfl
theorem test_decode_end_transaction : decodeDescriptor [0b00000101] = .ok .endTransaction := by rfl
theorem test_decode_disable : decodeDescriptor [0b00000110] = .ok .disableCsToggle := by rfl
theorem test_decode_enable : decodeDescriptor [0b00000111] = .ok .enableCsToggle := by rfl
theorem test_decode_write : decodeDescriptor [0b00001000, 0b00000001, 0x01, 0x00, 0x02, 0x00, 0xAA, 0x01, 0x02] =
    .ok (.write ⟨some [0x01, 0x02], 2⟩ ⟨some [0xAA], 1⟩ true) := by rfl
theorem test_decode_read : decodeDescriptor [0b00001001, 0x5C, 0x02, 0x01] = .ok (.read ⟨some 258, 258⟩ 0x5C) := by rfl
theorem test_decode_write_then_read : decodeDescriptor [0b00001010, 0xFF, 0x03, 0x00, 0x02, 0x00, 0x01, 0x02, 0x03] =
    .ok (.writeThenRead ⟨some [0x01, 0x02, 0x03], 3⟩ ⟨some 2, 2⟩ 0xFF) := by rfl
theorem test_decode_repeated : decodeDescriptor [0b00001011, 0x77, 0x03, 0x00, 0x01, 0x00, 0x2C] =
    .ok (.repeated 0x77 3 ⟨some [0x2C], 1⟩) := by rfl
theorem test_decode_transfer : decodeDescriptor [0b00001100, 0x02, 0x00, 0x0F, 0xF0] =
    .ok (.transfer ⟨some [0x0F, 0xF0], 2⟩) := by rfl
theorem test_decode_transfer_byte : decodeDescriptor [0b00001101, 0x80] = .ok (.transferByte 0x80) := by rfl
theorem test_decode_write_and_read : decodeDescriptor [0b00001110, 0xC3] = .ok (.writeAndRead 0xC3) := by rfl
theorem test_decode_destroy : decodeDescriptor [0b00001111] = .ok .destroy := by rfl
/-- T7, T32, R94: each way to be malformed, and log 17's two. -/
theorem test_decode_malformed :
    decodeDescriptor [0x10] = .error (.unassignedOpcode 0x10) ∧
    decodeDescriptor [0x08, 0x02, 0x00, 0x00, 0x00, 0x00] = .error (.reservedFlags 0x02) ∧
    decodeDescriptor [0x01, 0x39, 0x40, 0x42, 0x0F, 0x00, 0x0A, 0x0D, 0x0C, 0x0B] = .error (.reservedCfg 0x39) ∧
    decodeDescriptor [0x00, 0x09, 0x40, 0x42, 0x0F, 0x00, 0x0A, 0x00] = .error (.presenceInFormatH 0x09) ∧
    decodeDescriptor [0x01, 0x11, 0x40, 0x42, 0x0F, 0x00, 0x0A, 0x0D, 0x0C, 0x0B] = .error (.pinBesideClearedBit 0x0B) ∧
    decodeDescriptor [0x0D] = .error .truncated ∧ decodeDescriptor [0x02, 0x02] = .error .trailing :=
  ⟨rfl, rfl, rfl, rfl, rfl, rfl, rfl⟩
/-- The table's numbering: BEGIN's 8 bits; TRANSFER_BYTE 0x80's 16, the opcode lowest. -/
theorem test_table_words : decodeTableWord 8 0x02 = some .beginInit ∧ decodeTableWord 16 0x800D = some (.transferByte 0x80) ∧
    decodeTableWord 8 0x0D = some (.transferByte 0) := ⟨rfl, rfl, rfl⟩

/-! Vectors of 95_test_vectors.md, each about one step. -/

/-- R110's example: defaults applied, both flags, no event. -/
theorem test_construct_hw : (after (exec (Api.constructHw 10) State.reset)).map (fun t => (t.handle, t.trace)) =
    some (some ⟨⟨10, 1000000, .msbFirst, 0, .hardware 0⟩, true, false⟩, []) := by rfl
/-- T7. -/
theorem test_construct_sw_clash :
    refusalOf (exec (.constructSw (some 10) 13 (some 11) (some 11) 0 .msbFirst 0) State.reset) = some .pinClash := by rfl
/-- R214: the first test of R111's pseudocode that fails is named, a pin clash where chip-select is unset. -/
theorem test_construct_sw_first_reason :
    refusalOf (exec (.constructSw none 13 (some 13) none 0 .msbFirst 0) State.reset) = some .pinClash ∧
    refusalOf (exec (.constructSw none 13 (some 13) none 0 .msbFirst 4) State.reset) = some .contractViolation ∧
    refusalOf (exec (.constructSw none 13 (some 12) none 0 .msbFirst 0) State.reset) = some .contractViolation :=
  ⟨rfl, rfl, rfl⟩
theorem test_construct_sw_mode :
    refusalOf (exec (.constructSw (some 10) 13 (some 12) (some 11) 0 .msbFirst 4) State.reset) =
      some .contractViolation := by rfl
/-- T1, data mode 2, and T2's last row. -/
theorem test_begin_mode_two : traceOf (exec .beginInit { built with handle := some ⟨cfg swBus 2, true, false⟩ }) =
    some [.mode .cs .output, .write .cs true, .mode .clk .output, .write .clk true, .mode .mosi .output,
      .write .mosi Config.mosiInitLevel, .mode .miso .input] := by rfl
theorem test_begin_without_cs : (after (exec .beginInit (built swBus false))).map (fun t => (t.trace, t.pin 10, t.ret.value)) =
    some ([.mode .clk .output, .write .clk false, .mode .mosi .output, .write .mosi Config.mosiInitLevel,
      .mode .miso .input], ⟨.unconfigured, none⟩, .success true) := by rfl
/-- T3, and C10: chip-select before `PS`. -/
theorem test_begin_hardware : traceOf (exec .beginInit (built (.hardware 0))) =
    some [.mode .cs .output, .write .cs true, .setup] := by rfl
theorem test_end_hardware : traceOf (exec .endRelease hard) = some [.release] ∧
    refusalOf (exec .endRelease (built (.hardware 0))) = some .notInitialized := ⟨rfl, rfl⟩
/-- T4. -/
theorem test_end_software : traceOf (exec .endRelease (built)) = some [] := by rfl
/-- T5. -/
theorem test_begin_transaction : traceOf (exec .beginTransaction hard) = some [.beginSession 1000000 .msbFirst 0] := by rfl
theorem test_end_transaction : traceOf (exec .endTransaction hard) = some [.endSession] := by rfl
/-- T6. -/
theorem test_disable : (after (exec .disableCsToggle soft)).map (fun t => (t.csControl, t.trace, t.pin 10)) =
    some (false, [], ⟨.output, some true⟩) := by rfl
theorem test_enable : (after (exec .enableCsToggle (built swBus false))).map (fun t => (t.csControl, t.trace, t.pin 10)) =
    some (true, [], ⟨.unconfigured, none⟩) := by rfl
/-- T8. -/
theorem test_destroy : (after (exec .destroy soft)).map (fun t => (t.handle, t.trace, t.pins)) =
    some (none, [], swPins) := by rfl
theorem test_destroyed : refusalOf (exec .beginInit State.reset) = some .noHandle := by rfl

/-- S8: the source's own scenario, the slave answering what is driven. -/
theorem test_transfer_s8 : (after (exec (.transfer (buf [0xA5])) (soft (miso := answers 0xA5)))).map
    (fun t => (t.trace, t.ret.buffer)) =
    some (slotA (some true) true ++ slotA (some false) false ++ slotA (some true) true ++ slotA (some false) false
      ++ slotA none false ++ slotA (some true) true ++ slotA (some false) false ++ slotA (some true) true,
      some [0xA5]) := by rfl
/-- T25, Hardware. -/
theorem test_transfer_hardware : (after (exec (.transfer (buf [1, 2, 3])) (hard [0xAA, 0xAA, 0xAA]))).map
    (fun t => (t.trace, t.ret.buffer)) = some ([.transfer [1, 2, 3] [0xAA, 0xAA, 0xAA]], some [0xAA, 0xAA, 0xAA]) := by rfl
/-- T9: sequence B, no data-out pin. -/
theorem test_transfer_byte_t9 :
    (after (exec (.transferByte 0x80) (soft (cfg (.software ⟨13, none, some 12⟩) 1) (answers 0x96)))).map
      (fun t => (t.trace, t.ret.value)) =
    some ([true, false, false, true, false, true, true, false].flatMap
      fun v => [.write .clk true, .write .clk false, .read .miso v], .byte 0x96) := by rfl
/-- T21's first two slots' shape, and its result: delays and unconditional drives in sequence B. -/
theorem test_transfer_byte_t21 :
    (after (exec (.transferByte 0xC0) (soft (cfg swBus 1 .msbFirst 250000) (answers 0x81)))).map
      (fun t => (t.trace.take 12, t.ret.value)) =
    some ([.delay 2, .write .clk true, .delay 2, .write .mosi true, .write .clk false, .read .miso true,
      .delay 2, .write .clk true, .delay 2, .write .mosi true, .write .clk false, .read .miso false], .byte 0x81) := by rfl

/-- T13, starred events included. -/
theorem test_write_t13 : (after (exec (.write (buf [0x0F]) (buf [0xA0]) true)
    (soft (cfg (.software ⟨13, some 11, none⟩))))).map (fun t => (t.trace, t.ret)) =
    some ([.write .cs false] ++ ck (some false) ++ ck (some true) ++ ck (some false) ++ ck (some true) ++ ck none ++ ck none
      ++ ck none ++ ck none ++ ck (some true) ++ ck none ++ ck none ++ ck none ++ ck (some false) ++ ck none ++ ck none
      ++ ck none ++ [.write .cs true],
      { value := .success true, buffer := some [0x0F], lead := some [0xA0] }) := by rfl
/-- P4's WRITE. -/
theorem test_write_hardware : traceOf (exec (.write (buf [1, 2]) (buf [0xAA]) true) (hard [0, 0, 0])) =
    some [.beginSession 1000000 .msbFirst 0, .write .cs false, .transfer [0x55] [0], .transfer [0xFE] [0],
      .transfer [0xFD] [0], .write .cs true, .endSession] := by rfl
/-- P4's READ: one invocation over the whole buffer. -/
theorem test_read_hardware : (after (exec (Api.read ⟨some 3, 3⟩) (hard [0x5A, 0x5A, 0x5A]))).map
    (fun t => (t.trace, t.ret.buffer)) =
    some ([.beginSession 1000000 .msbFirst 0, .write .cs false, .transfer [0xFF, 0xFF, 0xFF] [0x5A, 0x5A, 0x5A],
      .write .cs true, .endSession], some [0x5A, 0x5A, 0x5A]) := by rfl
/-- T26: the fill, not received data; one drive. -/
theorem test_read_t26 : (after (exec (.read ⟨some 2, 2⟩ 0) (soft (cfg (.software ⟨13, some 11, none⟩))))).map
    (fun t => (t.trace.count (.write .mosi false), t.trace.length, t.ret.buffer)) = some (1, 35, some [0, 0]) := by rfl
/-- T28. -/
theorem test_write_then_read_t28 :
    (after (exec (Api.writeThenRead (buf [1, 2, 3]) ⟨some 2, 2⟩) (hard [0, 0, 0, 0x5A, 0x5A]))).map
      (fun t => (t.trace, t.ret.buffer, t.ret.source)) =
    some ([.beginSession 1000000 .msbFirst 0, .write .cs false, .transfer [1] [0], .transfer [2] [0], .transfer [3] [0],
      .transfer [0xFF] [0x5A], .transfer [0xFF] [0x5A], .write .cs true, .endSession],
      some [0x5A, 0x5A], some [1, 2, 3]) := by rfl
/-- P2's read phase, mode 3, LSB first: the byte, the delays, and the clock left at 0 (R252). -/
theorem test_write_then_read_p2 :
    (after (exec (.writeThenRead (buf []) ⟨some 1, 1⟩ 0xFF) (soft (cfg swBus 3 .lsbFirst 100000)
      [false, true, false, false, false, false, true, true]))).map
      (fun t => (t.ret.buffer, (t.pin 13).out, t.trace.count (.delay 5))) = some (some [0xC2], some false, 16) := by rfl
/-- T27's five copies and no more, in Hardware mode. -/
theorem test_repeated_t27 : traceOf (exec (Api.repeated 0xAA 5) (hard [0, 0, 0, 0, 0])) =
    some ([.beginSession 1000000 .msbFirst 0, .write .cs false] ++ List.replicate 5 (.transfer [0xAA] [0])
      ++ [.write .cs true, .endSession]) := by rfl
/-- P3's REPEATED with chip-select control off, in Hardware mode: the prefix first. -/
theorem test_repeated_p3 : traceOf (exec (.repeated 0 3 (buf [0x2C])) (hard [0, 0, 0, 0] false)) =
    some [.beginSession 1000000 .msbFirst 0, .transfer [0x2C] [0], .transfer [0] [0], .transfer [0] [0], .transfer [0] [0],
      .endSession] := by rfl
/-- T29, chip-select control off; and T31. -/
theorem test_write_and_read_t29 :
    (after (exec (.writeAndRead 0xC3) (soft (miso := answers 0xC3) (on := false)))).map (fun t => (t.trace, t.ret.value)) =
    some (slotA (some true) true ++ slotA none true ++ slotA (some false) false ++ slotA none false ++ slotA none false
      ++ slotA none false ++ slotA (some true) true ++ slotA none true, .byte 0xC3) := by rfl
theorem test_write_and_read_t31 : (after (exec (.writeAndRead 0x77) (hard [0]))).map (fun t => (t.trace, t.ret.value)) =
    some ([.write .cs false, .transfer [0x77] [0], .write .cs true], .byte 0) := by rfl
/-- T33. -/
theorem test_chip_select_never_configured : refusalOf (exec (.writeAndRead 1) uncontrolled) = some .pinNotConfigured := by rfl
/-- R61, in each place a length can be wrong. -/
theorem test_bad_buffers : refusalOf (exec (.transfer ⟨none, 1⟩) hard) = some .badBuffer ∧
    refusalOf (exec (.write (buf [1]) ⟨some [1], 2⟩ false) hard) = some .badBuffer ∧
    refusalOf (exec (.read ⟨some 1, 2⟩ 0) hard) = some .badBuffer ∧
    refusalOf (exec (.repeated 0 1 ⟨none, 1⟩) hard) = some .badBuffer := ⟨rfl, rfl, rfl, rfl⟩
/-- R217: the third call of a Hardware-mode READ never returns: chip-select stays asserted, the machine stuck. -/
theorem test_hang : (stuckOf (exec (Api.read ⟨some 1, 1⟩) { hard with env := ⟨[], 0, [], 0, some 2⟩ })).map
    (fun u => (u.trace, (u.pin 10).out, u.seq.map fun q => (q.phase, q.call))) =
    some ([.beginSession 1000000 .msbFirst 0, .write .cs false], some false,
      some (some .transfers, some (.periphTransfer [0xFF]))) := by rfl
/-- R34: the wire of an output pin is its latch; the chip-select line is not the block's while control is off (R251, log 32). -/
theorem test_wire : soft.wire .cs 10 = some true ∧ (soft (on := false)).wire .cs 10 = none ∧ soft.wire .miso 12 = none ∧
    soft.wire .clk 13 = some false := by decide
/-- R120, R34: a chip-select left asserted stays asserted after DESTROY. -/
theorem test_wire_after_destroy : (after (exec .destroy (soft.setPin 10 ⟨.output, some false⟩))).map
    (fun t => (t.wire .cs 10, t.wire .clk 13)) = some (some false, some false) := by rfl
/-- R10 on T28: the five calls are one. -/
theorem test_wire_equivalence : wireEq ⟨some true, none, none⟩
    [.write .cs false, .transfer [1] [0], .transfer [0xFF] [0x5A], .write .cs true, .write .cs true]
    [.write .cs false, .transfer [1, 0xFF] [0, 0x5A], .write .cs true] := by decide

/-! Witnesses: for every statement with hypotheses, a concrete state and operands that meet all of them together. -/

/-- The handles of the states above. -/
def softHandle (c : Cfg := cfg swBus) (on : Bool := true) : Handle := ⟨c, on, true⟩
/-- The Hardware-mode one. -/
def hardHandle (on : Bool := true) : Handle := ⟨cfg (.hardware 0), on, true⟩
/-- The Software variant without a data-in pin, and without a data-out pin. -/
def noMiso : Bus := .software ⟨13, some 11, none⟩
/-- Without a data-out pin. -/
def noMosi : Bus := .software ⟨13, none, some 12⟩

theorem busReady_soft : BusReady (cfg swBus) swPins :=
  ⟨rfl, fun p hp => by cases hp; rfl, fun p hp => by cases hp; rfl⟩
theorem busReady_noMiso : BusReady (cfg noMiso) swPins := ⟨rfl, fun p hp => by cases hp; rfl, fun p hp => by cases hp⟩
theorem busReady_noMosi : BusReady (cfg noMosi) swPins := ⟨rfl, fun p hp => (by cases hp), fun p hp => by cases hp; rfl⟩
theorem ready_soft (miso : List Level) (on : Bool) : FrameReady (softHandle (on := on)) (soft (miso := miso) (on := on)) :=
  ⟨⟨rfl, rfl, busReady_soft, rfl⟩, fun _ => rfl⟩
theorem ready_noMiso : FrameReady (softHandle (cfg noMiso)) (soft (cfg noMiso)) :=
  ⟨⟨rfl, rfl, busReady_noMiso, rfl⟩, fun _ => rfl⟩
theorem ready_noMosi : FrameReady (softHandle (cfg noMosi)) (soft (cfg noMosi)) :=
  ⟨⟨rfl, rfl, busReady_noMosi, rfl⟩, fun _ => rfl⟩
theorem ready_hard (bytes : List Byte) (on : Bool) : FrameReady (hardHandle on) (hard bytes on) :=
  ⟨⟨rfl, rfl, trivial, rfl⟩, fun _ => rfl⟩
theorem inv_soft : Inv soft := by
  refine ⟨by decide, rfl, fun h hh => ?_⟩
  cases hh
  exact ⟨by unfold PinsDistinct; decide, fun _ => busReady_soft, fun _ => rfl⟩
theorem inv_hard : Inv hard := by
  refine ⟨by decide, rfl, fun h hh => ?_⟩
  cases hh
  exact ⟨by unfold PinsDistinct; decide, fun _ => trivial, fun _ => rfl⟩
theorem good_buf (bs : List Byte) : ¬ BadSrc (buf bs) := by simp [BadSrc, buf]
theorem good_null : ¬ BadSrc ⟨none, 0⟩ := by simp [BadSrc]

theorem witness_EncodeThenDecode :
    (Instr.constructSw (some 255) 255 none (some 0) 4294967295 .lsbFirst 3).wf = true ∧
    (Instr.constructHw (some 255) 4294967295 .msbFirst 3 255).wf = true ∧
    (Instr.read ⟨some 65535, 65535⟩ 0).wf = true ∧ (Instr.repeated 0 65535 (buf [])).wf = true ∧
    (Instr.write (buf [1, 2]) (buf [3]) true).wf = true := by decide
theorem witness_DecodeThenEncode : decode [0x0E, 0xC3, 0x02] = .ok (.writeAndRead 0xC3, [0x02]) := rfl
theorem witness_MalformedDescriptorsRefused :
    (0x10 ≤ (0x10#8).toNat ∧ 0x10 ≤ (0xFF#8).toNat) ∧ (1 < (0x02#8).toNat ∧ 1 < (0xFF#8).toNat) ∧
    (0x20 ≤ (0x20#8).toNat ∧ 0x20 ≤ (0xFF#8).toNat) ∧ ((0x08#8).getLsbD 3 = true ∧ (0x10#8).getLsbD 4 = true) ∧
    ((0x11#8).getLsbD 3 = false ∧ 0x0B#8 ≠ 0xFF#8) ∧ (0x09#8).getLsbD 4 = false ∧ 0xFE#8 ≠ 0xFF#8 := by decide
theorem witness_StepRunsIssuedOperation :
    (State.reset.seq = none ∧ { State.reset with pending := [.descriptor [0x02], .descriptor [0x0F]] }.pending =
      .descriptor [0x02] :: [.descriptor [0x0F]] ∧ decode [0x02] = .ok (.beginInit, [])) ∧
    { State.reset with pending := [.call .destroy] }.pending = .call .destroy :: [] := ⟨⟨rfl, rfl, rfl⟩, rfl⟩
theorem witness_TableWordsRun : decodeTableWord 8 0x02 = some .beginInit ∧ decodeTableWord 8 0x08 =
    some (.write (buf []) (buf []) false) := ⟨rfl, rfl⟩
theorem witness_StepWaitsOrIsStuck : State.reset.seq = none ∧ State.reset.pending = [] ∧
    (State.reset.start .destroy).seq ≠ none := ⟨rfl, rfl, by simp [State.start, State.setSeq]⟩
theorem witness_StepKeepsInv : ∃ t, Inv { soft with pending := [.call (.writeAndRead 1)] } ∧
    step { soft with pending := [.call (.writeAndRead 1)] } = .next t := by
  obtain ⟨t, ht⟩ := next_of_isSome (x := step { soft with pending := [.call (.writeAndRead 1)] }) (by rfl)
  exact ⟨t, ⟨inv_soft.canonical, rfl, inv_soft.handle⟩, ht⟩
theorem witness_CanonicalPinsAreEqual : pinsWf swPins = true ∧ ∀ p, pinGet swPins p = pinGet swPins p :=
  ⟨by decide, fun _ => rfl⟩
theorem witness_ConstructHwMakesHandle : (3 : Nat) < 4 ∧ ∃ t, exec (.constructHw (some 10) 0 .lsbFirst 3 0) State.reset = .next t :=
  ⟨by decide, _, rfl⟩
theorem witness_ConstructSwMakesHandle : (3 : Nat) < 4 ∧
    ([10, 13] ++ ((some 12 : Option Nat).toList ++ (some 11 : Option Nat).toList)).Nodup ∧
    ([10, 13] ++ ((none : Option Nat).toList ++ (some 11 : Option Nat).toList)).Nodup ∧
    ([10, 13] ++ ((some 12 : Option Nat).toList ++ (none : Option Nat).toList)).Nodup ∧
    ([10, 13] ++ ((none : Option Nat).toList ++ (none : Option Nat).toList)).Nodup := by decide
theorem witness_ContractViolationsRefused :
    (4 ≤ 4 ∨ some 10 = (none : Option Nat)) ∧ (4 ≤ 0 ∨ (none : Option Nat) = none) ∧
    ((some 10 : Option Nat).toList ++ 13 :: ((some 12 : Option Nat).toList ++ (some 11 : Option Nat).toList)).Nodup ∧
    ((none : Option Nat).toList ++ 13 :: ((some 12 : Option Nat).toList ++ (none : Option Nat).toList)).Nodup := by decide
theorem witness_EqualPinsRefused : (3 : Nat) < 4 ∧
    ¬ ([10, 10] ++ ((none : Option Nat).toList ++ (none : Option Nat).toList)).Nodup ∧
    ¬ ([10, 13] ++ ((some 11 : Option Nat).toList ++ (some 11 : Option Nat).toList)).Nodup ∧
    ¬ ([10, 13] ++ ((some 13 : Option Nat).toList ++ (none : Option Nat).toList)).Nodup := by decide
theorem witness_BeginConfigures :
    (built.handle = some ⟨cfg swBus, true, false⟩ ∧ PinsDistinct (cfg swBus) ∧ PrimitivesReturn built) ∧
    (soft.handle = some softHandle ∧ PrimitivesReturn soft) ∧
    ((built (.hardware 0) false).handle = some ⟨cfg (.hardware 0), false, false⟩ ∧ PinsDistinct (cfg (.hardware 0)) ∧
      PrimitivesReturn (built (.hardware 0) false)) :=
  ⟨⟨rfl, by unfold PinsDistinct; decide, rfl⟩, ⟨rfl, rfl⟩, ⟨rfl, by unfold PinsDistinct; decide, rfl⟩⟩
theorem witness_EndReleasesPeripheralOnly :
    (hard.handle = some hardHandle ∧ hardHandle.cfg.bus = .hardware 0 ∧ hardHandle.isInitialized = true ∧
      PrimitivesReturn hard) ∧ (built.handle = some ⟨cfg swBus, true, false⟩ ∧ (cfg swBus).bus = .software ⟨13, some 11, some 12⟩) :=
  ⟨⟨rfl, rfl, rfl, rfl⟩, rfl, rfl⟩
theorem witness_TransactionSignals :
    (hard.handle = some hardHandle ∧ hardHandle.cfg.bus = .hardware 0 ∧ hardHandle.isInitialized = true ∧
      PrimitivesReturn hard) ∧ (built.handle = some ⟨cfg swBus, true, false⟩ ∧ (cfg swBus).bus = .software ⟨13, some 11, some 12⟩) :=
  ⟨⟨rfl, rfl, rfl, rfl⟩, rfl, rfl⟩
theorem witness_CsTogglesWriteTheFlag : soft.handle = some softHandle ∧
    (built (.hardware 0) false).handle = some ⟨cfg (.hardware 0), false, false⟩ := ⟨rfl, rfl⟩
theorem witness_DestroyLeavesPins : soft.handle = some softHandle := rfl
theorem witness_NoHandleRefused : State.reset.handle = none ∧ Instr.isConstructor .destroy = false ∧ GoodBuffers .destroy ∧
    GoodBuffers (.transfer (buf [1])) := ⟨rfl, rfl, trivial, good_buf _⟩
theorem witness_NotInitializedRefused :
    (built.handle = some ⟨cfg swBus, true, false⟩ ∧ (Handle.mk (cfg swBus) true false).isInitialized = false ∧
      IsFramed (.write (buf [1]) ⟨none, 0⟩ false) ∧ GoodBuffers (.write (buf [1]) ⟨none, 0⟩ false)) ∧
    (built (.hardware 0)).handle = some ⟨cfg (.hardware 0), true, false⟩ ∧ (cfg (.hardware 0)).bus = .hardware 0 ∧
      GoodBuffers .endRelease :=
  ⟨⟨rfl, rfl, by simp [IsFramed], good_buf _, good_null⟩, rfl, rfl, trivial⟩
theorem witness_BadBuffersRefused : ¬ GoodBuffers (.transfer ⟨none, 1⟩) ∧ Ready hardHandle hard ∧
    FrameReady hardHandle hard ∧ ¬ GoodBuffers (.read ⟨some 1, 2⟩ 0) ∧ ¬ GoodBuffers (.write (buf [1]) ⟨some [1], 2⟩ true) ∧
    ¬ GoodBuffers (.writeThenRead (buf []) ⟨none, 1⟩ 0) ∧ ¬ GoodBuffers (.repeated 0 1 ⟨none, 1⟩) := by
  refine ⟨?_, (ready_hard _ _).toReady, ready_hard _ _, ?_, ?_, ?_, ?_⟩ <;> simp [GoodBuffers, BadSrc, BadDst, buf]
theorem witness_UnconfiguredChipSelectRefused : uncontrolled.handle = some hardHandle ∧ hardHandle.isInitialized = true ∧
    PrimitivesReturn uncontrolled ∧ hardHandle.csControlEnabled = true ∧ (uncontrolled.pin 10).dir ≠ .output ∧
    ¬ BadSrc (buf [1]) ∧ ¬ BadSrc ⟨none, 0⟩ ∧ ¬ BadDst ⟨some 2, 2⟩ :=
  ⟨rfl, rfl, rfl, rfl, by decide, good_buf _, good_null, by simp [BadDst]⟩
theorem witness_TransferRunsTheEngine : Ready softHandle soft ∧ Ready (softHandle (cfg noMiso)) (soft (cfg noMiso)) ∧
    Ready hardHandle hard ∧ ¬ BadSrc ⟨some [1, 2], 1⟩ ∧ ¬ BadSrc ⟨none, 0⟩ :=
  ⟨(ready_soft _ _).toReady, ready_noMiso.toReady, (ready_hard _ _).toReady, by simp [BadSrc], good_null⟩
theorem witness_TransferByteReturnsTheByte : Ready softHandle soft ∧ Ready (softHandle (cfg noMosi)) (soft (cfg noMosi)) ∧
    Ready hardHandle hard := ⟨(ready_soft _ _).toReady, ready_noMosi.toReady, (ready_hard _ _).toReady⟩
theorem witness_HardwareTransferIsOneCall : Ready hardHandle hard ∧ hardHandle.cfg.bus = .hardware 0 ∧ [(1 : Byte)] ≠ [] :=
  ⟨(ready_hard _ _).toReady, rfl, by simp⟩
theorem witness_LoopbackReturnsTheBuffer : ∃ t es, Ready softHandle (soft (miso := answers 0xA5)) ∧
    softHandle.cfg.bus = .software ⟨13, some 11, some 12⟩ ∧ exec (.transfer (buf [0xA5])) (soft (miso := answers 0xA5)) = .next t ∧
    t.trace = (soft (miso := answers 0xA5)).trace ++ es ∧ isLoopback (latchesOf softHandle.cfg (soft).pins) es = true := by
  have h : (after (exec (.transfer (buf [0xA5])) (soft (miso := answers 0xA5)))).map
    (fun t => isLoopback (latchesOf softHandle.cfg (soft).pins) t.trace) = some true := by rfl
  obtain ⟨t, ht⟩ := next_of_isSome (x := exec (.transfer (buf [0xA5])) (soft (miso := answers 0xA5))) (by rfl)
  rw [ht] at h
  exact ⟨t, t.trace, (ready_soft _ _).toReady, rfl, ht, rfl, by simpa [after] using h⟩
theorem witness_DelaysAreHalfPeriods :
    (∃ t, (soft (cfg swBus 0 .msbFirst 250000)).handle = some (softHandle (cfg swBus 0 .msbFirst 250000)) ∧
      exec (.transferByte 1) (soft (cfg swBus 0 .msbFirst 250000)) = .next t ∧ .delay 2 ∈ t.trace) ∧
    Ready softHandle soft ∧ softHandle.cfg.bus = .software ⟨13, some 11, some 12⟩ := by
  refine ⟨?_, (ready_soft _ _).toReady, rfl⟩
  have h : (after (exec (.transferByte 1) (soft (cfg swBus 0 .msbFirst 250000)))).map
    (fun t => t.trace.head?) = some (some (.delay 2)) := by rfl
  obtain ⟨t, ht⟩ := next_of_isSome (x := exec (.transferByte 1) (soft (cfg swBus 0 .msbFirst 250000))) (by rfl)
  rw [ht] at h
  exact ⟨t, rfl, ht, List.mem_of_mem_head? (by simpa [after] using h)⟩
theorem witness_SoftwareEventCounts : ∃ t es, Ready softHandle soft ∧
    softHandle.cfg.bus = .software ⟨13, some 11, some 12⟩ ∧ exec (.transfer ⟨some [1], 1⟩) soft = .next t ∧
    t.trace = soft.trace ++ es := by
  obtain ⟨t, es, h⟩ := runs (i := .transfer ⟨some [1], 1⟩) (s := soft) (by rfl) rfl
  exact ⟨t, es, (ready_soft _ _).toReady, rfl, h⟩
theorem witness_ClockLowAndLastBitAfterTransfer : ∃ t, FrameReady softHandle soft ∧ PinsDistinct softHandle.cfg ∧
    softHandle.cfg.bus = .software ⟨13, some 11, some 12⟩ ∧ exec (.writeAndRead 1) soft = .next t ∧
    txStream (.writeAndRead 1) = [] ++ [1] := by
  obtain ⟨t, _, h, _⟩ := runs (i := .writeAndRead 1) (s := soft) (by rfl) rfl
  exact ⟨t, ready_soft _ _, by unfold PinsDistinct; decide, rfl, h, rfl⟩
theorem witness_EngineLeavesFramingAlone : (∃ t es, soft.handle = some softHandle ∧ exec (.transfer (buf [1])) soft = .next t ∧
    t.trace = soft.trace ++ es) ∧ ∃ t es, hard.handle = some hardHandle ∧ exec (.transferByte 1) hard = .next t ∧
    t.trace = hard.trace ++ es := by
  obtain ⟨t, es, h⟩ := runs (i := .transfer (buf [1])) (s := soft) (by rfl) rfl
  obtain ⟨t', es', h'⟩ := runs (i := .transferByte 1) (s := hard) (by rfl) rfl
  exact ⟨⟨t, es, rfl, h⟩, t', es', rfl, h'⟩
theorem witness_WriteSendsPrefixAndBuffer : FrameReady softHandle soft ∧ FrameReady (hardHandle false) (hard [] false) ∧
    ¬ BadSrc (buf [1]) ∧ ¬ BadSrc ⟨none, 0⟩ := ⟨ready_soft _ _, ready_hard _ _, good_buf _, good_null⟩
theorem witness_ReadFillsAndTransfersOnce : FrameReady (softHandle (cfg noMiso)) (soft (cfg noMiso)) ∧
    FrameReady hardHandle hard ∧ ¬ BadDst ⟨some 2, 2⟩ ∧ ¬ BadDst ⟨none, 0⟩ :=
  ⟨ready_noMiso, ready_hard _ _, by simp [BadDst], by simp [BadDst]⟩
theorem witness_WriteThenReadKeepsThePhasesApart : FrameReady softHandle soft ∧ FrameReady hardHandle hard ∧
    ¬ BadSrc (buf [1]) ∧ ¬ BadDst ⟨some 2, 2⟩ := ⟨ready_soft _ _, ready_hard _ _, good_buf _, by simp [BadDst]⟩
theorem witness_RepeatedSendsCopies : FrameReady (softHandle (on := false)) (soft (on := false)) ∧ FrameReady hardHandle hard ∧
    ¬ BadSrc (buf [1]) ∧ ¬ BadSrc ⟨none, 0⟩ := ⟨ready_soft _ _, ready_hard _ _, good_buf _, good_null⟩
theorem witness_WriteAndReadSelectsOneByte : FrameReady (softHandle (cfg noMosi)) (soft (cfg noMosi)) ∧
    FrameReady hardHandle hard := ⟨ready_noMosi, ready_hard _ _⟩
theorem witness_SuccessIsAlwaysTrue : ∃ t, Instr.returnsSuccess .beginInit = true ∧ exec .beginInit built = .next t :=
  ⟨_, rfl, rfl⟩
theorem witness_ChipSelectBracketsTheStream : (∃ t es, soft.handle = some softHandle ∧ PinsDistinct softHandle.cfg ∧
    IsFramed (.writeAndRead 1) ∧ exec (.writeAndRead 1) soft = .next t ∧ t.trace = soft.trace ++ es ∧
    softHandle.csControlEnabled = true) ∧
    ∃ t es, (hard [] false).handle = some (hardHandle false) ∧ PinsDistinct (hardHandle false).cfg ∧
    IsFramed (.read ⟨some 1, 1⟩ 0) ∧ exec (.read ⟨some 1, 1⟩ 0) (hard [] false) = .next t ∧
    t.trace = (hard [] false).trace ++ es ∧ (hardHandle false).csControlEnabled = false := by
  obtain ⟨t, es, h, h'⟩ := runs (i := .writeAndRead 1) (s := soft) (by rfl) rfl
  obtain ⟨u, es', k, k'⟩ := runs (i := .read ⟨some 1, 1⟩ 0) (s := hard [] false) (by rfl) rfl
  exact ⟨⟨t, es, rfl, by unfold PinsDistinct; decide, by simp [IsFramed], h, h', rfl⟩,
    u, es', rfl, by unfold PinsDistinct; decide, by simp [IsFramed], k, k', rfl⟩
theorem witness_EmptyStreamsStillFrame : FrameReady hardHandle hard ∧ FrameReady softHandle soft ∧
    IsFramed (.write (buf []) ⟨none, 0⟩ true) ∧ txStream (.write (buf []) ⟨none, 0⟩ true) = [] ∧ ¬ BadSrc (buf []) ∧
    ¬ BadSrc ⟨none, 0⟩ ∧ IsFramed (.writeThenRead (buf []) ⟨some 0, 0⟩ 0) ∧
    txStream (.writeThenRead (buf []) ⟨some 0, 0⟩ 0) = [] ∧ ¬ BadDst ⟨some 0, 0⟩ :=
  ⟨ready_hard _ _, ready_soft _ _, by simp [IsFramed], rfl, good_buf _, good_null, by simp [IsFramed], rfl,
    by simp [BadDst]⟩
theorem witness_WireShowsTheStream : (∃ t es, FrameReady softHandle soft ∧ exec (.transfer (buf [1])) soft = .next t ∧
    t.trace = soft.trace ++ es ∧ softHandle.cfg.bus = .software ⟨13, some 11, some 12⟩) ∧
    ∃ t es, FrameReady hardHandle hard ∧ exec (.write (buf [1]) (buf [2]) true) hard = .next t ∧ t.trace = hard.trace ++ es ∧
    hardHandle.cfg.bus = .hardware 0 := by
  obtain ⟨t, es, h, h'⟩ := runs (i := .transfer (buf [1])) (s := soft) (by rfl) rfl
  obtain ⟨u, es', k, k'⟩ := runs (i := .write (buf [1]) (buf [2]) true) (s := hard) (by rfl) rfl
  exact ⟨⟨t, es, ready_soft _ _, h, h', rfl⟩, u, es', ready_hard _ _, k, k', rfl⟩
theorem witness_ByteByByteIsWireEquivalent : ∃ t es, FrameReady hardHandle hard ∧ IsFramed (.repeated 1 2 (buf [3])) ∧
    exec (.repeated 1 2 (buf [3])) hard = .next t ∧ t.trace = hard.trace ++ es := by
  obtain ⟨t, es, h⟩ := runs (i := .repeated 1 2 (buf [3])) (s := hard) (by rfl) rfl
  exact ⟨t, es, ready_hard _ _, by simp [IsFramed], h⟩
theorem witness_OnlyTheirOwnOperationsWriteTheHandle : ∃ t, built.handle = some ⟨cfg swBus, true, false⟩ ∧
    exec .beginInit built = .next t ∧ Instr.isConstructor .beginInit = false ∧ Instr.beginInit ≠ .destroy :=
  ⟨_, rfl, rfl, rfl, by decide⟩
theorem witness_DisabledChipSelectIsNeverDriven : ∃ t es, (hard [] false).handle = some (hardHandle false) ∧
    (hardHandle false).csControlEnabled = false ∧ exec (.writeAndRead 1) (hard [] false) = .next t ∧
    t.trace = (hard [] false).trace ++ es := by
  obtain ⟨t, es, h⟩ := runs (i := .writeAndRead 1) (s := hard [] false) (by rfl) rfl
  exact ⟨t, es, rfl, rfl, h⟩
theorem witness_ModesDoNotMix : (∃ t es, soft.handle = some softHandle ∧ exec (.writeAndRead 1) soft = .next t ∧
    t.trace = soft.trace ++ es ∧ softHandle.cfg.bus = .software ⟨13, some 11, some 12⟩) ∧
    ∃ t es, hard.handle = some hardHandle ∧ exec .endRelease hard = .next t ∧ t.trace = hard.trace ++ es ∧
    hardHandle.cfg.bus = .hardware 0 := by
  obtain ⟨t, es, h, h'⟩ := runs (i := .writeAndRead 1) (s := soft) (by rfl) rfl
  obtain ⟨u, es', k, k'⟩ := runs (i := .endRelease) (s := hard) (by rfl) rfl
  exact ⟨⟨t, es, rfl, h, h', rfl⟩, u, es', rfl, k, k', rfl⟩
theorem witness_TraceOnlyGrows : ∃ t, exec .beginTransaction hard = .next t := ⟨_, rfl⟩
theorem witness_SentDataIgnoresReceivedData : ∃ t es, (⟨[true, true], 5, [], 0, none⟩ : Env).stall = soft.env.stall ∧
    exec (.transferByte 0x5A) soft = .next t ∧ t.trace = soft.trace ++ es := by
  obtain ⟨t, es, h⟩ := runs (i := .transferByte 0x5A) (s := soft) (by rfl) rfl
  exact ⟨t, es, rfl, h⟩
theorem witness_HighModesActAsLowModes : ∃ t, soft.handle = some softHandle ∧
    softHandle.cfg.bus = .software ⟨13, some 11, some 12⟩ ∧ (2#2).getLsbD 0 = softHandle.cfg.dataMode.getLsbD 0 ∧
    exec (.transferByte 1) soft = .next t := by
  obtain ⟨t, _, h, _⟩ := runs (i := .transferByte 1) (s := soft) (by rfl) rfl
  exact ⟨t, rfl, rfl, rfl, h⟩
theorem witness_WithoutDataInBuffersKeepWhatWasSent : ∃ t u, (soft (cfg noMiso)).handle = some (softHandle (cfg noMiso)) ∧
    (cfg noMiso).bus = .software ⟨13, some 11, none⟩ ∧ exec (.transferByte 0x5A) (soft (cfg noMiso)) = .next t ∧
    exec (.read ⟨some 1, 1⟩ 7) (soft (cfg noMiso)) = .next u := by
  obtain ⟨t, _, h, _⟩ := runs (i := .transferByte 0x5A) (s := soft (cfg noMiso)) (by rfl) rfl
  obtain ⟨u, _, k, _⟩ := runs (i := .read ⟨some 1, 1⟩ 7) (s := soft (cfg noMiso)) (by rfl) rfl
  exact ⟨t, u, rfl, rfl, h, k⟩
theorem witness_OperationsEndIfPrimitivesReturn : PrimitivesReturn hard ∧ ∃ t, exec .endTransaction hard = .next t :=
  ⟨rfl, _, rfl⟩
theorem witness_HangLeavesTheMachineStuck : ∃ u, exec .endRelease { hard with env := ⟨[], 0, [], 0, some 0⟩ } =
    .fault (.neverReturns u) := ⟨_, rfl⟩
theorem witness_ConstantsOfTheConfiguration : ∃ t, soft.handle = some softHandle ∧ exec .disableCsToggle soft = .next t ∧
    Instr.isConstructor .disableCsToggle = false ∧ Instr.disableCsToggle ≠ .destroy := ⟨_, rfl, rfl, rfl, by decide⟩
/-- The pins of `swBus`. -/
def sw : SwPins := ⟨13, some 11, some 12⟩
theorem witness_SlotRegisters : (∃ t, bitSlot (cfg swBus) sw soft = .next t) ∧
    ∃ t, bitSlots (cfg swBus) sw 8 (soft.loadByte (cfg swBus) 0xA5) = .next t :=
  ⟨next_of_isSome (by rfl), next_of_isSome (by rfl)⟩
theorem witness_SlotTracksDataOut : PinsDistinct (cfg swBus) ∧ (cfg swBus).bus = .software sw ∧ 11 ∈ sw.mosi ∧
    ((cfg swBus).sequenceB = false ∧ (∃ t, bitSlot (cfg swBus) sw soft = .next t) ∧
      soft.regs.lastMosi = !maskedBit 0x80 0x80 ∧
      ∃ t, bitSlot (cfg swBus) sw (soft.setRegs ⟨0x80, 0, 0x80, false⟩) = .next t) ∧
    ((soft.setPin 11 ⟨.output, some false⟩).pin 11).out = some soft.regs.lastMosi ∧
    (cfg swBus 1).sequenceB = true ∧ ∃ t, bitSlot (cfg swBus 1) sw soft = .next t :=
  ⟨by unfold PinsDistinct; decide, rfl, rfl, ⟨rfl, next_of_isSome (by rfl), rfl, next_of_isSome (by rfl)⟩, rfl, rfl,
    next_of_isSome (by rfl)⟩
theorem witness_TrackerCarriesAcrossBytes : ∃ r, PinsDistinct (cfg swBus) ∧ (cfg swBus).bus = .software sw ∧
    (cfg swBus).sequenceB = false ∧ ([0xA5] ++ [0x01] : List Byte).head? = some 0xA5 ∧
    soft.regs.lastMosi = (!(0xA5 : Byte).getLsbD (slotBit .msbFirst 0)) ∧
    swBytes (cfg swBus) sw ([0xA5] ++ [0x01]) soft = .next r ∧ 11 ∈ sw.mosi := by
  obtain ⟨r, h⟩ := next_of_isSome (x := swBytes (cfg swBus) sw ([0xA5] ++ [0x01]) soft) (by rfl)
  exact ⟨r, by unfold PinsDistinct; decide, rfl, rfl, rfl, rfl, h, rfl⟩

end Sys2Proof.Tests
end

/-! PROOF. O45: byte-by-byte invocations inside a frame are wire-equivalent to one invocation over the stream (00_scope.md R10,
42_transaction_framer.md R191). On the wire a trace is a class of `wireForm`; the two ways differ in Hardware mode by a run of `PT`
events (clause b), in Software mode by the first data-out write of each byte (clause a). -/

namespace Sys2Proof.Machine

/-! The wire form of a trace, event by event. -/

/-- Writing what a latch holds changes nothing. -/
theorem set_of_get {l : Latches} {r : Role} {v : Level} (h : l.get r = some v) : l.set v r = l := by
  obtain ⟨cs, clk, mosi⟩ := l
  cases r <;> simp_all [Latches.get, Latches.set]

/-- An event is kept unless it writes what the latch holds; the rest is judged from the latches after it. -/
theorem dropRedundant_cons (l : Latches) (e : Event) (es : List Event) :
    dropRedundant l (e :: es) = dropRedundant l [e] ++ dropRedundant (l.after e) es := by
  cases e with
  | write r v =>
    by_cases h : l.get r = some v
    · simp [dropRedundant, Latches.after, h, set_of_get h]
    · simp [dropRedundant, Latches.after, h]
  | _ => rfl

/-- The latches after a trace. -/
def Latches.afterAll (l : Latches) (es : List Event) : Latches := es.foldl Latches.after l

@[simp] theorem afterAll_nil (l : Latches) : l.afterAll [] = l := rfl
@[simp] theorem afterAll_cons (l : Latches) (e : Event) (es : List Event) :
    l.afterAll (e :: es) = (l.after e).afterAll es := rfl
@[simp] theorem afterAll_append (l : Latches) (es es' : List Event) :
    l.afterAll (es ++ es') = (l.afterAll es).afterAll es' := List.foldl_append

theorem dropRedundant_append (es es' : List Event) : ∀ l : Latches,
    dropRedundant l (es ++ es') = dropRedundant l es ++ dropRedundant (l.afterAll es) es' := by
  induction es with
  | nil => intro l; rfl
  | cons e es ih =>
    intro l
    rw [List.cons_append, dropRedundant_cons, ih, dropRedundant_cons l e es, List.append_assoc, afterAll_cons]

/-- A deleted write changes no latch. -/
theorem afterAll_dropRedundant (es : List Event) : ∀ l : Latches, l.afterAll (dropRedundant l es) = l.afterAll es := by
  induction es with
  | nil => intro l; rfl
  | cons e es ih =>
    intro l
    have he : l.afterAll (dropRedundant l [e]) = l.after e := by
      cases e with
      | write r v =>
        by_cases h : l.get r = some v
        · simp [dropRedundant, Latches.after, h, set_of_get h]
        · simp [dropRedundant, h]
      | _ => rfl
    rw [dropRedundant_cons, afterAll_append, he, ih, afterAll_cons]

/-- Traces that differ in redundant writes only still do when more events follow. -/
theorem dropRedundant_append_congr {l : Latches} {xs ys : List Event} (h : dropRedundant l xs = dropRedundant l ys)
    (post : List Event) : dropRedundant l (xs ++ post) = dropRedundant l (ys ++ post) := by
  rw [dropRedundant_append, dropRedundant_append, ← afterAll_dropRedundant xs, ← afterAll_dropRedundant ys, h]

theorem wireForm_transfer (l : Latches) (s r : List Byte) (es : List Event) :
    wireForm l (.transfer s r :: es) = consTransfer s r (wireForm l es) := rfl

/-- Two `PT` events in a row are one. -/
theorem consTransfer_consTransfer (s r s' r' : List Byte) (es : List Event) :
    consTransfer s r (consTransfer s' r' es) = consTransfer (s ++ s') (r ++ r') es := by
  cases es with
  | nil => rfl
  | cons e es => cases e <;> simp [consTransfer]

theorem mergeTransfers_append_congr {xs ys : List Event} (h : mergeTransfers xs = mergeTransfers ys)
    (pre : List Event) : mergeTransfers (pre ++ xs) = mergeTransfers (pre ++ ys) := by
  induction pre with
  | nil => exact h
  | cons e pre ih => cases e <;> simp [mergeTransfers, ih]

/-- What is wire-equivalent from any latches still is after the same events. -/
theorem wireForm_append_congr {xs ys : List Event} (h : ∀ l, wireForm l xs = wireForm l ys) (pre : List Event)
    (l : Latches) : wireForm l (pre ++ xs) = wireForm l (pre ++ ys) := by
  unfold wireForm
  rw [dropRedundant_append, dropRedundant_append]
  exact mergeTransfers_append_congr (h _) _

/-- Transfers that are wire-equivalent whatever follows them may stand for each other inside a frame. -/
theorem frameEvents_wireEq {c : Cfg} {on : Bool} {xs ys : List Event}
    (h : ∀ l post, wireForm l (xs ++ post) = wireForm l (ys ++ post)) (l : Latches) :
    wireEq l (frameEvents c on xs) (frameEvents c on ys) := by
  have inside : ∀ pre post, wireForm l (pre ++ (xs ++ post)) = wireForm l (pre ++ (ys ++ post)) := fun pre post =>
    wireForm_append_congr (fun l => h l post) pre l
  unfold wireEq frameEvents selectedEvents
  cases c.bus with
  | hardware p =>
    simpa only [List.append_assoc, List.cons_append, List.nil_append] using
      inside (.beginSession c.freq c.order c.dataMode :: csEvents on false) (csEvents on true ++ [.endSession])
  | software w => simpa only [List.append_assoc] using inside (csEvents on false) (csEvents on true)

/-! Hardware mode: a run of `PT` events. -/

@[simp] theorem engineEvents_nil (c : Cfg) (e : Env) : engineEvents c [] e = [] := by
  unfold engineEvents; cases c.bus <;> simp [streamEvents]

theorem engineEvents_hardware {c : Cfg} {p : PeriphRef} (hb : c.bus = .hardware p) (b : Byte) (bs : List Byte) (e : Env) :
    engineEvents c (b :: bs) e = [.transfer (b :: bs) (e.bytes (b :: bs).length)] := by
  simp [engineEvents, hb]

/-- A call for the first byte and a call for the others make the run that one call makes. -/
theorem wireForm_hardware_cons {c : Cfg} {p : PeriphRef} (hb : c.bus = .hardware p) (b : Byte) (bs : List Byte) (e : Env)
    (l : Latches) (post : List Event) :
    wireForm l (engineEvents c [b] e ++ (engineEvents c bs (engineEnv c [b] e) ++ post)) =
      wireForm l (engineEvents c (b :: bs) e ++ post) := by
  cases bs with
  | nil => simp
  | cons b' bs =>
    have henv : engineEnv c [b] e = e.dropBytes 1 := by simp [engineEnv, hb]
    have hr : e.bytes (b :: b' :: bs).length = e.bytes 1 ++ (e.dropBytes 1).bytes (b' :: bs).length := by
      rw [← bytes_add, List.length_cons, Nat.add_comm]
    simp only [engineEvents_hardware hb, List.cons_append, List.nil_append, wireForm_transfer,
      consTransfer_consTransfer, henv, hr, List.length_singleton]

/-! Software mode: the first data-out write of a byte. -/

/-- The latch of data-out, where there is one, holds the bit before: what sequence A's tracker stands for (R155). -/
def ShowsLast (w : SwPins) (l : Latches) (last : Option Level) : Prop :=
  w.mosi.isSome = true → ∀ b ∈ last, l.mosi = some b

theorem afterAll_waitEvents (c : Cfg) (l : Latches) : l.afterAll (waitEvents c) = l := by
  unfold waitEvents; split <;> rfl

theorem afterAll_sampleEvents (w : SwPins) (v : Level) (l : Latches) : l.afterAll (sampleEvents w v) = l := by
  unfold sampleEvents; split <;> rfl

/-- Whether a slot drives a bit that data-out shows already does not matter on the wire. -/
theorem dropRedundant_slotEvents {c : Cfg} {w : SwPins} {l : Latches} {last : Option Level} (h : ShowsLast w l last)
    (bit v : Level) :
    dropRedundant l (slotEvents c w (!decide (last = some bit)) bit v) = dropRedundant l (slotEvents c w true bit v) := by
  by_cases hl : last = some bit
  · subst hl
    unfold slotEvents
    split
    · rfl
    · have hd : dropRedundant l (driveEvents w true bit) = dropRedundant l (driveEvents w false bit) := by
        cases hm : w.mosi.isSome
        · simp [driveEvents, hm]
        · simp [driveEvents, hm, dropRedundant, Latches.get, h hm bit rfl]
      simp only [List.append_assoc, decide_true, Bool.not_true]
      rw [dropRedundant_append, dropRedundant_append (waitEvents c), afterAll_waitEvents,
        dropRedundant_append_congr hd]
  · simp [hl]

/-- After a slot data-out shows its bit. -/
theorem showsLast_slotEvents {c : Cfg} {w : SwPins} {l : Latches} {last : Option Level} (h : ShowsLast w l last)
    (bit v : Level) :
    ShowsLast w (l.afterAll (slotEvents c w (!decide (last = some bit)) bit v)) (some bit) := by
  intro hm b hb
  obtain rfl : bit = b := Option.some.inj hb
  rw [← afterAll_dropRedundant, dropRedundant_slotEvents h, afterAll_dropRedundant]
  unfold slotEvents
  split <;> simp [afterAll_waitEvents, afterAll_sampleEvents, driveEvents, hm, Latches.after, Latches.set]

/-- The first slot's drive may be left to what data-out shows: a stream after the bit `last` is the stream after none. -/
theorem dropRedundant_streamEvents {c : Cfg} {w : SwPins} {l : Latches} {last : Option Level} (h : ShowsLast w l last)
    (ans : Nat → Level) (k : Nat) (bits : List Level) :
    dropRedundant l (streamEvents c w ans last k bits) = dropRedundant l (streamEvents c w ans none k bits) := by
  cases bits with
  | nil => rfl
  | cons bit bits => exact dropRedundant_append_congr (by simpa using dropRedundant_slotEvents h bit (ans k)) _

/-- After a stream data-out shows its last bit. -/
theorem showsLast_streamEvents {c : Cfg} {w : SwPins} (ans : Nat → Level) (bits : List Level) :
    ∀ {l : Latches} {last : Option Level} (k : Nat), ShowsLast w l last →
      ShowsLast w (l.afterAll (streamEvents c w ans last k bits)) (bits.getLast?.or last) := by
  induction bits with
  | nil => intro l last k h; exact h
  | cons bit bits ih =>
    intro l last k h
    have hlast : (bit :: bits).getLast?.or last = bits.getLast?.or (some bit) := by simp [List.getLast?_cons]
    rw [streamEvents, afterAll_append, hlast]
    exact ih (k + 1) (showsLast_slotEvents h bit (ans k))

/-- The slots read nothing of the answers but the levels from theirs on. -/
theorem streamEvents_congr {c : Cfg} {w : SwPins} {ans ans' : Nat → Level} (bits : List Level) :
    ∀ (last : Option Level) (k k' : Nat), (w.miso.isSome = true → ∀ j, ans (k + j) = ans' (k' + j)) →
      streamEvents c w ans last k bits = streamEvents c w ans' last k' bits := by
  induction bits with
  | nil => intro last k k' _; rfl
  | cons bit bits ih =>
    intro last k k' h
    have hslot := slotEvents_congr (c := c) (w := w) (ch := !decide (last = some bit)) (bit := bit)
      (fun _ _ => rfl) (fun hm => h hm 0)
    have htail := ih (some bit) (k + 1) (k' + 1) fun hm j => by simpa only [Nat.add_assoc] using h hm (1 + j)
    simp only [streamEvents, htail]
    exact congrArg (· ++ _) hslot

/-- An invocation on the first byte and one on the others differ from one invocation in redundant writes only. -/
theorem dropRedundant_software_cons {c : Cfg} {w : SwPins} (hb : c.bus = .software w) (b : Byte) (bs : List Byte) (e : Env)
    (l : Latches) :
    dropRedundant l (engineEvents c [b] e ++ engineEvents c bs (engineEnv c [b] e)) =
      dropRedundant l (engineEvents c (b :: bs) e) := by
  have hshift : streamEvents c w (engineEnv c [b] e).levelAt none 0 (bs.flatMap (bitsOf c.order)) =
      streamEvents c w e.levelAt none (0 + (bitsOf c.order b).length) (bs.flatMap (bitsOf c.order)) :=
    streamEvents_congr _ _ _ _ fun hm j => by simp [engineEnv, hb, hm, levelAt_dropLevels]
  have hlast := showsLast_streamEvents (c := c) (w := w) (l := l) (last := none) e.levelAt (bitsOf c.order b) 0
    (fun _ _ h => nomatch h)
  simp only [engineEvents, hb, hshift, List.flatMap_cons, List.flatMap_nil, List.append_nil, streamEvents_append]
  rw [dropRedundant_append, dropRedundant_append, dropRedundant_streamEvents hlast]

/-! Byte by byte, either mode. -/

/-- Splitting off the first byte of an invocation is not seen on the wire, whatever follows. -/
theorem wireForm_engineEvents_cons (c : Cfg) (b : Byte) (bs : List Byte) (e : Env) (l : Latches) (post : List Event) :
    wireForm l (engineEvents c [b] e ++ (engineEvents c bs (engineEnv c [b] e) ++ post)) =
      wireForm l (engineEvents c (b :: bs) e ++ post) := by
  cases hb : c.bus with
  | hardware p => exact wireForm_hardware_cons hb b bs e l post
  | software w =>
    rw [← List.append_assoc]
    exact congrArg mergeTransfers (dropRedundant_append_congr (dropRedundant_software_cons hb b bs e l) post)

/-- One invocation a byte is one invocation on the wire (R191). -/
theorem wireForm_xferEvents (c : Cfg) (bs : List Byte) : ∀ (e : Env) (l : Latches) (post : List Event),
    wireForm l (xferEvents c bs e ++ post) = wireForm l (engineEvents c bs e ++ post) := by
  induction bs with
  | nil => intro e l post; rw [engineEvents_nil]; rfl
  | cons b bs ih =>
    intro e l post
    calc wireForm l (xferEvents c (b :: bs) e ++ post)
        = wireForm l (engineEvents c [b] e ++ (xferEvents c bs (engineEnv c [b] e) ++ post)) := by
          rw [xferEvents, List.append_assoc]
      _ = wireForm l (engineEvents c [b] e ++ (engineEvents c bs (engineEnv c [b] e) ++ post)) :=
          wireForm_append_congr (fun l => ih _ l post) _ l
      _ = wireForm l (engineEvents c (b :: bs) e ++ post) := wireForm_engineEvents_cons c b bs e l post

/-! The events of the composite operations. -/

/-- What a part of an operation does in every state whose bus is ready and whose environment stands at `e`. -/
def BodyDoes {α : Type} (c : Cfg) (e : Env) (body : State → Res (α × State)) (a : α) (es : List Event) (e' : Env) :
    Prop :=
  ∀ u, BusReady c u.pins → u.env = e → ∃ t, body u = .next (a, t) ∧ Did c u t es ∧ t.env = e'

theorem engine_does (c : Cfg) {e : Env} (he : e.stall = none) (bs : List Byte) :
    BodyDoes c e (engine c bs) (engineBytes c bs e) (engineEvents c bs e) (engineEnv c bs e) := by
  rintro u hb rfl
  exact engine_did hb he bs

theorem xferAll_does (c : Cfg) {e : Env} (he : e.stall = none) (bs : List Byte) :
    BodyDoes c e (xferAll c bs) (xferBytes c bs e) (xferEvents c bs e) (engineEnv c bs e) := by
  rintro u hb rfl
  exact xferAll_did bs hb he

/-- The two phases of WRITE_THEN_READ make the events of one loop over both streams (42_transaction_framer.md R184). -/
theorem writeThenReadBody_does (c : Cfg) {e : Env} (he : e.stall = none) (ws : List Byte) (n : Nat) (fill : Byte) :
    BodyDoes c e (writeThenReadBody c ws n fill) (xferBytes c (List.replicate n fill) (engineEnv c ws e))
      (xferEvents c (ws ++ List.replicate n fill) e) (engineEnv c (ws ++ List.replicate n fill) e) := by
  rintro u hb rfl
  obtain ⟨t1, e1, d1, v1⟩ := xferAll_did ws hb he
  obtain ⟨t2, e2, d2, v2⟩ := xferAll_did (List.replicate n fill) (hb.kept d1.dirs) d1.returns
  rw [v1] at e2 d2 v2
  refine ⟨t2, by simp only [writeThenReadBody, e1, andThen_next, e2], ?_, by rw [v2, engineEnv_append]⟩
  rw [xferEvents_append]
  exact d1.trans d2

theorem FrameReady.start {h : Handle} {s : State} (hr : FrameReady h s) (op : Instr) : FrameReady h (s.start op) :=
  ⟨⟨hr.live, hr.initialized, hr.bus, hr.returns⟩, hr.cs⟩

/-- A frame of a ready handle that answers did what its body does, inside phases (a) to (e). -/
theorem FrameReady.frame_next {α : Type} {h : Handle} {s u : State} {body : State → Res (α × State)} {a a' : α}
    {es : List Event} {e : Env} (hr : FrameReady h s) (hbody : BodyDoes h.cfg s.env body a es e)
    (hx : frame h.cfg body s = .next (a', u)) :
    a' = a ∧ Did h.cfg s u (frameEvents h.cfg h.csControlEnabled es) ∧ u.env = e := by
  obtain ⟨t, ht, hd, he⟩ := frame_did hr.live hr.bus hr.cs hr.returns hbody
  cases ht.symm.trans hx
  exact ⟨rfl, hd, he⟩

/-- An operation of a ready handle that answers ran its body. -/
theorem FrameReady.operation_next {h : Handle} {s t : State} {op : Instr} {body : Handle → State → Res (Ret × State)}
    (hr : FrameReady h s) (hx : operation op s (fun h s => whenInitialized h (body h s)) = .next t) :
    ∃ r u, body h (s.start op) = .next (r, u) ∧ t = u.finish r := by
  obtain ⟨h', r, u, hs, hb, ht⟩ := operation_eq_next hx
  obtain rfl : h' = h := Option.some.inj (hs.symm.trans hr.live)
  exact ⟨r, u, (whenInitialized_eq_next.mp hb).2, ht⟩

/-- WRITE frames the byte-by-byte loop over its stream (42_transaction_framer.md R182, D10). -/
theorem execWrite_trace {h : Handle} {s t : State} {buffer lead : SrcBuf} {invert : Bool} (hr : FrameReady h s)
    (hx : execWrite buffer lead invert s = .next t) :
    t.trace = s.trace ++
      frameEvents h.cfg h.csControlEnabled (xferEvents h.cfg (txStream (.write buffer lead invert)) s.env) := by
  unfold execWrite at hx
  obtain ⟨r, u, hb, rfl⟩ := hr.operation_next hx
  obtain ⟨hlead, hb⟩ := withSrc_eq_next hb
  obtain ⟨hbuffer, hb⟩ := withSrc_eq_next hb
  obtain ⟨q, hf, hb⟩ := andThen_eq_next.mp hb
  cases hb
  obtain ⟨-, hd, -⟩ := (hr.start _).frame_next (xferAll_does _ hr.returns _) hf
  rw [txStream, readSrc_good hlead, readSrc_good hbuffer]
  exact hd.trace

/-- READ frames one invocation over its stream (R183). -/
theorem execRead_trace {h : Handle} {s t : State} {buffer : DstBuf} {fill : Byte} (hr : FrameReady h s)
    (hx : execRead buffer fill s = .next t) :
    t.trace = s.trace ++
      frameEvents h.cfg h.csControlEnabled (engineEvents h.cfg (txStream (.read buffer fill)) s.env) := by
  unfold execRead at hx
  obtain ⟨r, u, hb, rfl⟩ := hr.operation_next hx
  obtain ⟨-, hb⟩ := withDst_eq_next hb
  obtain ⟨q, hf, hb⟩ := andThen_eq_next.mp hb
  cases hb
  obtain ⟨-, hd, -⟩ := (hr.start _).frame_next (engine_does _ hr.returns _) hf
  exact hd.trace

/-- WRITE_THEN_READ frames the byte-by-byte loop over both its streams (R184, D10). -/
theorem execWriteThenRead_trace {h : Handle} {s t : State} {source : SrcBuf} {buffer : DstBuf} {fill : Byte}
    (hr : FrameReady h s) (hx : execWriteThenRead source buffer fill s = .next t) :
    t.trace = s.trace ++
      frameEvents h.cfg h.csControlEnabled (xferEvents h.cfg (txStream (.writeThenRead source buffer fill)) s.env) := by
  unfold execWriteThenRead at hx
  obtain ⟨r, u, hb, rfl⟩ := hr.operation_next hx
  obtain ⟨hsource, hb⟩ := withSrc_eq_next hb
  obtain ⟨-, hb⟩ := withDst_eq_next hb
  obtain ⟨q, hf, hb⟩ := andThen_eq_next.mp hb
  cases hb
  obtain ⟨-, hd, -⟩ := (hr.start _).frame_next (writeThenReadBody_does _ hr.returns _ _ _) hf
  rw [txStream, readSrc_good hsource]
  exact hd.trace

/-- REPEATED frames the byte-by-byte loop over its stream (R185, D10). -/
theorem execRepeated_trace {h : Handle} {s t : State} {value : Byte} {times : Nat} {lead : SrcBuf} (hr : FrameReady h s)
    (hx : execRepeated value times lead s = .next t) :
    t.trace = s.trace ++
      frameEvents h.cfg h.csControlEnabled (xferEvents h.cfg (txStream (.repeated value times lead)) s.env) := by
  unfold execRepeated at hx
  obtain ⟨r, u, hb, rfl⟩ := hr.operation_next hx
  obtain ⟨hlead, hb⟩ := withSrc_eq_next hb
  obtain ⟨q, hf, hb⟩ := andThen_eq_next.mp hb
  cases hb
  obtain ⟨-, hd, -⟩ := (hr.start _).frame_next (xferAll_does _ hr.returns _) hf
  rw [txStream, readSrc_good hlead]
  exact hd.trace

/-- The four composite operations frame their stream (42_transaction_framer.md R182 to R185): READ hands it to the engine at
once, the others byte by byte. -/
theorem exec_composite_trace {h : Handle} {s t : State} {i : Instr} (hr : FrameReady h s) (hi : IsFramed i)
    (hw : ∀ b, i ≠ .writeAndRead b) (hx : exec i s = .next t) :
    t.trace = s.trace ++ frameEvents h.cfg h.csControlEnabled (xferEvents h.cfg (txStream i) s.env) ∨
    t.trace = s.trace ++ frameEvents h.cfg h.csControlEnabled (engineEvents h.cfg (txStream i) s.env) := by
  rcases hi with ⟨buffer, lead, invert, rfl⟩ | ⟨buffer, fill, rfl⟩ | ⟨source, buffer, fill, rfl⟩ |
    ⟨value, times, lead, rfl⟩ | ⟨b, rfl⟩
  · exact .inl (execWrite_trace hr hx)
  · exact .inr (execRead_trace hr hx)
  · exact .inl (execWriteThenRead_trace hr hx)
  · exact .inl (execRepeated_trace hr hx)
  · exact absurd rfl (hw b)

/-- Settles O45: the operation's own events are a frame around the byte-by-byte loop, or around one invocation for READ; the loop is
one invocation on the wire. -/
theorem byteByByteIsWireEquivalent : Obligations.ByteByByteIsWireEquivalent := by
  intro s t h i es hr hi hw hx ht
  rcases exec_composite_trace hr hi hw hx with htr | htr
  · rw [List.append_cancel_left (ht.symm.trans htr)]
    exact frameEvents_wireEq (wireForm_xferEvents h.cfg (txStream i) s.env) _
  · rw [List.append_cancel_left (ht.symm.trans htr)]

end Sys2Proof.Machine

/-! PROOF. O8, O9, O10, O25, O46, O47, O56: the reset state, the invariant of 10_state.md, who writes the handle and chip-select, and
the working registers of a bit slot. O9, O25 and O46 rest on one inversion lemma, `exec_returned`: what any operation of a live handle
leaves when it answers. -/

namespace Sys2Proof.Machine

/-! The reset state. -/

/-- Settles O8: with no handle, an empty pin space and an idle sequencer, each part of the invariant holds by evaluation. -/
theorem resetIsFresh : Obligations.ResetIsFresh :=
  ⟨rfl, fun _ => rfl, rfl, ⟨rfl, rfl, fun _ hs => nomatch hs⟩⟩

/-! Pin space as data. -/

/-- A canonical pin space lists no untouched pin. -/
theorem pinGet_head_ne_initial {p : Pin} {v : PinState} {m : Pins} (h : pinsWf ((p, v) :: m) = true) :
    pinGet ((p, v) :: m) p ≠ .initial := by
  rw [pinGet_cons, if_pos rfl]
  exact ((pinsWf_cons p v m).mp h).2.1

/-- Of two canonical pin spaces that read the same, neither starts below the other. -/
theorem head_le_of_pinGet_eq {p q : Pin} {v u : PinState} {m n : Pins} (hm : pinsWf ((p, v) :: m) = true)
    (hn : pinsWf ((q, u) :: n) = true) (h : ∀ r, pinGet ((p, v) :: m) r = pinGet ((q, u) :: n) r) : q ≤ p := by
  by_contra hlt
  have hpq : p < q := Nat.lt_of_not_le hlt
  refine pinGet_head_ne_initial hm ?_
  rw [h, pinGet_cons, if_neg (Nat.ne_of_gt hpq)]
  exact pinGet_of_above ((pinsWf_cons q u n).mp hn).1 hpq.le

/-- Settles O10, by induction on both lists: their first keys agree, then their first values, then the rests, which read a fresh pin
at the first key. -/
theorem canonicalPinsAreEqual : Obligations.CanonicalPinsAreEqual := by
  intro m
  induction m with
  | nil =>
    intro m' _ hm' h
    cases m' with
    | nil => rfl
    | cons e n => exact absurd (h e.1).symm (pinGet_head_ne_initial hm')
  | cons e m ih =>
    intro m' hm hm' h
    obtain ⟨p, v⟩ := e
    cases m' with
    | nil => exact absurd (h p) (pinGet_head_ne_initial hm)
    | cons e' n =>
      obtain ⟨q, u⟩ := e'
      obtain rfl : p = q :=
        Nat.le_antisymm (head_le_of_pinGet_eq hm' hm fun r => (h r).symm) (head_le_of_pinGet_eq hm hm' h)
      obtain ⟨am, -, wm⟩ := (pinsWf_cons _ _ _).mp hm
      obtain ⟨an, -, wn⟩ := (pinsWf_cons _ _ _).mp hm'
      obtain rfl : v = u := by simpa [pinGet_cons] using h p
      have rest : ∀ r, pinGet m r = pinGet n r := by
        intro r
        by_cases hr : p = r
        · subst hr
          rw [pinGet_of_above am le_rfl, pinGet_of_above an le_rfl]
        · simpa [pinGet_cons, hr] using h r
      rw [ih n wm wn rest]

/-! The registers of a bit slot. -/

/-- `NextMask`, by bit order (41_transfer_engine.md R145). -/
theorem nextMask_eq (o : BitOrder) (m : Byte) :
    nextMask o m = match o with | .msbFirst => m >>> 1 | .lsbFirst => m <<< 1 := by
  cases o <;> rfl

/-- Eight moves shift the mask out of the byte. -/
theorem nextMask_eight (o : BitOrder) : (nextMask o)^[8] (startMask o) = 0#8 := by
  cases o <;> decide

/-- Loading a byte sets `tx`, `rx` and `mask`, whatever they held (R146, R150). -/
theorem loadByte_setRegs (s : State) (c : Cfg) (b x y z : Byte) :
    (s.setRegs { s.regs with tx := x, rx := y, mask := z }).loadByte c b = s.loadByte c b := rfl

/-- Settles O56: a slot by `bitSlot_next`, a byte by `bitSlots_next` from `loadByte`. -/
theorem slotRegisters : Obligations.SlotRegisters := by
  refine ⟨fun c w s t h => ?_, fun c w b s t h => ?_, fun c w b x y z s => ?_⟩
  · obtain ⟨hr, -⟩ := bitSlot_next h
    rw [hr]
    exact ⟨rfl, nextMask_eq _ _, rfl⟩
  · obtain ⟨htx, hmask, -, hrx⟩ := bitSlots_next 8 h
    refine ⟨htx, hmask.trans (nextMask_eight c.order), ?_⟩
    have hlevels : ∀ k, (s.loadByte c b).env.levelAt k = s.env.levelAt (0 + k) := fun k => by
      rw [loadByte_env, Nat.zero_add]
    rw [hrx s.env.levelAt 0 hlevels]
    simp only [loadByte_regs, rxAfter_eight]
  · unfold swByte
    rw [loadByte_setRegs]

/-! Chip-select events. -/

/-- Without chip-select control no event of an operation is on chip-select (10_state.md R31). -/
theorem HandleEvent.onCs_eq_false {h : Handle} {e : Event} (he : HandleEvent h e) (hoff : h.csControlEnabled = false) :
    e.onCs = false := by
  have hon : h.csControlEnabled ≠ true := by simp [hoff]
  cases e with
  | write r v =>
    cases r with
    | cs => exact absurd he hon
    | _ => rfl
  | mode r d =>
    cases r with
    | cs =>
      cases d with
      | output => exact absurd he hon
      | _ => exact he.elim
    | _ => rfl
  | read r v =>
    cases r with
    | cs => exact he.elim
    | _ => rfl
  | _ => rfl

/-- Settles O47: the events of any operation are `HandleEvent`s (`exec_ran`). -/
theorem disabledChipSelectIsNeverDriven : Obligations.DisabledChipSelectIsNeverDriven := by
  intro s t h i es hs hoff hx ht e he
  cases hc : i.isConstructor with
  | true =>
    obtain ⟨c, -, rfl⟩ := exec_constructor hc hx
    obtain rfl : es = [] := by simpa using ht
    cases he
  | false =>
    have hr := exec_ran hs hc
    rw [hx] at hr
    obtain ⟨es', htr, -, -, -, -, hev⟩ := hr
    obtain rfl : es = es' := List.append_cancel_left (ht.symm.trans htr)
    exact (hev e he).onCs_eq_false hoff

/-! What an operation leaves when it answers, whatever the state. -/

/-- The handle after an operation: BEGIN and the two toggles write their flag, DESTROY ends it, the others leave it
(10_state.md R30 to R32, D13). A constructor's handle is `State.construct`'s. -/
def handleAfter : Instr → Handle → Option Handle
  | .beginInit, h => some h.initialized
  | .disableCsToggle, h => some (h.withCsControl false)
  | .enableCsToggle, h => some (h.withCsControl true)
  | .destroy, _ => none
  | _, h => some h

/-- A handle left by an operation has its configuration, and the flags that were not the operation's to write. -/
theorem handleAfter_eq_some {i : Instr} {h h' : Handle} (hh : handleAfter i h = some h') :
    h'.cfg = h.cfg ∧
      (i ≠ .disableCsToggle → i ≠ .enableCsToggle → h'.csControlEnabled = h.csControlEnabled) ∧
      (i ≠ .beginInit → h'.isInitialized = h.isInitialized) := by
  cases i <;> cases hh <;> simp [Handle.initialized, Handle.withCsControl]

theorem handleAfter_isSome {i : Instr} (h : Handle) (hi : i ≠ .destroy) : ∃ h', handleAfter i h = some h' := by
  cases i with
  | destroy => exact absurd rfl hi
  | _ => exact ⟨_, rfl⟩

/-- The last chip-select event, if there is one, is a write of 1 (42_transaction_framer.md R189). -/
def Deselects (es : List Event) : Prop :=
  (∀ e ∈ es, e.onCs = false) ∨
    ∃ pre post, es = pre ++ .write .cs true :: post ∧ ∀ e ∈ post, e.onCs = false

/-- What an operation of a live handle left when it answered. -/
structure Returned (h : Handle) (i : Instr) (s t : State) (es : List Event) : Prop where
  trace : t.trace = s.trace ++ es
  pins : t.pins = replay h.cfg s.pins es
  handle : t.handle = handleAfter i h
  deselects : Deselects es
  configures : i = .beginInit → es = beginEvents h.cfg h.csControlEnabled

/-! The parts of BEGIN that answered. -/

theorem callPrim_ext (c : Cfg) {p : Prim} {s t : State} (hx : callPrim p s = .next t) : Ext c s t [] := by
  rcases callPrim_cases p s with ⟨n, hn, hst⟩ | ⟨hn, -⟩ <;> rw [hn] at hx <;> cases hx
  exact ⟨by simp, rfl, rfl, rfl, by simp [State.atCall, State.setSeq, Option.map_map, Function.comp_def], hst.symm⟩

theorem pinMode_ext {c : Cfg} {r : Role} {p : Pin} {d : Dir} {s t : State} (hp : c.pinOf r = some p)
    (hx : pinMode r p d s = .next t) : Ext c s t [.mode r d] := by
  obtain ⟨u, hu, hx⟩ := andThen_eq_next.mp hx
  cases hx
  refine (callPrim_ext c hu).trans ⟨rfl, ?_, rfl, rfl, rfl, Iff.rfl⟩
  simp [replay, replayEvent, hp, pin_eq]

theorem pinWrite_ext {c : Cfg} {r : Role} {p : Pin} {v : Level} {s t : State} (hp : c.pinOf r = some p)
    (hx : pinWrite r p v s = .next t) : Ext c s t [.write r v] := by
  unfold pinWrite at hx
  split at hx
  · obtain ⟨u, hu, hx⟩ := andThen_eq_next.mp hx
    cases hx
    refine (callPrim_ext c hu).trans ⟨rfl, ?_, rfl, rfl, rfl, Iff.rfl⟩
    simp [replay, replayEvent, hp, pin_eq]
  · cases hx

/-- An output pin is given its direction and then its level (40_lifecycle_control.md R113, D6). -/
theorem beginOutput_ext {c : Cfg} {r : Role} {p : Option Pin} {v : Level} {s t : State} (hp : c.pinOf r = p)
    (hx : beginOutput r p v s = .next t) : Ext c s t (if p.isSome then [.mode r .output, .write r v] else []) := by
  cases p with
  | none => cases hx; exact Ext.refl c s
  | some p =>
    obtain ⟨u, hu, hx⟩ := andThen_eq_next.mp hx
    exact (pinMode_ext hp hu).trans (pinWrite_ext hp hx)

theorem beginInput_ext {c : Cfg} {r : Role} {p : Option Pin} {s t : State} (hp : c.pinOf r = p)
    (hx : beginInput r p s = .next t) : Ext c s t (if p.isSome then [.mode r .input] else []) := by
  cases p with
  | none => cases hx; exact Ext.refl c s
  | some p => exact pinMode_ext hp hx

/-- BEGIN's bus part makes the events BEGIN has without chip-select control. -/
theorem beginBus_ext {c : Cfg} {s t : State} (hx : beginBus c s = .next t) : Ext c s t (beginEvents c false) := by
  unfold beginBus at hx
  cases hb : c.bus with
  | hardware p =>
    rw [hb] at hx
    simpa [beginEvents, hb] using session_next (c := c) (fun _ => rfl) hx
  | software w =>
    rw [hb] at hx
    obtain ⟨u, hu, hx⟩ := andThen_eq_next.mp hx
    obtain ⟨v, hv, hx⟩ := andThen_eq_next.mp hx
    have hclk := beginOutput_ext (c := c) (by simp [Cfg.pinOf, hb]) hu
    have hmosi := beginOutput_ext (c := c) (by simp [Cfg.pinOf, hb]) hv
    have hmiso := beginInput_ext (c := c) (by simp [Cfg.pinOf, hb]) hx
    simpa [beginEvents, hb, List.append_assoc] using (hclk.trans hmosi).trans hmiso

theorem beginEvents_true (c : Cfg) :
    beginEvents c true = .mode .cs .output :: .write .cs true :: beginEvents c false := by
  simp [beginEvents]

/-- Chip-select is configured under its control only (R113, D5). -/
theorem beginCs_then_beginBus_ext {h : Handle} {s u t : State} (hs : s.handle = some h)
    (hu : beginCs h.cfg s = .next u) (hx : beginBus h.cfg u = .next t) :
    Ext h.cfg s t (beginEvents h.cfg h.csControlEnabled) := by
  unfold beginCs at hu
  rw [csControl_live hs] at hu
  split at hu
  · next hon =>
    obtain ⟨v, hv, hu⟩ := andThen_eq_next.mp hu
    rw [hon, beginEvents_true]
    exact ((pinMode_ext rfl hv).trans (pinWrite_ext rfl hu)).trans (beginBus_ext hx)
  · next hoff =>
    cases hu
    rw [Bool.eq_false_iff.mpr hoff]
    exact beginBus_ext hx

/-! Which events are on chip-select. -/

theorem EngineEvent.onCs_eq_false {c : Cfg} {e : Event} (he : EngineEvent c e) : e.onCs = false := by
  unfold EngineEvent at he
  cases hb : c.bus with
  | hardware p =>
    rw [hb] at he
    obtain ⟨_, _, rfl, -⟩ := he
    rfl
  | software w =>
    rw [hb] at he
    rcases he with ⟨_, rfl⟩ | ⟨_, rfl, -⟩ | ⟨_, rfl, -⟩ | ⟨rfl, -⟩ <;> rfl

theorem onCs_eq_false_of_isSession {e : Event} (he : e.isSession = true) : e.onCs = false := by
  cases e with
  | beginSession _ _ _ | endSession => rfl
  | _ => cases he

theorem beginEvents_false_onCs {c : Cfg} : ∀ e ∈ beginEvents c false, e.onCs = false := by
  cases hb : c.bus with
  | hardware p => simp [beginEvents, hb, Event.onCs]
  | software w => cases hmosi : w.mosi <;> cases hmiso : w.miso <;> simp [beginEvents, hb, hmosi, hmiso, Event.onCs]

theorem beginEvents_deselects (c : Cfg) (on : Bool) : Deselects (beginEvents c on) := by
  cases on with
  | false => exact .inl beginEvents_false_onCs
  | true => exact .inr ⟨[.mode .cs .output], beginEvents c false, beginEvents_true c, beginEvents_false_onCs⟩

/-- A frame around engine events ends with chip-select de-asserted. -/
theorem selectedEvents_deselects {on : Bool} {pre es post : List Event} (hes : ∀ e ∈ es, e.onCs = false)
    (hsession : ∀ e ∈ pre ++ post, e.isSession = true) : Deselects (pre ++ selectedEvents on es ++ post) := by
  have hpre : ∀ e ∈ pre, e.onCs = false := fun e he => onCs_eq_false_of_isSession (hsession e (by simp [he]))
  have hpost : ∀ e ∈ post, e.onCs = false := fun e he => onCs_eq_false_of_isSession (hsession e (by simp [he]))
  cases on with
  | false =>
    refine .inl fun e he => ?_
    simp only [selectedEvents, csEvents, Bool.false_eq_true, if_false, List.nil_append, List.append_nil,
      List.mem_append] at he
    rcases he with (he | he) | he
    · exact hpre e he
    · exact hes e he
    · exact hpost e he
  | true => exact .inr ⟨pre ++ .write .cs false :: es, post, by simp [selectedEvents, csEvents], hpost⟩

/-! The operations. -/

section
variable {h : Handle} {i : Instr} {s t : State}

/-- The body of an operation of a live handle that answered. -/
theorem operation_live_next {body : Handle → State → Res (Ret × State)} (hs : s.handle = some h)
    (hx : operation i s body = .next t) : ∃ r u, body h (s.start i) = .next (r, u) ∧ t = u.finish r := by
  obtain ⟨h', r, u, hs', hb, ht⟩ := operation_eq_next hx
  obtain rfl : h' = h := Option.some.inj (hs'.symm.trans hs)
  exact ⟨r, u, hb, ht⟩

/-- An operation that writes no flag and made no chip-select event. -/
theorem Returned.of_ext {u : State} {r : Ret} {es : List Event} (hs : s.handle = some h)
    (hh : handleAfter i h = some h) (hi : i ≠ .beginInit) (he : Ext h.cfg (s.start i) u es)
    (hcs : ∀ e ∈ es, e.onCs = false) : Returned h i s (u.finish r) es :=
  ⟨he.trace, he.pins, (he.handle.trans hs).trans hh.symm, .inl hcs, fun hb => absurd hb hi⟩

/-- An operation that only writes the handle. -/
theorem Returned.of_setHandle {r : Ret} (hi : i ≠ .beginInit) :
    Returned h i s (((s.start i).setHandle (handleAfter i h)).finish r) [] :=
  ⟨by simp, rfl, rfl, .inl (by simp), fun hb => absurd hb hi⟩

/-- A signal to the peripheral: its event in Hardware mode, none in Software mode (D27). -/
theorem returned_of_onlyHardware {sig : Handle → State → Res State} {e : Event} (hs : s.handle = some h)
    (hh : handleAfter i h = some h) (hi : i ≠ .beginInit) (he : e.onCs = false)
    (hsig : ∀ u, sig h (s.start i) = .next u → Ext h.cfg (s.start i) u [e])
    (hx : operation i s (fun h s => onlyHardware h (sig h) s) = .next t) : ∃ es, Returned h i s t es := by
  obtain ⟨r, u, hb, rfl⟩ := operation_live_next hs hx
  unfold onlyHardware at hb
  split at hb
  · obtain ⟨v, hv, hb⟩ := andThen_eq_next.mp (whenInitialized_eq_next.mp hb).2
    cases hb
    exact ⟨[e], .of_ext hs hh hi (hsig u hv) (by simpa using he)⟩
  · cases hb
    exact ⟨[], .of_ext hs hh hi (Ext.refl _ _) (by simp)⟩

theorem returned_begin (hs : s.handle = some h) (hx : execBegin s = .next t) :
    Returned h .beginInit s t (beginEvents h.cfg h.csControlEnabled) := by
  obtain ⟨r, u, hb, rfl⟩ := operation_live_next hs hx
  obtain ⟨v, hv, hb⟩ := andThen_eq_next.mp hb
  obtain ⟨w, hw, hb⟩ := andThen_eq_next.mp hb
  cases hb
  have he := beginCs_then_beginBus_ext (s := s.start .beginInit) hs hv hw
  exact ⟨he.trace, he.pins, rfl, beginEvents_deselects _ _, fun _ => rfl⟩

theorem returned_framed (hs : s.handle = some h) (hi : IsFramed i) (hx : exec i s = .next t) :
    ∃ es, Returned h i s t es := by
  obtain ⟨es, pre, post, hes, hsession, htr, hp, hh⟩ := framed_next hs hi hx
  have hkeep : handleAfter i h = some h ∧ i ≠ .beginInit := by
    rcases hi with ⟨_, _, _, rfl⟩ | ⟨_, _, rfl⟩ | ⟨_, _, _, rfl⟩ | ⟨_, _, _, rfl⟩ | ⟨_, rfl⟩ <;> exact ⟨rfl, nofun⟩
  exact ⟨_, htr, hp, (hh.trans hs).trans hkeep.1.symm,
    selectedEvents_deselects (fun e he => (hes e he).onCs_eq_false) hsession, fun hb => absurd hb hkeep.2⟩

/-- Whatever the state, an operation of a live handle that answers left the pins as its events say, the handle as `handleAfter` says,
and chip-select de-asserted if it touched it. -/
theorem exec_returned (hs : s.handle = some h) (hi : i.isConstructor = false) (hx : exec i s = .next t) :
    ∃ es, Returned h i s t es := by
  cases i with
  | constructHw _ _ _ _ _ | constructSw _ _ _ _ _ _ _ => cases hi
  | beginInit => exact ⟨_, returned_begin hs hx⟩
  | endRelease =>
    exact returned_of_onlyHardware (sig := fun _ => periphRelease) hs rfl nofun rfl (fun _ => session_next fun _ => rfl) hx
  | beginTransaction =>
    exact returned_of_onlyHardware (sig := fun h => periphBeginTransaction h.cfg) hs rfl nofun rfl
      (fun _ => session_next fun _ => rfl) hx
  | endTransaction =>
    exact returned_of_onlyHardware (sig := fun _ => periphEndTransaction) hs rfl nofun rfl
      (fun _ => session_next fun _ => rfl) hx
  | disableCsToggle | enableCsToggle | destroy =>
    simp only [exec, execDisableCsToggle, execEnableCsToggle, execDestroy] at hx
    obtain ⟨r, u, hb, rfl⟩ := operation_live_next hs hx
    cases hb
    exact ⟨[], .of_setHandle nofun⟩
  | write b l v => exact returned_framed hs (.inl ⟨b, l, v, rfl⟩) hx
  | read b f => exact returned_framed hs (.inr (.inl ⟨b, f, rfl⟩)) hx
  | writeThenRead a b f => exact returned_framed hs (.inr (.inr (.inl ⟨a, b, f, rfl⟩))) hx
  | repeated v n l => exact returned_framed hs (.inr (.inr (.inr (.inl ⟨v, n, l, rfl⟩)))) hx
  | writeAndRead b => exact returned_framed hs (.inr (.inr (.inr (.inr ⟨b, rfl⟩)))) hx
  | transfer b =>
    simp only [exec, execTransfer] at hx
    obtain ⟨r, u, hb, rfl⟩ := operation_live_next hs hx
    obtain ⟨-, hb⟩ := withSrc_eq_next (whenInitialized_eq_next.mp hb).2
    obtain ⟨q, hq, hb⟩ := andThen_eq_next.mp hb
    cases hb
    obtain ⟨es, he, hes⟩ := (engine_ran _).of_next hq
    exact ⟨es, .of_ext hs rfl nofun he fun e he => (hes e he).onCs_eq_false⟩
  | transferByte b =>
    simp only [exec, execTransferByte] at hx
    obtain ⟨r, u, hb, rfl⟩ := operation_live_next hs hx
    obtain ⟨q, hq, hb⟩ := andThen_eq_next.mp (whenInitialized_eq_next.mp hb).2
    cases hb
    obtain ⟨es, he, hes⟩ := (xferByte_ran b).of_next hq
    exact ⟨es, .of_ext hs rfl nofun he fun e he => (hes e he).onCs_eq_false⟩

theorem exec_handle (hs : s.handle = some h) (hi : i.isConstructor = false) (hx : exec i s = .next t) :
    t.handle = handleAfter i h := by
  obtain ⟨es, hr⟩ := exec_returned hs hi hx
  exact hr.handle

end

/-- Settles O46: the handle an operation leaves is `handleAfter`'s. -/
theorem onlyTheirOwnOperationsWriteTheHandle : Obligations.OnlyTheirOwnOperationsWriteTheHandle := by
  intro s t h i hs hx hi hd
  obtain ⟨h', hh⟩ := handleAfter_isSome h hd
  exact ⟨h', (exec_handle hs hi hx).trans hh, handleAfter_eq_some hh⟩

/-- `idle_level` is 1 exactly in data modes 2 and 3 (10_state.md R24). -/
theorem bit_one_eq_two_le (m : BitVec 2) : m.getLsbD 1 = decide (2 ≤ m.toNat) := by
  revert m; decide

/-- Settles O25: functions of the configuration, which O46 says is kept. -/
theorem constantsOfTheConfiguration : Obligations.ConstantsOfTheConfiguration := by
  refine ⟨fun _ => rfl, fun c => ?_, fun c => bit_one_eq_two_le c.dataMode, fun s t h i hs hx hi hd => ?_⟩
  · cases c.order <;> rfl
  · obtain ⟨h', hh, hc, -⟩ := onlyTheirOwnOperationsWriteTheHandle s t h i hs hx hi hd
    exact ⟨h', hh, by rw [hc], by rw [hc], by rw [hc]⟩

/-! A pin of a handle under the events of its role. -/

/-- The state of the pin of role `r` after an event. -/
def PinState.after (r : Role) (v : PinState) : Event → PinState
  | .write r' l => if r' = r then { v with out := some l } else v
  | .mode r' d => if r' = r then { v with dir := d } else v
  | _ => v

/-- The pins a handle was given, by role. -/
theorem pins_eq_filterMap_pinOf (c : Cfg) : c.pins = [.cs, .clk, .miso, .mosi].filterMap c.pinOf := by
  cases hb : c.bus with
  | hardware p => simp [Cfg.pins, Cfg.pinOf, hb]
  | software w => cases hmiso : w.miso <;> cases hmosi : w.mosi <;> simp [Cfg.pins, Cfg.pinOf, presentPins, hb, hmiso, hmosi]

/-- Under D18 no two roles share a pin. -/
theorem PinsDistinct.role_eq {c : Cfg} {r r' : Role} {p : Pin} (hd : PinsDistinct c) (hr : c.pinOf r = some p)
    (hr' : c.pinOf r' = some p) : r = r' := by
  have hnodup : ([.cs, .clk, .miso, .mosi].filterMap c.pinOf).Nodup := by
    rw [← pins_eq_filterMap_pinOf]
    exact (allDistinct_iff_nodup _).mp hd
  have hall : ∀ r : Role, r ∈ ([.cs, .clk, .miso, .mosi] : List Role) := by intro r; cases r <;> decide
  by_contra hne
  have : Std.Symm fun a b : Role => ∀ q, c.pinOf a = some q → ∀ q', c.pinOf b = some q' → q ≠ q' :=
    ⟨fun _ _ hab q hq q' hq' => (hab q' hq' q hq).symm⟩
  exact (List.pairwise_filterMap.mp hnodup).forall (hall r) (hall r') hne p hr p hr' rfl

theorem pinGet_replayEvent {c : Cfg} {r : Role} {p : Pin} (hd : PinsDistinct c) (hp : c.pinOf r = some p) (m : Pins)
    (e : Event) : pinGet (replayEvent c m e) p = (pinGet m p).after r e := by
  have hput : ∀ (r' : Role) (f : PinState → PinState),
      pinGet (match c.pinOf r' with | some q => pinPut q (f (pinGet m q)) m | none => m) p =
        if r' = r then f (pinGet m p) else pinGet m p := by
    intro r' f
    by_cases hr : r' = r
    · subst hr
      simp [hp]
    · rw [if_neg hr]
      cases hq : c.pinOf r' with
      | none => rfl
      | some q => exact pinGet_pinPut_other (fun hqp => hr (hd.role_eq (hqp ▸ hq) hp)) _ _
  cases e with
  | write r' l => exact hput r' fun v => { v with out := some l }
  | mode r' d => exact hput r' fun v => { v with dir := d }
  | _ => rfl

/-- The pin of a role is written by the events of that role alone. -/
theorem pinGet_replay {c : Cfg} {r : Role} {p : Pin} (hd : PinsDistinct c) (hp : c.pinOf r = some p) (es : List Event) :
    ∀ m : Pins, pinGet (replay c m es) p = es.foldl (PinState.after r) (pinGet m p) := by
  induction es with
  | nil => exact fun _ => rfl
  | cons e es ih =>
    intro m
    rw [List.foldl_cons, ← pinGet_replayEvent hd hp m e]
    exact ih _

/-- Events keep the canonical form. -/
theorem pinsWf_replay (c : Cfg) (es : List Event) : ∀ m : Pins, pinsWf m = true → pinsWf (replay c m es) = true := by
  induction es with
  | nil => exact fun _ h => h
  | cons e es ih =>
    refine fun m h => ih _ ?_
    cases e with
    | write r v =>
      cases hp : c.pinOf r with
      | none => simpa [replayEvent, hp] using h
      | some p => simpa [replayEvent, hp] using pinsWf_pinPut h
    | mode r d =>
      cases hp : c.pinOf r with
      | none => simpa [replayEvent, hp] using h
      | some p => simpa [replayEvent, hp] using pinsWf_pinPut h
    | _ => exact h

/-! Chip-select. -/

theorem foldl_after_cs_of_off {es : List Event} (hes : ∀ e ∈ es, e.onCs = false) :
    ∀ v : PinState, es.foldl (PinState.after .cs) v = v := by
  induction es with
  | nil => exact fun _ => rfl
  | cons e es ih =>
    intro v
    have he : PinState.after .cs v e = v := by
      have := hes e List.mem_cons_self
      cases e with
      | write r l => cases r <;> simp_all [PinState.after, Event.onCs]
      | mode r d => cases r <;> simp_all [PinState.after, Event.onCs]
      | _ => rfl
    rw [List.foldl_cons, he]
    exact ih (fun e' he' => hes e' (List.mem_cons_of_mem _ he')) v

/-- Chip-select is left as it was, or de-asserted (42_transaction_framer.md R189). -/
theorem Deselects.foldl_after {es : List Event} (hes : Deselects es) (v : PinState) :
    es.foldl (PinState.after .cs) v = v ∨ (es.foldl (PinState.after .cs) v).out = some true := by
  rcases hes with hes | ⟨pre, post, rfl, hpost⟩
  · exact .inl (foldl_after_cs_of_off hes v)
  · right
    rw [List.foldl_append, List.foldl_cons, foldl_after_cs_of_off hpost]
    rfl

/-! Directions. -/

/-- The direction BEGIN gives the pin of a role (40_lifecycle_control.md R113). -/
def Role.dir : Role → Dir
  | .miso => .input
  | .cs | .clk | .mosi => .output

/-- The bus pins are the pins of the roles but chip-select. -/
theorem busReady_iff {c : Cfg} {m : Pins} :
    BusReady c m ↔ ∀ r p, r ≠ .cs → c.pinOf r = some p → (pinGet m p).dir = r.dir := by
  unfold BusReady
  cases hb : c.bus with
  | hardware q =>
    refine iff_of_true trivial fun r p hr hp => ?_
    cases r <;> simp_all [Cfg.pinOf]
  | software w =>
    refine ⟨fun ⟨hclk, hmosi, hmiso⟩ r p hr hp => ?_, fun h => ⟨?_, fun p hp => ?_, fun p hp => ?_⟩⟩
    · cases r with
      | cs => exact absurd rfl hr
      | clk =>
        obtain rfl : w.clk = p := by simpa [Cfg.pinOf, hb] using hp
        exact hclk
      | mosi => exact hmosi p (by simpa [Cfg.pinOf, hb] using hp)
      | miso => exact hmiso p (by simpa [Cfg.pinOf, hb] using hp)
    · exact h .clk _ nofun (by simp [Cfg.pinOf, hb])
    · exact h .mosi p nofun (by simpa [Cfg.pinOf, hb] using hp)
    · exact h .miso p nofun (by simpa [Cfg.pinOf, hb] using hp)

theorem HandleEvent.mode_dir {h : Handle} {r : Role} {d : Dir} (he : HandleEvent h (.mode r d)) : d = r.dir := by
  cases r <;> cases d <;> simp_all [HandleEvent, Role.dir]

theorem HandleEvent.after_dir {h : Handle} {e : Event} (he : HandleEvent h e) {r : Role} {v : PinState}
    (hv : v.dir = r.dir) : (v.after r e).dir = r.dir := by
  cases e with
  | write r' l =>
    simp only [PinState.after]
    split
    · exact hv
    · exact hv
  | mode r' d =>
    simp only [PinState.after]
    split
    · next hr => exact hr ▸ he.mode_dir
    · exact hv
  | _ => exact hv

/-- An operation's events keep the direction BEGIN gave a pin. -/
theorem foldl_after_dir {h : Handle} {r : Role} {es : List Event} (hes : ∀ e ∈ es, HandleEvent h e) :
    ∀ v : PinState, v.dir = r.dir → (es.foldl (PinState.after r) v).dir = r.dir := by
  induction es with
  | nil => exact fun _ hv => hv
  | cons e es ih =>
    exact fun v hv => ih (fun e' he' => hes e' (List.mem_cons_of_mem _ he')) _
      ((hes e List.mem_cons_self).after_dir hv)

/-- Events that give a pin its direction leave it with that direction. -/
theorem foldl_after_dir_of_mem {h : Handle} {r : Role} {es : List Event} (hes : ∀ e ∈ es, HandleEvent h e)
    (hmode : .mode r r.dir ∈ es) (v : PinState) : (es.foldl (PinState.after r) v).dir = r.dir := by
  obtain ⟨pre, post, rfl⟩ := List.append_of_mem hmode
  rw [List.foldl_append, List.foldl_cons]
  exact foldl_after_dir (fun e he => hes e (by simp [he])) _ (by simp [PinState.after])

/-- BEGIN gives every bus pin its direction (R113). -/
theorem mode_mem_beginEvents {c : Cfg} {on : Bool} {r : Role} {p : Pin} (hr : r ≠ .cs) (hp : c.pinOf r = some p) :
    .mode r r.dir ∈ beginEvents c on := by
  unfold beginEvents
  cases hb : c.bus with
  | hardware q => cases r <;> simp_all [Cfg.pinOf]
  | software w => cases r <;> simp_all [Cfg.pinOf, Role.dir]

/-! The invariant. -/

/-- A new handle's pins are untouched and it is not initialised (10_state.md R40). -/
theorem handleInv_construct {c : Cfg} (hd : PinsDistinct c) (m : Pins) :
    HandleInv (Handle.fresh c) (c.pins.foldr pinClear m) := by
  have hcs : pinGet (c.pins.foldr pinClear m) c.csPin = .initial := by
    rw [pinGet_foldr_pinClear, if_pos (by simp [pins_eq_filterMap_pinOf, Cfg.pinOf])]
  exact ⟨hd, nofun, fun hout => nomatch hcs ▸ hout⟩

/-- An operation that answers keeps what holds of a live handle: its events give bus pins no other direction, BEGIN's give them
theirs, and chip-select is touched only to end de-asserted. -/
theorem Returned.handleInv {h h' : Handle} {i : Instr} {s t : State} {es : List Event} (hr : Returned h i s t es)
    (hes : ∀ e ∈ es, HandleEvent h e) (hinv : HandleInv h s.pins) (hh : t.handle = some h') :
    HandleInv h' t.pins := by
  obtain ⟨hcfg, -, hinit⟩ := handleAfter_eq_some (hr.handle.symm.trans hh)
  have hpin : ∀ {r p}, h.cfg.pinOf r = some p → pinGet t.pins p = es.foldl (PinState.after r) (pinGet s.pins p) := by
    intro r p hp
    rw [hr.pins]
    exact pinGet_replay hinv.distinct hp es s.pins
  refine ⟨hcfg ▸ hinv.distinct, fun hi => ?_, fun hout => ?_⟩
  · rw [hcfg]
    refine busReady_iff.mpr fun r p hrole hp => ?_
    rw [hpin hp]
    by_cases hb : i = .beginInit
    · exact foldl_after_dir_of_mem hes (hr.configures hb ▸ mode_mem_beginEvents hrole hp) _
    · exact foldl_after_dir hes _ (busReady_iff.mp (hinv.configured (hinit hb ▸ hi)) r p hrole hp)
  · rw [hcfg, hpin (r := .cs) rfl] at hout ⊢
    rcases hr.deselects.foldl_after (pinGet s.pins h.cfg.csPin) with hkept | htrue
    · rw [hkept] at hout ⊢
      exact hinv.deselected hout
    · exact htrue

/-- Every operation that answers keeps the invariant. -/
theorem exec_keeps_inv {i : Instr} {s t : State} (hinv : Inv s) (hx : exec i s = .next t) : Inv t := by
  cases hc : i.isConstructor with
  | true =>
    obtain ⟨c, hd, rfl⟩ := exec_constructor hc hx
    refine ⟨pinsWf_foldr_pinClear hinv.canonical, rfl, fun h hh => ?_⟩
    cases hh
    exact handleInv_construct hd s.pins
  | false =>
    cases hs : s.handle with
    | none =>
      rw [exec_noHandle hs hc] at hx
      cases hx
    | some h =>
      have hran := exec_ran hs hc
      rw [hx] at hran
      obtain ⟨es, htr, hpins, -, hidle, -, hes⟩ := hran
      obtain ⟨es', hr⟩ := exec_returned hs hc hx
      obtain rfl : es' = es := List.append_cancel_left (hr.trace.symm.trans htr)
      refine ⟨?_, hidle, fun h' hh => hr.handleInv hes (hinv.handle h hs) hh⟩
      rw [hpins]
      exact pinsWf_replay _ _ _ hinv.canonical

/-- What the sequencer finds is an operation, with its request taken from the list and nothing else changed. -/
theorem fetch_eq_run {i : Instr} {s u : State} (hf : fetch s = .run i u) : ∃ l, u = s.setPending l := by
  unfold fetch at hf
  split at hf
  · cases hf
  · cases hf
    exact ⟨_, rfl⟩
  · split at hf
    · cases hf
      exact ⟨_, rfl⟩
    · cases hf

/-- A step that answers waited, or ran an issued operation. -/
theorem step_eq_next {s t : State} (hx : step s = .next t) : t = s ∨ ∃ i l, exec i (s.setPending l) = .next t := by
  unfold step at hx
  split at hx
  · cases hx
  · split at hx
    · cases hx
      exact .inl rfl
    · next i u hf =>
      obtain ⟨l, rfl⟩ := fetch_eq_run hf
      exact .inr ⟨i, l, hx⟩
    · cases hx

/-- Settles O9: a step waits or runs one operation, and every operation keeps the invariant. -/
theorem stepKeepsInv : Obligations.StepKeepsInv := by
  intro s t hinv hx
  rcases step_eq_next hx with rfl | ⟨i, l, hx⟩
  · exact hinv
  · exact exec_keeps_inv (s := s.setPending l) ⟨hinv.canonical, hinv.idle, hinv.handle⟩ hx

end Sys2Proof.Machine

/-! PROOF. O23, O49: the buffer operands of an operation (20_memory.md R61), and what any operation leaves of the trace, the requests
and the sequencer (R63, R65; 10_state.md R37). -/

namespace Sys2Proof.Machine

/-- Settles O49: a constructor makes no event, any other operation appends its own (`exec_ran`). -/
theorem traceOnlyGrows : Obligations.TraceOnlyGrows := by
  intro s t i hx
  cases hc : i.isConstructor with
  | true =>
    obtain ⟨c, -, rfl⟩ := exec_constructor hc hx
    exact ⟨List.prefix_rfl, rfl, rfl⟩
  | false =>
    cases hs : s.handle with
    | none =>
      rw [exec_noHandle hs hc] at hx
      cases hx
    | some h =>
      have hran := exec_ran hs hc
      rw [hx] at hran
      obtain ⟨es, htrace, -, hpending, hidle, -⟩ := hran
      exact ⟨⟨es, htrace.symm⟩, hpending, hidle⟩

/-! Bad buffers. -/

/-- A refusal of the buffers tested later stands, whatever the buffer tested first. -/
theorem withSrc_refused {α : Type} (b : SrcBuf) :
    withSrc b (fun _ => (.refused .badBuffer : Res α)) = .refused .badBuffer := by
  by_cases hb : BadSrc b
  · exact withSrc_bad hb _
  · exact withSrc_good hb _

/-- With a bad buffer operand an operation comes as far as its buffer tests, which follow the tests for a handle and for BEGIN
(60_exceptions.md R214, R216). -/
theorem exec_of_not_goodBuffers {i : Instr} (hi : ¬ GoodBuffers i) (s : State) :
    exec i s = operation i s fun h _ => whenInitialized h (.refused .badBuffer) := by
  cases i with
  | transfer b =>
    have hb : BadSrc b := not_not.mp hi
    simp only [exec, execTransfer, withSrc_bad hb]
  | write b l v =>
    rcases not_and_or.mp hi with hb | hl
    · simp only [exec, execWrite, withSrc_bad (not_not.mp hb), withSrc_refused]
    · simp only [exec, execWrite, withSrc_bad (not_not.mp hl)]
  | read b f =>
    have hb : BadDst b := not_not.mp hi
    simp only [exec, execRead, withDst_bad hb]
  | writeThenRead a b f =>
    rcases not_and_or.mp hi with ha | hb
    · simp only [exec, execWriteThenRead, withSrc_bad (not_not.mp ha)]
    · simp only [exec, execWriteThenRead, withDst_bad (not_not.mp hb), withSrc_refused]
  | repeated v n l =>
    have hl : BadSrc l := not_not.mp hi
    simp only [exec, execRepeated, withSrc_bad hl]
  | _ => exact absurd trivial hi

/-- A refusal after the test for BEGIN is that refusal or `notInitialized`. -/
theorem whenInitialized_refused {α : Type} (h : Handle) (r : Refusal) :
    whenInitialized h (.refused r : Res α) = .refused (if h.isInitialized then r else .notInitialized) := by
  unfold whenInitialized
  split <;> rfl

/-- Settles O23: without a handle or before BEGIN the refusal is another; a ready handle comes to the buffer tests. -/
theorem badBuffersRefused : Obligations.BadBuffersRefused := by
  intro s i hi
  rw [exec_of_not_goodBuffers hi]
  refine ⟨?_, fun h _ hr => ?_⟩
  · cases hs : s.handle with
    | none => exact ⟨_, operation_noHandle hs _⟩
    | some h =>
      rw [operation_live hs, whenInitialized_refused]
      exact ⟨_, rfl⟩
  · rw [operation_live hr.live, whenInitialized_true hr.initialized, andThen_refused]

end Sys2Proof.Machine

/-! PROOF. O1, O2, O3, O4, O5, O6, O15: descriptors and the step that takes them (30_encoding.md R82 to R87, R91, R94). Each format has
two facts: its decoder reads back the operand bytes the encoder wrote (`decodeWrite_operandBytes`), and an inversion lemma that says all
it can accept, guards included (`decodeWrite_eq_ok`). -/

namespace Sys2Proof

/-! The operands a descriptor can carry. -/

@[simp] theorem inlineBuf_inline (bs : List Byte) : (inlineBuf bs).inline = bs := rfl
@[simp] theorem inlineBuf_len (bs : List Byte) : (inlineBuf bs).len = bs.length := rfl
@[simp] theorem lengthBuf_len (n : Nat) : (lengthBuf n).len = n := rfl

theorem srcBuf_wf_iff {b : SrcBuf} : b.wf = true ↔ ∃ bs : List Byte, bs.length < 65536 ∧ b = inlineBuf bs := by
  obtain ⟨bytes, len⟩ := b
  cases bytes with
  | none => simp [SrcBuf.wf, inlineBuf]
  | some bs =>
    simp only [SrcBuf.wf, Bool.and_eq_true, decide_eq_true_eq, inlineBuf, SrcBuf.mk.injEq, Option.some.injEq]
    constructor
    · rintro ⟨rfl, hlt⟩
      exact ⟨bs, hlt, rfl, rfl⟩
    · rintro ⟨_, hlt, rfl, rfl⟩
      exact ⟨rfl, hlt⟩

theorem dstBuf_wf_iff {b : DstBuf} : b.wf = true ↔ ∃ n, n < 65536 ∧ b = lengthBuf n := by
  obtain ⟨size, len⟩ := b
  simp only [DstBuf.wf, Bool.and_eq_true, decide_eq_true_eq, lengthBuf, DstBuf.mk.injEq]
  constructor
  · rintro ⟨rfl, hlt⟩
    exact ⟨len, hlt, rfl, rfl⟩
  · rintro ⟨_, hlt, rfl, rfl⟩
    exact ⟨rfl, hlt⟩

theorem csFits_iff {cs : Option Pin} : csFits cs = true ↔ ∃ p < 256, cs = some p := by
  cases cs <;> simp [csFits]

theorem toNat_pinByte_some {p : Pin} (h : p < 256) : (pinByte (some p)).toNat = p := by
  simp [pinByte, Nat.mod_eq_of_lt h]

theorem cfgReservedClear_iff (cfg : Byte) : cfgReservedClear cfg = true ↔ cfg.toNat < 0x20 := by
  have := cfg.isLt
  simp only [cfgReservedClear, beq_iff_eq, ← BitVec.toNat_inj, BitVec.extractLsb'_toNat, Nat.shiftRight_eq_div_pow,
    BitVec.toNat_ofNat]
  omega

theorem flagsReservedClear_iff (flags : Byte) : flagsReservedClear flags = true ↔ flags.toNat ≤ 1 := by
  have := flags.isLt
  simp only [flagsReservedClear, beq_iff_eq, ← BitVec.toNat_inj, BitVec.extractLsb'_toNat, Nat.shiftRight_eq_div_pow,
    BitVec.toNat_ofNat]
  omega

@[simp] theorem except_ok_bind {ε α β : Type} (a : α) (f : α → Except ε β) : (Except.ok a >>= f) = f a := rfl

/-! Reading what the encoder wrote, format by format (R83). -/

theorem decodeConstructHw_operandBytes {cs : Option Pin} {freq : Nat} {order : BitOrder} {mode : Nat} {periph : PeriphRef}
    (h : (Instr.constructHw cs freq order mode periph).wf = true) (rest : List Byte) :
    decodeConstructHw ((Instr.constructHw cs freq order mode periph).operandBytes ++ rest) =
      .ok (.constructHw cs freq order mode periph, rest) := by
  simp only [Instr.wf, Bool.and_eq_true, decide_eq_true_eq] at h
  obtain ⟨⟨⟨hcs, hfreq⟩, hmode⟩, hperiph⟩ := h
  obtain ⟨p, hp, rfl⟩ := csFits_iff.mp hcs
  obtain ⟨hclear, hmosi, hmiso, horder, hdata⟩ := cfgByte_fields order mode false false hmode
  simp [Instr.operandBytes, le32, decodeConstructHw, hclear, hmosi, hmiso, horder, hdata, u32_le32 hfreq,
    toNat_pinByte_some hp, Nat.mod_eq_of_lt hperiph]

theorem decodeConstructSw_operandBytes {cs : Option Pin} {clk : Pin} {miso mosi : Option Pin} {freq : Nat}
    {order : BitOrder} {mode : Nat} (h : (Instr.constructSw cs clk miso mosi freq order mode).wf = true)
    (rest : List Byte) :
    decodeConstructSw ((Instr.constructSw cs clk miso mosi freq order mode).operandBytes ++ rest) =
      .ok (.constructSw cs clk miso mosi freq order mode, rest) := by
  simp only [Instr.wf, Bool.and_eq_true, decide_eq_true_eq] at h
  obtain ⟨⟨⟨⟨⟨hcs, hclk⟩, hmiso⟩, hmosi⟩, hfreq⟩, hmode⟩ := h
  obtain ⟨p, hp, rfl⟩ := csFits_iff.mp hcs
  obtain ⟨hclear, hhasMosi, hhasMiso, horder, hdata⟩ := cfgByte_fields order mode mosi.isSome miso.isSome hmode
  simp [Instr.operandBytes, le32, decodeConstructSw, hclear, hhasMosi, hhasMiso, horder, hdata, u32_le32 hfreq,
    decodePin_pinByte miso hmiso, decodePin_pinByte mosi hmosi, toNat_pinByte_some hp, Nat.mod_eq_of_lt hclk]


theorem decodeWrite_operandBytes {buffer lead : SrcBuf} {invert : Bool} (h : (Instr.write buffer lead invert).wf = true)
    (rest : List Byte) :
    decodeWrite ((Instr.write buffer lead invert).operandBytes ++ rest) = .ok (.write buffer lead invert, rest) := by
  simp only [Instr.wf, Bool.and_eq_true] at h
  obtain ⟨data, hdata, rfl⟩ := srcBuf_wf_iff.mp h.1
  obtain ⟨pre, hpre, rfl⟩ := srcBuf_wf_iff.mp h.2
  obtain ⟨hclear, hinvert⟩ := flags_fields invert
  simp [Instr.operandBytes, le16, decodeWrite, hclear, hinvert, u16_le16 hdata, u16_le16 hpre,
    takeBytes_append, -BitVec.getLsbD_eq_getElem]

theorem decodeRead_operandBytes {buffer : DstBuf} {fill : Byte} (h : (Instr.read buffer fill).wf = true)
    (rest : List Byte) :
    decodeRead ((Instr.read buffer fill).operandBytes ++ rest) = .ok (.read buffer fill, rest) := by
  obtain ⟨n, hn, rfl⟩ := dstBuf_wf_iff.mp h
  simp [Instr.operandBytes, le16, decodeRead, u16_le16 hn]

theorem decodeWriteThenRead_operandBytes {source : SrcBuf} {buffer : DstBuf} {fill : Byte}
    (h : (Instr.writeThenRead source buffer fill).wf = true) (rest : List Byte) :
    decodeWriteThenRead ((Instr.writeThenRead source buffer fill).operandBytes ++ rest) =
      .ok (.writeThenRead source buffer fill, rest) := by
  simp only [Instr.wf, Bool.and_eq_true] at h
  obtain ⟨data, hdata, rfl⟩ := srcBuf_wf_iff.mp h.1
  obtain ⟨n, hn, rfl⟩ := dstBuf_wf_iff.mp h.2
  simp [Instr.operandBytes, le16, decodeWriteThenRead, u16_le16 hdata, u16_le16 hn,
    takeBytes_append]

theorem decodeRepeated_operandBytes {value : Byte} {times : Nat} {lead : SrcBuf}
    (h : (Instr.repeated value times lead).wf = true) (rest : List Byte) :
    decodeRepeated ((Instr.repeated value times lead).operandBytes ++ rest) = .ok (.repeated value times lead, rest) := by
  simp only [Instr.wf, Bool.and_eq_true, decide_eq_true_eq] at h
  obtain ⟨htimes, hlead⟩ := h
  obtain ⟨pre, hpre, rfl⟩ := srcBuf_wf_iff.mp hlead
  simp [Instr.operandBytes, le16, decodeRepeated, u16_le16 htimes, u16_le16 hpre,
    takeBytes_append]

theorem decodeTransfer_operandBytes {buffer : SrcBuf} (h : (Instr.transfer buffer).wf = true) (rest : List Byte) :
    decodeTransfer ((Instr.transfer buffer).operandBytes ++ rest) = .ok (.transfer buffer, rest) := by
  obtain ⟨data, hdata, rfl⟩ := srcBuf_wf_iff.mp h
  simp [Instr.operandBytes, le16, decodeTransfer, u16_le16 hdata, takeBytes_append]

/-- Settles O1 operation by operation: the opcode byte selects the format's decoder, which reads its own operand bytes back. -/
theorem encodeThenDecode : Obligations.EncodeThenDecode := by
  intro i rest h
  cases i with
  | constructHw => exact decodeConstructHw_operandBytes h rest
  | constructSw => exact decodeConstructSw_operandBytes h rest
  | write => exact decodeWrite_operandBytes h rest
  | read => exact decodeRead_operandBytes h rest
  | writeThenRead => exact decodeWriteThenRead_operandBytes h rest
  | repeated => exact decodeRepeated_operandBytes h rest
  | transfer => exact decodeTransfer_operandBytes h rest
  | _ => rfl

/-! What each format's decoder accepts, guards included. -/

theorem decodeConstructHw_eq_ok {bs rest : List Byte} {i : Instr} (h : decodeConstructHw bs = .ok (i, rest)) :
    ∃ cfg f0 f1 f2 f3 cs periph, bs = cfg :: f0 :: f1 :: f2 :: f3 :: cs :: periph :: rest ∧
      cfgReservedClear cfg = true ∧ cfgHasMosi cfg = false ∧ cfgHasMiso cfg = false ∧
      i = .constructHw (some cs.toNat) (u32 f0 f1 f2 f3) (cfgOrder cfg) (cfgMode cfg) periph.toNat := by
  unfold decodeConstructHw at h
  split at h
  · next cfg f0 f1 f2 f3 cs periph tail =>
    split at h
    · cases h
    · next hclear =>
      split at h
      · cases h
      · next hpins =>
        cases h
        simp only [Bool.or_eq_true, not_or, Bool.not_eq_true] at hpins
        exact ⟨cfg, f0, f1, f2, f3, cs, periph, rfl, by simpa using hclear, hpins.1, hpins.2, rfl⟩
  · cases h

theorem decodeConstructSw_eq_ok {bs rest : List Byte} {i : Instr} (h : decodeConstructSw bs = .ok (i, rest)) :
    ∃ cfg f0 f1 f2 f3 cs clk miso mosi misoPin mosiPin,
      bs = cfg :: f0 :: f1 :: f2 :: f3 :: cs :: clk :: miso :: mosi :: rest ∧ cfgReservedClear cfg = true ∧
      decodePin (cfgHasMiso cfg) miso = .ok misoPin ∧ decodePin (cfgHasMosi cfg) mosi = .ok mosiPin ∧
      i = .constructSw (some cs.toNat) clk.toNat misoPin mosiPin (u32 f0 f1 f2 f3) (cfgOrder cfg) (cfgMode cfg) := by
  unfold decodeConstructSw at h
  split at h
  · next cfg f0 f1 f2 f3 cs clk miso mosi tail =>
    split at h
    · cases h
    · next hclear =>
      obtain ⟨misoPin, hmiso, h⟩ := except_bind_eq_ok.mp h
      obtain ⟨mosiPin, hmosi, h⟩ := except_bind_eq_ok.mp h
      cases h
      exact ⟨cfg, f0, f1, f2, f3, cs, clk, miso, mosi, misoPin, mosiPin, rfl, by simpa using hclear, hmiso, hmosi, rfl⟩
  · cases h

theorem decodeWrite_eq_ok {bs rest : List Byte} {i : Instr} (h : decodeWrite bs = .ok (i, rest)) :
    ∃ flags p0 p1 l0 l1 pre data, bs = flags :: p0 :: p1 :: l0 :: l1 :: (pre ++ (data ++ rest)) ∧
      flagsReservedClear flags = true ∧ pre.length = u16 p0 p1 ∧ data.length = u16 l0 l1 ∧
      i = .write (inlineBuf data) (inlineBuf pre) (flags.getLsbD 0) := by
  unfold decodeWrite at h
  split at h
  · next flags p0 p1 l0 l1 tail =>
    split at h
    · cases h
    · next hclear =>
      obtain ⟨⟨pre, tail'⟩, hpre, h⟩ := except_bind_eq_ok.mp h
      obtain ⟨⟨data, tail''⟩, hdata, h⟩ := except_bind_eq_ok.mp h
      cases h
      obtain ⟨rfl, hplen⟩ := takeBytes_eq_ok hpre
      obtain ⟨rfl, hlen⟩ := takeBytes_eq_ok hdata
      exact ⟨flags, p0, p1, l0, l1, pre, data, rfl, by simpa using hclear, hplen, hlen, rfl⟩
  · cases h

theorem decodeRead_eq_ok {bs rest : List Byte} {i : Instr} (h : decodeRead bs = .ok (i, rest)) :
    ∃ fill l0 l1, bs = fill :: l0 :: l1 :: rest ∧ i = .read (lengthBuf (u16 l0 l1)) fill := by
  unfold decodeRead at h
  split at h
  · next fill l0 l1 tail =>
    cases h
    exact ⟨fill, l0, l1, rfl, rfl⟩
  · cases h

theorem decodeWriteThenRead_eq_ok {bs rest : List Byte} {i : Instr} (h : decodeWriteThenRead bs = .ok (i, rest)) :
    ∃ fill w0 w1 r0 r1 data, bs = fill :: w0 :: w1 :: r0 :: r1 :: (data ++ rest) ∧ data.length = u16 w0 w1 ∧
      i = .writeThenRead (inlineBuf data) (lengthBuf (u16 r0 r1)) fill := by
  unfold decodeWriteThenRead at h
  split at h
  · next fill w0 w1 r0 r1 tail =>
    obtain ⟨⟨data, tail'⟩, hdata, h⟩ := except_bind_eq_ok.mp h
    cases h
    obtain ⟨rfl, hlen⟩ := takeBytes_eq_ok hdata
    exact ⟨fill, w0, w1, r0, r1, data, rfl, hlen, rfl⟩
  · cases h

theorem decodeRepeated_eq_ok {bs rest : List Byte} {i : Instr} (h : decodeRepeated bs = .ok (i, rest)) :
    ∃ value t0 t1 p0 p1 pre, bs = value :: t0 :: t1 :: p0 :: p1 :: (pre ++ rest) ∧ pre.length = u16 p0 p1 ∧
      i = .repeated value (u16 t0 t1) (inlineBuf pre) := by
  unfold decodeRepeated at h
  split at h
  · next value t0 t1 p0 p1 tail =>
    obtain ⟨⟨pre, tail'⟩, hpre, h⟩ := except_bind_eq_ok.mp h
    cases h
    obtain ⟨rfl, hlen⟩ := takeBytes_eq_ok hpre
    exact ⟨value, t0, t1, p0, p1, pre, rfl, hlen, rfl⟩
  · cases h

theorem decodeTransfer_eq_ok {bs rest : List Byte} {i : Instr} (h : decodeTransfer bs = .ok (i, rest)) :
    ∃ l0 l1 data, bs = l0 :: l1 :: (data ++ rest) ∧ data.length = u16 l0 l1 ∧ i = .transfer (inlineBuf data) := by
  unfold decodeTransfer at h
  split at h
  · next l0 l1 tail =>
    obtain ⟨⟨data, tail'⟩, hdata, h⟩ := except_bind_eq_ok.mp h
    cases h
    obtain ⟨rfl, hlen⟩ := takeBytes_eq_ok hdata
    exact ⟨l0, l1, data, rfl, hlen, rfl⟩
  · cases h

theorem decodeImm_eq_ok {f : Byte → Instr} {bs rest : List Byte} {i : Instr} (h : decodeImm f bs = .ok (i, rest)) :
    ∃ b, bs = b :: rest ∧ i = f b := by
  unfold decodeImm at h
  split at h
  · next b tail =>
    cases h
    exact ⟨b, rfl, rfl⟩
  · cases h

/-! What a decoder accepts is what the encoder writes. -/

/-- The operation `i` is one a descriptor can carry, its opcode is `op`, and `bs` is its operand bytes followed by `rest`. -/
def ReadsAs (op : Nat) (bs : List Byte) (i : Instr) (rest : List Byte) : Prop :=
  i.wf = true ∧ i.opcode.toNat = op ∧ bs = i.operandBytes ++ rest

/-- Bytes that read as an operation are its descriptor. -/
theorem ReadsAs.eq_encode {op : Byte} {bs rest : List Byte} {i : Instr} (h : ReadsAs op.toNat bs i rest) :
    i.wf = true ∧ op :: bs = encode i ++ rest := by
  obtain ⟨hwf, hop, rfl⟩ := h
  obtain rfl := BitVec.eq_of_toNat_eq hop
  exact ⟨hwf, rfl⟩

theorem inlineBuf_wf {bs : List Byte} {b0 b1 : Byte} (h : bs.length = u16 b0 b1) : (inlineBuf bs).wf = true :=
  srcBuf_wf_iff.mpr ⟨bs, h ▸ u16_lt b0 b1, rfl⟩

theorem lengthBuf_u16_wf (b0 b1 : Byte) : (lengthBuf (u16 b0 b1)).wf = true :=
  dstBuf_wf_iff.mpr ⟨_, u16_lt b0 b1, rfl⟩

theorem csFits_toNat (b : Byte) : csFits (some b.toNat) = true := csFits_iff.mpr ⟨_, b.isLt, rfl⟩

theorem pinByte_toNat (b : Byte) : pinByte (some b.toNat) = b := by simp [pinByte]

theorem decodeConstructHw_readsAs {bs rest : List Byte} {i : Instr} (h : decodeConstructHw bs = .ok (i, rest)) :
    ReadsAs 0x00 bs i rest := by
  obtain ⟨cfg, f0, f1, f2, f3, cs, periph, rfl, hclear, hmosi, hmiso, rfl⟩ := decodeConstructHw_eq_ok h
  have hcfg := cfgByte_of_fields cfg hclear
  rw [hmosi, hmiso] at hcfg
  exact ⟨by simp [Instr.wf, csFits_toNat, u32_lt, cfgMode_lt, periph.isLt], rfl,
    by simp [Instr.operandBytes, hcfg, le32_u32, pinByte_toNat]⟩

theorem decodeConstructSw_readsAs {bs rest : List Byte} {i : Instr} (h : decodeConstructSw bs = .ok (i, rest)) :
    ReadsAs 0x01 bs i rest := by
  obtain ⟨cfg, f0, f1, f2, f3, cs, clk, miso, mosi, misoPin, mosiPin, rfl, hclear, hmiso, hmosi, rfl⟩ :=
    decodeConstructSw_eq_ok h
  obtain ⟨fmiso, pmiso, rfl⟩ := decodePin_eq_ok hmiso
  obtain ⟨fmosi, pmosi, rfl⟩ := decodePin_eq_ok hmosi
  exact ⟨by simp [Instr.wf, csFits_toNat, u32_lt, cfgMode_lt, clk.isLt, fmiso, fmosi], rfl,
    by simp [Instr.operandBytes, pmiso, pmosi, cfgByte_of_fields cfg hclear, le32_u32, pinByte_toNat]⟩

theorem decodeWrite_readsAs {bs rest : List Byte} {i : Instr} (h : decodeWrite bs = .ok (i, rest)) :
    ReadsAs 0x08 bs i rest := by
  obtain ⟨flags, p0, p1, l0, l1, pre, data, rfl, hclear, hpre, hdata, rfl⟩ := decodeWrite_eq_ok h
  exact ⟨by simp [Instr.wf, inlineBuf_wf hpre, inlineBuf_wf hdata], rfl,
    by simp [Instr.operandBytes, flags_of_fields flags hclear, hpre, hdata, le16_u16, -BitVec.getLsbD_eq_getElem]⟩

theorem decodeRead_readsAs {bs rest : List Byte} {i : Instr} (h : decodeRead bs = .ok (i, rest)) :
    ReadsAs 0x09 bs i rest := by
  obtain ⟨fill, l0, l1, rfl, rfl⟩ := decodeRead_eq_ok h
  exact ⟨lengthBuf_u16_wf l0 l1, rfl, by simp [Instr.operandBytes, le16_u16]⟩

theorem decodeWriteThenRead_readsAs {bs rest : List Byte} {i : Instr} (h : decodeWriteThenRead bs = .ok (i, rest)) :
    ReadsAs 0x0A bs i rest := by
  obtain ⟨fill, w0, w1, r0, r1, data, rfl, hdata, rfl⟩ := decodeWriteThenRead_eq_ok h
  exact ⟨by simp [Instr.wf, inlineBuf_wf hdata, lengthBuf_u16_wf], rfl,
    by simp [Instr.operandBytes, hdata, le16_u16]⟩

theorem decodeRepeated_readsAs {bs rest : List Byte} {i : Instr} (h : decodeRepeated bs = .ok (i, rest)) :
    ReadsAs 0x0B bs i rest := by
  obtain ⟨value, t0, t1, p0, p1, pre, rfl, hpre, rfl⟩ := decodeRepeated_eq_ok h
  exact ⟨by simp [Instr.wf, u16_lt, inlineBuf_wf hpre], rfl, by simp [Instr.operandBytes, hpre, le16_u16]⟩

theorem decodeTransfer_readsAs {bs rest : List Byte} {i : Instr} (h : decodeTransfer bs = .ok (i, rest)) :
    ReadsAs 0x0C bs i rest := by
  obtain ⟨l0, l1, data, rfl, hdata, rfl⟩ := decodeTransfer_eq_ok h
  exact ⟨inlineBuf_wf hdata, rfl, by simp [Instr.operandBytes, hdata, le16_u16]⟩

/-- The opcode byte selects the format, which reads its own encoding; the last cases are the seven operations without operands. -/
theorem decode_readsAs {op : Byte} {bs rest : List Byte} {i : Instr} (h : decode (op :: bs) = .ok (i, rest)) :
    ReadsAs op.toNat bs i rest := by
  simp only [decode] at h
  split at h
  case h_1 hop => rw [hop]; exact decodeConstructHw_readsAs h
  case h_2 hop => rw [hop]; exact decodeConstructSw_readsAs h
  case h_9 hop => rw [hop]; exact decodeWrite_readsAs h
  case h_10 hop => rw [hop]; exact decodeRead_readsAs h
  case h_11 hop => rw [hop]; exact decodeWriteThenRead_readsAs h
  case h_12 hop => rw [hop]; exact decodeRepeated_readsAs h
  case h_13 hop => rw [hop]; exact decodeTransfer_readsAs h
  case h_14 hop | h_15 hop =>
    obtain ⟨b, rfl, rfl⟩ := decodeImm_eq_ok h
    exact ⟨rfl, hop.symm, rfl⟩
  case h_17 => cases h
  all_goals
    next hop =>
    cases h
    exact ⟨rfl, hop.symm, rfl⟩

/-- Settles O2: no bytes decode to nothing, and behind an opcode byte each format accepts only its own encoding. -/
theorem decodeThenEncode : Obligations.DecodeThenEncode := by
  intro bs i rest h
  cases bs with
  | nil => cases h
  | cons op bs => exact (decode_readsAs h).eq_encode

/-! Malformed descriptors (R94). -/

theorem decode_constructHw (bs : List Byte) : decode (0x00#8 :: bs) = decodeConstructHw bs := rfl
theorem decode_constructSw (bs : List Byte) : decode (0x01#8 :: bs) = decodeConstructSw bs := rfl
theorem decode_write (bs : List Byte) : decode (0x08#8 :: bs) = decodeWrite bs := rfl

theorem opcode_lt (i : Instr) : i.opcode.toNat < 0x10 := by
  cases i <;> simp [Instr.opcode]

/-- Beside a cleared presence bit only 0xFF decodes (R85). -/
theorem eq_ff_of_decodePin {present : Bool} {b : Byte} {p : Option Pin} (hb : present = false)
    (h : decodePin present b = .ok p) : b = 0xFF#8 := by
  obtain ⟨-, hsome, rfl⟩ := decodePin_eq_ok h
  rw [hb, Option.isSome_eq_false_iff, Option.isNone_iff_eq_none] at hsome
  rw [hsome]
  rfl

theorem decodeDescriptor_eq_ok {bs : List Byte} {i : Instr} :
    decodeDescriptor bs = .ok i ↔ decode bs = .ok (i, []) := by
  unfold decodeDescriptor
  split <;> simp_all

end Sys2Proof

namespace Sys2Proof.Machine

/-! The step that takes a descriptor. -/

/-- An idle machine runs the operation that the bytes issued first are the descriptor of. -/
theorem step_descriptor {s : State} {bs : List Byte} {l : List Request} {i : Instr} (hidle : s.seq = none)
    (hp : s.pending = .descriptor bs :: l) (hd : decodeDescriptor bs = .ok i) : step s = exec i (s.setPending l) := by
  simp only [step, fetch, hidle, hp, hd]

/-- An idle machine runs the abstract call issued first. -/
theorem step_call {s : State} {l : List Request} {i : Instr} (hidle : s.seq = none) (hp : s.pending = .call i :: l) :
    step s = exec i (s.setPending l) := by
  simp only [step, fetch, hidle, hp]

/-- An idle machine refuses bytes issued first that are no descriptor. -/
theorem step_malformed {s : State} {bs : List Byte} {l : List Request} {e : DecodeError} (hidle : s.seq = none)
    (hp : s.pending = .descriptor bs :: l) (hd : decodeDescriptor bs = .error e) :
    step s = .refused (.malformedDescriptor e) := by
  simp only [step, fetch, hidle, hp, hd]

/-- Bytes the decoder never accepts are refused by a step too. -/
theorem bytesRefused_of_decode_ne_ok {bs : List Byte} (h : ∀ i rest, decode bs ≠ .ok (i, rest)) : BytesRefused bs := by
  refine ⟨h, fun s l hidle hp => ?_⟩
  cases hd : decodeDescriptor bs with
  | ok i => exact absurd (decodeDescriptor_eq_ok.mp hd) (h i [])
  | error e => exact ⟨e, step_malformed hidle hp hd⟩

theorem unassignedOpcode_refused {op : Byte} (hop : 0x10 ≤ op.toNat) (rest : List Byte) : BytesRefused (op :: rest) := by
  refine bytesRefused_of_decode_ne_ok fun i tail h => ?_
  obtain ⟨-, hi, -⟩ := decode_readsAs h
  have := opcode_lt i
  omega

theorem reservedFlags_refused {flags : Byte} (hf : 1 < flags.toNat) (rest : List Byte) :
    BytesRefused (0x08#8 :: flags :: rest) := by
  refine bytesRefused_of_decode_ne_ok fun i tail h => ?_
  obtain ⟨_, _, _, _, _, _, _, hbs, hclear, -⟩ := decodeWrite_eq_ok (decode_write _ ▸ h)
  cases hbs
  have := (flagsReservedClear_iff flags).mp hclear
  omega

theorem constructHw_cfg_refused {cfg : Byte}
    (hc : 0x20 ≤ cfg.toNat ∨ cfg.getLsbD 3 = true ∨ cfg.getLsbD 4 = true) (rest : List Byte) :
    BytesRefused (0x00#8 :: cfg :: rest) := by
  refine bytesRefused_of_decode_ne_ok fun i tail h => ?_
  obtain ⟨_, _, _, _, _, _, _, hbs, hclear, hmosi, hmiso, -⟩ := decodeConstructHw_eq_ok (decode_constructHw _ ▸ h)
  cases hbs
  rcases hc with hr | hb | hb
  · have := (cfgReservedClear_iff cfg).mp hclear
    omega
  · exact Bool.noConfusion (hb.symm.trans hmosi)
  · exact Bool.noConfusion (hb.symm.trans hmiso)

theorem constructSw_reservedCfg_refused {cfg : Byte} (hc : 0x20 ≤ cfg.toNat) (rest : List Byte) :
    BytesRefused (0x01#8 :: cfg :: rest) := by
  refine bytesRefused_of_decode_ne_ok fun i tail h => ?_
  obtain ⟨_, _, _, _, _, _, _, _, _, _, _, hbs, hclear, -⟩ := decodeConstructSw_eq_ok (decode_constructSw _ ▸ h)
  cases hbs
  have := (cfgReservedClear_iff cfg).mp hclear
  omega

theorem pinBesideClearedBit_refused {cfg f0 f1 f2 f3 cs clk miso mosi : Byte}
    (hc : (cfg.getLsbD 3 = false ∧ mosi ≠ 0xFF#8) ∨ (cfg.getLsbD 4 = false ∧ miso ≠ 0xFF#8)) (rest : List Byte) :
    BytesRefused (0x01#8 :: cfg :: f0 :: f1 :: f2 :: f3 :: cs :: clk :: miso :: mosi :: rest) := by
  refine bytesRefused_of_decode_ne_ok fun i tail h => ?_
  obtain ⟨_, _, _, _, _, _, _, _, _, _, _, hbs, -, hmiso, hmosi, -⟩ := decodeConstructSw_eq_ok (decode_constructSw _ ▸ h)
  cases hbs
  rcases hc with ⟨hb, hne⟩ | ⟨hb, hne⟩
  · exact hne (eq_ff_of_decodePin hb hmosi)
  · exact hne (eq_ff_of_decodePin hb hmiso)

/-- Settles O3: bytes of each kind fail a guard that every accepted descriptor of their format meets. -/
theorem malformedDescriptorsRefused : Obligations.MalformedDescriptorsRefused := by
  refine ⟨fun _ rest h => unassignedOpcode_refused h rest, fun _ rest h => reservedFlags_refused h rest, ?_,
    fun _ rest h => constructHw_cfg_refused (.inr h) rest,
    fun _ _ _ _ _ _ _ _ _ rest h => pinBesideClearedBit_refused h rest⟩
  rintro op cfg rest (rfl | rfl) h
  · exact constructHw_cfg_refused (.inl h) rest
  · exact constructSw_reservedCfg_refused h rest

/-! Issued operations. -/

/-- Settles O5: whether called or decoded, the operation runs on the state without its request. -/
theorem stepRunsIssuedOperation : Obligations.StepRunsIssuedOperation := fun _ _ _ hidle =>
  ⟨fun _ hp hd => step_descriptor hidle hp (decodeDescriptor_eq_ok.mpr hd), fun hp => step_call hidle hp⟩

theorem decodeTableWord_eq_some {nbits w : Nat} {i : Instr} :
    decodeTableWord nbits w = some i ↔ decodeDescriptor (tableBytes nbits w) = .ok i := by
  unfold decodeTableWord
  split <;> simp_all

/-- Settles O6: the row's bits stand first, with the sequencer idle, and taking them away leaves the requests as they were. -/
theorem tableWordsRun : Obligations.TableWordsRun := by
  intro s nbits w i h
  exact step_descriptor (s := s.withFetchWord nbits w) rfl rfl (decodeTableWord_eq_some.mp h)

/-! Descriptors and defaults of the spec's text. -/

/-- Settles O4: the decoder runs on each of the twelve. -/
theorem writtenDescriptorsDecode : Obligations.WrittenDescriptorsDecode :=
  ⟨rfl, rfl, rfl, rfl, rfl, rfl, rfl, rfl, rfl, rfl, rfl, rfl⟩

/-- Settles O15: the defaults of the calls are those of R91, operand by operand. -/
theorem omittedOperandsHaveDefaults : Obligations.OmittedOperandsHaveDefaults :=
  ⟨fun _ => rfl, fun _ => rfl, fun _ _ => rfl, fun _ => rfl, fun _ _ => rfl⟩

end Sys2Proof.Machine

/-! PROOF. O11, O12, O13, O14, O16, O17, O18, O19, O20: construction, lifecycle and control (40_lifecycle_control.md R110 to R120). A
constructor's refusals come from the tests in front of `State.construct`; the signals, the toggles and DESTROY are each one instance of a
body shared by all of them; BEGIN answers part by part, and its pins are those its events leave (`pinGet_replay`). -/

namespace Sys2Proof.Machine

/-! Construction. -/

theorem exec_constructHw {mode : Nat} (hm : mode < 4) (s : State) (p freq periph : Nat) (order : BitOrder) :
    exec (.constructHw (some p) freq order mode periph) s =
      .next ((s.construct ⟨p, freq, order, BitVec.ofNat 2 mode, .hardware periph⟩).finish { value := .handle }) := by
  simp only [exec, execConstructHw, withDataMode_good hm, withCsPin_some]

theorem exec_constructSw {mode p clk : Nat} {miso mosi : Option Pin} (hm : mode < 4)
    (hd : (presentPins (some p) clk miso mosi).Nodup) (s : State) (freq : Nat) (order : BitOrder) :
    exec (.constructSw (some p) clk miso mosi freq order mode) s =
      .next ((s.construct ⟨p, freq, order, BitVec.ofNat 2 mode, .software ⟨clk, mosi, miso⟩⟩).finish
        { value := .handle }) := by
  simp only [exec, execConstructSw, withDataMode_good hm, withDistinct_good hd, withCsPin_some]

/-- What a construction leaves: the new handle, the block's view of its pins fresh (10_state.md R40; log 8), and every other pin, the
trace, the requests and the environment as before. -/
theorem constructed {x : Res State} {s : State} {c : Cfg} (hx : x = .next ((s.construct c).finish { value := .handle })) :
    ∃ t, x = .next t ∧ t.handle = some (Handle.fresh c) ∧ t.trace = s.trace ∧ t.ret = { value := .handle } ∧
      t.pending = s.pending ∧ t.env = s.env ∧ t.seq = none ∧ (∀ q ∈ c.pins, t.pin q = .initial) ∧
      PinsKept c.pins s.pins t.pins := by
  refine ⟨_, hx, rfl, rfl, rfl, rfl, rfl, rfl, fun q hq => ?_, fun q hq => ?_⟩
  · rw [pin_eq, finish_pins, construct_pins, pinGet_foldr_pinClear, if_pos hq]
  · rw [finish_pins, construct_pins, pinGet_foldr_pinClear, if_neg hq]

/-- Settles O11: a Hardware configuration, whose one pin is chip-select. -/
theorem constructHwMakesHandle : Obligations.ConstructHwMakesHandle := by
  intro s p freq mode periph order hm
  obtain ⟨t, hx, hhandle, htrace, hret, hpending, henv, hseq, hfresh, hkept⟩ :=
    constructed (exec_constructHw hm s p freq periph order)
  exact ⟨t, hx, hhandle, htrace, hret, hpending, henv, hseq, hfresh p List.mem_cons_self, hkept⟩

/-- Settles O12: a Software configuration, whose pins are those given. -/
theorem constructSwMakesHandle : Obligations.ConstructSwMakesHandle := by
  intro s p clk freq mode miso mosi order hm hd
  exact (constructed (exec_constructSw hm hd s freq order) :)

/-- The refusal of the data mode and that of a later test are the same one (R112). -/
theorem withDataMode_contractViolation {α : Type} {mode : Nat} {k : BitVec 2 → Res α}
    (h : 4 ≤ mode ∨ ∀ m, k m = .refused .contractViolation) : withDataMode mode k = .refused .contractViolation := by
  rcases Nat.lt_or_ge mode 4 with hm | hm
  · rw [withDataMode_good hm]
    exact h.resolve_left (Nat.not_le.mpr hm) _
  · exact withDataMode_bad hm k

theorem exec_constructSw_pinClash {mode clk : Nat} {cs miso mosi : Option Pin} (hm : mode < 4)
    (hd : ¬ (presentPins cs clk miso mosi).Nodup) (s : State) (freq : Nat) (order : BitOrder) :
    exec (.constructSw cs clk miso mosi freq order mode) s = .refused .pinClash := by
  simp only [exec, execConstructSw, withDataMode_good hm, withDistinct_bad hd]

/-- Settles O13: an unset chip-select is found after the data mode, in CONSTRUCT_SW after the pins too, where
a clash is refused first. -/
theorem contractViolationsRefused : Obligations.ContractViolationsRefused := by
  intro s cs miso mosi clk freq mode periph order h
  have hsw (hd : (presentPins cs clk miso mosi).Nodup) :
      exec (.constructSw cs clk miso mosi freq order mode) s = .refused .contractViolation := by
    simp only [exec, execConstructSw, withDistinct_good hd]
    exact withDataMode_contractViolation (h.imp_right fun (hcs : cs = none) _ => hcs ▸ withCsPin_none _)
  refine ⟨?_, ?_, hsw⟩
  · simp only [exec, execConstructHw]
    exact withDataMode_contractViolation (h.imp_right fun (hcs : cs = none) _ => hcs ▸ withCsPin_none _)
  · by_cases hd : (presentPins cs clk miso mosi).Nodup
    · exact ⟨_, hsw hd⟩
    rcases Nat.lt_or_ge mode 4 with hm | hm
    · exact ⟨_, exec_constructSw_pinClash hm hd s freq order⟩
    · simp only [exec, execConstructSw, withDataMode_bad hm]
      exact ⟨_, rfl⟩

/-- Settles O14: with a legal data mode the pins are the next test. -/
theorem equalPinsRefused : Obligations.EqualPinsRefused := fun s _ _ p _ freq _ order hm hd =>
  exec_constructSw_pinClash (cs := some p) hm hd s freq order

/-! Signals to the peripheral, chip-select control, and the end of a handle. -/

/-- In Hardware mode after BEGIN a signal that returns makes its event and changes nothing else. -/
theorem operation_onlyHardware_hardware {op : Instr} {s : State} {h : Handle} {periph : PeriphRef}
    {sig : Handle → State → Res State} {call : Prim} {e : Event} (hs : s.handle = some h) (hb : h.cfg.bus = .hardware periph) (hi : h.isInitialized = true)
    (hsig : sig h (s.start op) = .next (((s.start op).atCall call).emit e)) :
    operation op s (fun h s => onlyHardware h (sig h) s) =
      .next { s with trace := s.trace ++ [e], ret := { value := .nothing }, seq := none } := by
  unfold onlyHardware
  rw [operation_live hs, hb]
  dsimp only
  rw [whenInitialized_true hi, hsig]
  rfl

/-- In Software mode a signal is a no-op (D27). -/
theorem operation_onlyHardware_software {op : Instr} {s : State} {h : Handle} {w : SwPins} {sig : Handle → State → Res State}
    (hs : s.handle = some h) (hb : h.cfg.bus = .software w) :
    operation op s (fun h s => onlyHardware h (sig h) s) = .next { s with ret := { value := .nothing }, seq := none } := by
  unfold onlyHardware
  rw [operation_live hs, hb]
  rfl

/-- Settles O17: END is the signal `PR`. -/
theorem endReleasesPeripheralOnly : Obligations.EndReleasesPeripheralOnly := fun _ _ hs =>
  ⟨fun _ hb hi hr => operation_onlyHardware_hardware (sig := fun _ => periphRelease) hs hb hi (periphRelease_returns hr),
    fun _ hb => operation_onlyHardware_software (sig := fun _ => periphRelease) hs hb⟩

/-- Settles O18: the two are the signals `PB`, with the settings of the handle's configuration, and `PE`. -/
theorem transactionSignals : Obligations.TransactionSignals := fun _ _ hs =>
  ⟨fun _ hb hi hr =>
    ⟨operation_onlyHardware_hardware (sig := fun h => periphBeginTransaction h.cfg) hs hb hi (periphBeginTransaction_returns _ hr),
      operation_onlyHardware_hardware (sig := fun _ => periphEndTransaction) hs hb hi (periphEndTransaction_returns hr)⟩,
    fun _ hb =>
    ⟨operation_onlyHardware_software (sig := fun h => periphBeginTransaction h.cfg) hs hb,
      operation_onlyHardware_software (sig := fun _ => periphEndTransaction) hs hb⟩⟩

/-- An operation that only writes the handle. -/
theorem operation_setHandle {op : Instr} {s : State} {h : Handle} (hs : s.handle = some h) (f : Handle → Option Handle)
    (r : Ret) :
    operation op s (fun h s => .next (r, s.setHandle (f h))) = .next { s with handle := f h, ret := r, seq := none } := by
  rw [operation_live hs]
  rfl

/-- Settles O19: each writes the handle back with the flag changed. -/
theorem csTogglesWriteTheFlag : Obligations.CsTogglesWriteTheFlag := fun _ _ hs =>
  ⟨operation_setHandle hs (fun h => some (h.withCsControl false)) _,
    operation_setHandle hs (fun h => some (h.withCsControl true)) _⟩

/-- Settles O20: DESTROY writes no handle in the handle's place. -/
theorem destroyLeavesPins : Obligations.DestroyLeavesPins := fun _ _ hs => operation_setHandle hs (fun _ => none) _

/-! BEGIN answers. -/

/-- `x`, run from `s`, answers a state with the environment and the working registers as before. -/
def Answers (s : State) (x : Res State) : Prop := ∃ t, x = .next t ∧ t.env = s.env ∧ t.regs = s.regs

theorem Answers.refl (s : State) : Answers s (.next s) := ⟨s, rfl, rfl, rfl⟩

/-- The second part may use that the first answered, and that primitives still return. -/
theorem Answers.andThen {s : State} {x : Res State} {f : State → Res State} (hr : PrimitivesReturn s) (hx : Answers s x)
    (hf : ∀ t, x = .next t → PrimitivesReturn t → Answers t (f t)) : Answers s (andThen x f) := by
  obtain ⟨t, rfl, henv, hregs⟩ := hx
  obtain ⟨u, hu, henv', hregs'⟩ := hf t rfl ((congrArg Env.stall henv).trans hr)
  exact ⟨u, hu, henv'.trans henv, hregs'.trans hregs⟩

section
variable {s : State}

theorem pinMode_answers (hr : PrimitivesReturn s) (r : Role) (p : Pin) (d : Dir) : Answers s (pinMode r p d s) :=
  ⟨_, pinMode_returns r p d hr, rfl, rfl⟩

/-- The direction is set first, so the level is written to an output (R113, D6). -/
theorem beginOutput_answers (hr : PrimitivesReturn s) (r : Role) (p : Option Pin) (v : Level) : Answers s (beginOutput r p v s) := by
  cases p with
  | none => exact .refl s
  | some p =>
    refine (pinMode_answers hr r p .output).andThen hr fun t ht hrt => ?_
    have hdir : (t.pin p).dir = .output := by
      rw [pinMode_returns r p .output hr] at ht
      cases ht
      simp [pin_eq]
    exact ⟨_, pinWrite_returns r p v hrt hdir, rfl, rfl⟩

theorem beginInput_answers (hr : PrimitivesReturn s) (r : Role) (p : Option Pin) : Answers s (beginInput r p s) := by
  cases p with
  | none => exact .refl s
  | some p => exact pinMode_answers hr r p .input

theorem beginCs_answers (hr : PrimitivesReturn s) (c : Cfg) : Answers s (beginCs c s) := by
  unfold beginCs
  split
  · exact beginOutput_answers hr .cs (some c.csPin) true
  · exact .refl s

theorem beginBus_answers (hr : PrimitivesReturn s) (c : Cfg) : Answers s (beginBus c s) := by
  unfold beginBus
  split
  · exact ⟨_, periphSetup_returns hr, rfl, rfl⟩
  · exact (beginOutput_answers hr .clk _ _).andThen hr fun t _ ht =>
      (beginOutput_answers ht .mosi _ _).andThen ht fun u _ hu => beginInput_answers hu .miso _

/-- BEGIN of a live handle answers, with success, whatever the state of its pins (R114). -/
theorem exec_begin_answers {h : Handle} (hs : s.handle = some h) (hr : PrimitivesReturn s) :
    ∃ t, exec .beginInit s = .next t ∧ t.ret = { value := .success true } ∧ t.env = s.env ∧ t.regs = s.regs := by
  have hstart : PrimitivesReturn (s.start .beginInit) := hr
  obtain ⟨t, ht, henv, hregs⟩ := (beginCs_answers hstart h.cfg).andThen hstart fun u _ hu => beginBus_answers hu h.cfg
  refine ⟨(t.setHandle (some h.initialized)).finish { value := .success true }, ?_, rfl, henv, hregs⟩
  simp only [exec, execBegin, operation_live hs, ← andThen_assoc, ht, andThen_next]

end

/-! The pins BEGIN's events leave. -/

/-- Optional events of an absent pin change nothing. -/
theorem foldl_after_ite (r : Role) (b : Bool) (es : List Event) (v : PinState) :
    (if b then es else []).foldl (PinState.after r) v = if b then es.foldl (PinState.after r) v else v := by
  cases b <;> rfl

theorem beginEvents_after_cs (c : Cfg) (on : Bool) (v : PinState) :
    (beginEvents c on).foldl (PinState.after .cs) v = if on then ⟨.output, some true⟩ else v := by
  cases on with
  | false => exact foldl_after_cs_of_off beginEvents_false_onCs v
  | true =>
    rw [beginEvents_true]
    exact foldl_after_cs_of_off beginEvents_false_onCs _

section
variable {c : Cfg} {w : SwPins}

theorem beginEvents_after_clk (hb : c.bus = .software w) (on : Bool) (v : PinState) :
    (beginEvents c on).foldl (PinState.after .clk) v = ⟨.output, some c.idleLevel⟩ := by
  simp [beginEvents, hb, List.foldl_append, foldl_after_ite, PinState.after]

theorem beginEvents_after_mosi (hb : c.bus = .software w) (hmosi : w.mosi.isSome = true) (on : Bool) (v : PinState) :
    (beginEvents c on).foldl (PinState.after .mosi) v = ⟨.output, some Config.mosiInitLevel⟩ := by
  simp [beginEvents, hb, hmosi, List.foldl_append, foldl_after_ite, PinState.after]

theorem beginEvents_after_miso (hb : c.bus = .software w) (hmiso : w.miso.isSome = true) (on : Bool) (v : PinState) :
    (beginEvents c on).foldl (PinState.after .miso) v = { v with dir := .input } := by
  simp [beginEvents, hb, hmiso, List.foldl_append, foldl_after_ite, PinState.after]

end

/-- An operation's events write no pin but the handle's. -/
theorem replay_pinsKept (c : Cfg) (m : Pins) (es : List Event) : PinsKept c.pins m (replay c m es) :=
  replay_kept es m fun _ _ r _ p hp => by
    rw [pins_eq_filterMap_pinOf]
    exact List.mem_filterMap.mpr ⟨r, by cases r <;> decide, hp⟩

/-- Settles O16: BEGIN answers (`exec_begin_answers`), its events are R113's (`returned_begin`), and each pin of the handle is as the
events of its role leave it. -/
theorem beginConfigures : Obligations.BeginConfigures := by
  intro s h hs hd hr
  obtain ⟨t, hx, hret, henv, hregs⟩ := exec_begin_answers hs hr
  obtain ⟨htrace, hpins, hhandle, -, -⟩ := returned_begin hs hx
  obtain ⟨-, hpending, hseq⟩ := traceOnlyGrows s t _ hx
  have hpin : ∀ {r p}, h.cfg.pinOf r = some p →
      t.pin p = (beginEvents h.cfg h.csControlEnabled).foldl (PinState.after r) (s.pin p) := by
    intro r p hp
    rw [pin_eq, hpins]
    exact pinGet_replay hd hp _ _
  refine ⟨t, hx, htrace, hhandle, hret, hpending, henv, hregs, hseq,
    (hpin (r := .cs) rfl).trans (beginEvents_after_cs _ _ _), fun w hb => ⟨?_, fun p hp => ?_, fun p hp => ?_⟩,
    hpins ▸ replay_pinsKept _ _ _⟩
  · rw [hpin (r := .clk) (by simp [Cfg.pinOf, hb])]
    exact beginEvents_after_clk hb _ _
  · rw [hpin (r := .mosi) (by simpa [Cfg.pinOf, hb] using hp)]
    exact beginEvents_after_mosi hb (Option.isSome_of_mem hp) _ _
  · rw [hpin (r := .miso) (by simpa [Cfg.pinOf, hb] using hp), beginEvents_after_miso hb (Option.isSome_of_mem hp)]

end Sys2Proof.Machine

/-! PROOF. O26, O27, O28, O29, O30, O31, O32, O33, O34, O48: what the Transfer Engine does (41_transfer_engine.md). TRANSFER and
TRANSFER_BYTE are one invocation on their stream (`engineOp_did`), whose events are slots (`streamEvents`); counts, the loopback and the
latches after it are read off those slots. -/

namespace Sys2Proof.Machine

/-! Constants of the engine. -/

theorem halfPeriodUs_eq (f : Nat) : halfPeriodUs f = 1000000 / (f * 2) := by
  unfold halfPeriodUs
  split
  · next hf => simp [hf]
  · exact Nat.div_div_eq_div_mul _ _ _

theorem halfPeriodUs_le (f : Nat) : halfPeriodUs f ≤ 500000 := by
  rw [halfPeriodUs_eq, Nat.mul_comm, ← Nat.div_div_eq_div_mul]
  exact Nat.div_le_self _ f

theorem halfPeriodUs_eq_zero_iff (f : Nat) : halfPeriodUs f = 0 ↔ f = 0 ∨ 500000 < f := by
  rw [halfPeriodUs_eq, Nat.div_eq_zero_iff]
  omega

theorem halfPeriodUs_eq_one_iff (f : Nat) : halfPeriodUs f = 1 ↔ 250001 ≤ f ∧ f ≤ 500000 := by
  rcases Nat.eq_zero_or_pos f with rfl | hf
  · simp [halfPeriodUs]
  · rw [halfPeriodUs_eq, Nat.div_eq_iff (Nat.mul_pos hf two_pos)]
    omega

/-- Settles O26: the half period is the one quotient `1000000 / (2 f)`. -/
theorem halfPeriodRanges : Obligations.HalfPeriodRanges :=
  ⟨halfPeriodUs_eq_zero_iff, halfPeriodUs_eq_one_iff, halfPeriodUs_le, rfl, rfl, rfl⟩

/-- Settles O27, by evaluation of the nine masks in either order. -/
theorem masksWalkTheByte : Obligations.MasksWalkTheByte := by
  unfold Obligations.MasksWalkTheByte
  decide

/-! TRANSFER and TRANSFER_BYTE. -/

/-- The two operations that are an engine invocation and nothing else (R140, R141). -/
def IsEngineOp (i : Instr) : Prop := (∃ b, i = .transfer b) ∨ ∃ b, i = .transferByte b

/-- What the two give back when the invocation left `rs`. -/
def engineRet : Instr → List Byte → Ret
  | .transfer b, rs => { value := .nothing, buffer := overwriteSrc b rs }
  | .transferByte b, rs => { value := .byte (rs.headD b) }
  | _, _ => { value := .nothing }

/-- An operation that answers had no bad buffer (20_memory.md R61). -/
theorem goodBuffers_of_next {i : Instr} {s t : State} (hx : exec i s = .next t) : GoodBuffers i := by
  by_contra hbad
  obtain ⟨⟨r, hr⟩, -⟩ := badBuffersRefused s i hbad
  cases hx.symm.trans hr

/-- TRANSFER and TRANSFER_BYTE run the engine on their stream. -/
theorem exec_engineOp {i : Instr} (hi : IsEngineOp i) (hg : GoodBuffers i) (s : State) :
    exec i s = operation i s fun h s => whenInitialized h <|
      andThen (engine h.cfg (txStream i) s) fun r => .next (engineRet i r.1, r.2) := by
  rcases hi with ⟨b, rfl⟩ | ⟨b, rfl⟩
  · simp only [exec, execTransfer, withSrc_good hg, txStream, readSrc_good hg, Option.getD_some]
    rfl
  · simp only [exec, execTransferByte, xferByte, andThen_assoc]
    rfl

/-- On a ready handle the invocation answers, as `engine_did` says (R140, R141, R143, R146). -/
theorem engineOp_did {i : Instr} {h : Handle} {s : State} (hi : IsEngineOp i) (hg : GoodBuffers i) (hr : Ready h s) :
    ∃ u, exec i s = .next (u.finish (engineRet i (engineBytes h.cfg (txStream i) s.env))) ∧
      Did h.cfg (s.start i) u (engineEvents h.cfg (txStream i) s.env) ∧ u.env = engineEnv h.cfg (txStream i) s.env := by
  obtain ⟨u, hu, hd, he⟩ := engine_did (s := s.start i) hr.bus hr.returns (txStream i)
  refine ⟨u, ?_, hd, he⟩
  rw [exec_engineOp hi hg, operation_live hr.live, whenInitialized_true hr.initialized, hu]
  rfl

/-- The same of an invocation that is known to have answered. -/
theorem engineOp_next {i : Instr} {h : Handle} {s t : State} (hi : IsEngineOp i) (hr : Ready h s) (hx : exec i s = .next t) :
    t.trace = s.trace ++ engineEvents h.cfg (txStream i) s.env ∧
      t.ret = engineRet i (engineBytes h.cfg (txStream i) s.env) := by
  obtain ⟨u, hu, hd, -⟩ := engineOp_did hi (goodBuffers_of_next hx) hr
  obtain rfl : u.finish _ = t := Host.Outcome.next.inj (hu.symm.trans hx)
  exact ⟨hd.trace, rfl⟩

theorem engineOp_moved {i : Instr} {h : Handle} {s : State} (hi : IsEngineOp i) (hg : GoodBuffers i) (hr : Ready h s) :
    ∃ t, exec i s = .next t ∧
      Moved s t (engineEvents h.cfg (txStream i) s.env) (engineEnv h.cfg (txStream i) s.env) (enginePins h.cfg) ∧
      t.ret = engineRet i (engineBytes h.cfg (txStream i) s.env) := by
  obtain ⟨u, hu, hd, he⟩ := engineOp_did hi hg hr
  exact ⟨_, hu, he ▸ hd.moved (engine_kept engineEvents_writes _) _, rfl⟩

theorem txStream_transfer {b : SrcBuf} (hb : ¬ BadSrc b) : txStream (.transfer b) = (b.bytes.getD []).take b.len := by
  rw [txStream, readSrc_good hb, Option.getD_some]

/-- The whole of a buffer is its stream. -/
theorem txStream_transfer_full (bs : List Byte) : txStream (.transfer ⟨some bs, bs.length⟩) = bs := by
  rw [txStream_transfer (by simp [BadSrc])]
  exact List.take_length

/-- Settles O28. -/
theorem transferRunsTheEngine : Obligations.TransferRunsTheEngine := by
  intro s h b hr hb
  obtain ⟨t, hx, hm, hret⟩ := engineOp_moved (i := .transfer b) (.inl ⟨b, rfl⟩) hb hr
  rw [txStream_transfer hb] at hm hret
  refine ⟨t, hx, hm, hret.trans ?_⟩
  cases hbytes : b.bytes <;> simp [engineRet, overwriteSrc, hbytes]

/-- The byte of a one-byte invocation, by mode (R141). -/
theorem engineBytes_single_headD (c : Cfg) (b : Byte) (e : Env) :
    (engineBytes c [b] e).headD b = match c.bus with
      | .hardware _ => e.byteAt 0
      | .software w => if w.miso.isSome then receivedByte c.order e.levelAt 0 else b := by
  unfold engineBytes
  cases c.bus with
  | hardware p => rfl
  | software w => dsimp only; split <;> rfl

/-- Settles O29. -/
theorem transferByteReturnsTheByte : Obligations.TransferByteReturnsTheByte := by
  intro s h b hr
  obtain ⟨t, hx, hm, hret⟩ := engineOp_moved (i := .transferByte b) (.inr ⟨b, rfl⟩) trivial hr
  have hret' : t.ret = { value := .byte ((engineBytes h.cfg [b] s.env).headD b) } := hret
  exact ⟨t, hx, hm, hret'.trans (congrArg (fun x => ({ value := .byte x } : Ret)) (engineBytes_single_headD h.cfg b s.env))⟩

/-- Settles O30: the one event of a Hardware-mode invocation writes no pin. -/
theorem hardwareTransferIsOneCall : Obligations.HardwareTransferIsOneCall := by
  intro s h p bs hr hb hne
  obtain ⟨u, hu, hd, -⟩ := engineOp_did (i := .transfer ⟨some bs, bs.length⟩) (.inl ⟨_, rfl⟩) (by simp [GoodBuffers, BadSrc]) hr
  rw [txStream_transfer_full] at hu hd
  have hevents : engineEvents h.cfg bs s.env = [.transfer bs (s.env.bytes bs.length)] := by simp [engineEvents, hb, hne]
  have hbytes : engineBytes h.cfg bs s.env = s.env.bytes bs.length := by simp [engineBytes, hb]
  rw [hevents] at hd
  rw [hbytes] at hu
  refine ⟨_, s.env.bytes bs.length, hu, bytes_length _ _, fun k hk => by simp [Env.bytes, hk], hd.trace, ?_, hd.pins⟩
  simp [engineRet, overwriteSrc]

/-! Counts over the slots of a stream. -/

/-- A count of events, or a sum over them. -/
structure Additive (μ : List Event → Nat) : Prop where
  nil : μ [] = 0
  append : ∀ xs ys, μ (xs ++ ys) = μ xs + μ ys

theorem countP_additive (p : Event → Bool) : Additive (List.countP p) := ⟨rfl, fun _ _ => List.countP_append⟩

theorem delaySum_additive : Additive delaySum := ⟨rfl, fun xs ys => by simp [delaySum]⟩

/-- A slot has two waits, a clock write of each level, at most one sample, and drives data-out (R147 to R149, R157): what the slots of a
stream sum to where data-out writes are not counted. -/
theorem Additive.streamEvents {μ : List Event → Nat} (hμ : Additive μ) {c : Cfg} {w : SwPins} {n : Nat}
    (hmosi : ∀ v, μ [.write .mosi v] = 0) (hmiso : ∀ v, μ (sampleEvents w v) = n) (ans : Nat → Level) (bits : List Level) :
    ∀ (last : Option Level) (k : Nat), μ (streamEvents c w ans last k bits) =
      (2 * μ (waitEvents c) + μ [.write .clk true] + μ [.write .clk false] + n) * bits.length := by
  have hdrive : ∀ d bit, μ (driveEvents w d bit) = 0 := fun d bit => by
    unfold driveEvents
    split
    · exact hmosi bit
    · exact hμ.nil
  have hslot : ∀ changed bit v, μ (slotEvents c w changed bit v) =
      2 * μ (waitEvents c) + μ [.write .clk true] + μ [.write .clk false] + n := by
    intro changed bit v
    unfold slotEvents
    split <;> simp only [hμ.append, hdrive, hmiso] <;> omega
  induction bits with
  | nil => exact fun _ _ => hμ.nil
  | cons bit bits ih =>
    intro last k
    rw [Machine.streamEvents, hμ.append, hslot, ih, List.length_cons, Nat.mul_succ, Nat.add_comm]

theorem flatMap_bitsOf_length (o : BitOrder) (bs : List Byte) : (bs.flatMap (bitsOf o)).length = 8 * bs.length := by
  simp [List.length_flatMap, Nat.mul_comm]

/-- The same for a Software-mode invocation. -/
theorem Additive.engineEvents {μ : List Event → Nat} (hμ : Additive μ) {c : Cfg} {w : SwPins} {n : Nat} (hb : c.bus = .software w)
    (hmosi : ∀ v, μ [.write .mosi v] = 0) (hmiso : ∀ v, μ (sampleEvents w v) = n) (bs : List Byte) (e : Env) :
    μ (engineEvents c bs e) =
      (2 * μ (waitEvents c) + μ [.write .clk true] + μ [.write .clk false] + n) * (8 * bs.length) := by
  simp only [Machine.engineEvents, hb, hμ.streamEvents hmosi hmiso, flatMap_bitsOf_length]

theorem countP_waitEvents_of_not_delay {p : Event → Bool} (hp : ∀ n, p (.delay n) = false) (c : Cfg) :
    (waitEvents c).countP p = 0 := by
  unfold waitEvents
  split <;> simp [hp]

theorem delaySum_waitEvents (c : Cfg) : delaySum (waitEvents c) = c.halfPeriod := by
  unfold waitEvents
  split
  · simp [delaySum]
  · simp only [delaySum, List.map_nil, List.sum_nil]
    omega

theorem countP_sampleEvents_of_not_read {p : Event → Bool} (hp : ∀ v, p (.read .miso v) = false) (w : SwPins) (v : Level) :
    (sampleEvents w v).countP p = 0 := by
  unfold sampleEvents
  split <;> simp [hp]

theorem countP_sampleEvents_of_read {p : Event → Bool} (hp : ∀ v, p (.read .miso v) = true) (w : SwPins) (v : Level) :
    (sampleEvents w v).countP p = if w.miso.isSome then 1 else 0 := by
  unfold sampleEvents
  split <;> simp [hp]

theorem delaySum_sampleEvents (w : SwPins) (v : Level) : delaySum (sampleEvents w v) = 0 := by
  unfold sampleEvents
  split <;> rfl

/-- Settles O33: the four counts are of one invocation, slot by slot. -/
theorem softwareEventCounts : Obligations.SoftwareEventCounts := by
  intro s t h w bs es hr hb hx ht
  obtain ⟨htrace, -⟩ := engineOp_next (.inl ⟨_, rfl⟩) hr hx
  rw [txStream_transfer_full] at htrace
  obtain rfl := List.append_cancel_left (ht.symm.trans htrace)
  refine ⟨?_, ?_, ?_, ?_⟩
  · rw [List.count_eq_countP, (countP_additive _).engineEvents hb (fun _ => rfl)
      (countP_sampleEvents_of_not_read (fun _ => rfl) w), countP_waitEvents_of_not_delay fun _ => rfl]
    simp
  · rw [List.count_eq_countP, (countP_additive _).engineEvents hb (fun _ => rfl)
      (countP_sampleEvents_of_not_read (fun _ => rfl) w), countP_waitEvents_of_not_delay fun _ => rfl]
    simp
  · rw [← List.countP_eq_length_filter, (countP_additive _).engineEvents hb (fun _ => rfl)
      (countP_sampleEvents_of_read (fun _ => rfl) w), countP_waitEvents_of_not_delay fun _ => rfl]
    cases w.miso <;> simp
  · rw [delaySum_additive.engineEvents hb (fun _ => rfl) (delaySum_sampleEvents w), delaySum_waitEvents]
    simp only [delaySum, List.map_cons, List.map_nil, List.sum_cons, List.sum_nil]
    ring

/-! The events of any operation. -/

/-- Every event of an operation of a live handle is one its mode and flag allow. -/
theorem exec_events {h : Handle} {i : Instr} {s t : State} {es : List Event} (hs : s.handle = some h) (hx : exec i s = .next t)
    (ht : t.trace = s.trace ++ es) : ∀ e ∈ es, HandleEvent h e := by
  cases hc : i.isConstructor with
  | true =>
    obtain ⟨c, -, rfl⟩ := exec_constructor hc hx
    obtain rfl : es = [] := by simpa using ht
    nofun
  | false =>
    have hr := exec_ran hs hc
    rw [hx] at hr
    obtain ⟨es', htr, -, -, -, -, hev⟩ := hr
    obtain rfl : es = es' := List.append_cancel_left (ht.symm.trans htr)
    exact hev

/-- In Hardware mode the block touches chip-select and the peripheral only (R142). -/
theorem HandleEvent.isBitBang_eq_false {h : Handle} {p : PeriphRef} {e : Event} (he : HandleEvent h e)
    (hb : h.cfg.bus = .hardware p) : e.isBitBang = false := by
  have hsoft : ¬ ∃ w, h.cfg.bus = .software w := by simp [hb]
  cases e with
  | write r v =>
    cases r with
    | cs => rfl
    | clk | mosi => exact absurd he hsoft
    | miso => exact he.elim
  | mode r d =>
    obtain rfl := he.mode_dir
    cases r with
    | cs => rfl
    | clk | mosi | miso => exact absurd he hsoft
  | read r v =>
    cases r with
    | miso => exact absurd he hsoft
    | _ => exact he.elim
  | delay n => exact absurd he.1 hsoft
  | _ => rfl

/-- In Software mode it calls no peripheral. -/
theorem HandleEvent.isPeriph_eq_false {h : Handle} {w : SwPins} {e : Event} (he : HandleEvent h e)
    (hb : h.cfg.bus = .software w) : e.isPeriph = false := by
  have hhard : ¬ ∃ p, h.cfg.bus = .hardware p := by simp [hb]
  cases e with
  | setup | release | beginSession _ _ _ | endSession | transfer _ _ => exact absurd he hhard
  | _ => rfl

/-- Settles O48: the events of any operation are `HandleEvent`s. -/
theorem modesDoNotMix : Obligations.ModesDoNotMix := fun _ _ _ _ _ hs hx ht =>
  ⟨fun _ hb e he => (exec_events hs hx ht e he).isBitBang_eq_false hb,
    fun _ hb e he => (exec_events hs hx ht e he).isPeriph_eq_false hb⟩

/-- Settles O32: the delays of any operation by `HandleEvent`; those of a byte are the two waits of its eight slots. -/
theorem delaysAreHalfPeriods : Obligations.DelaysAreHalfPeriods := by
  refine ⟨fun s t h i es n hs hx ht hn => ?_, fun s t h w b es hr hb hx ht => ?_⟩
  · obtain ⟨-, hhalf, hne⟩ := exec_events hs hx ht _ hn
    exact ⟨hhalf, hne⟩
  · obtain ⟨htrace, -⟩ := engineOp_next (.inr ⟨_, rfl⟩) hr hx
    obtain rfl := List.append_cancel_left (ht.symm.trans htrace)
    rw [← List.countP_eq_length_filter, (countP_additive _).engineEvents hb (fun _ => rfl)
      (countP_sampleEvents_of_not_read (fun _ => rfl) w)]
    unfold waitEvents
    by_cases hhalf : h.cfg.halfPeriod = 0
    · simp [hhalf, txStream]
    · simp [hhalf, Nat.pos_of_ne_zero hhalf, txStream]

/-! Loopback. -/

theorem isLoopback_append (xs ys : List Event) : ∀ l : Latches,
    isLoopback l (xs ++ ys) = (isLoopback l xs && isLoopback (l.afterAll xs) ys) := by
  induction xs with
  | nil => exact fun _ => (Bool.true_and _).symm
  | cons e xs ih =>
    intro l
    simp only [List.cons_append, isLoopback, ih, afterAll_cons, Bool.and_assoc]

section
variable {c : Cfg} {w : SwPins}

theorem showsLast_none (l : Latches) : ShowsLast w l none := fun _ _ h => nomatch h

/-- In a loopback a slot samples the bit it sends: data-out shows that bit when data-in is read, in either sequence. -/
theorem loopback_slotEvents (hmosi : w.mosi.isSome = true) (hmiso : w.miso.isSome = true) {l : Latches} {last : Option Level}
    (hl : ShowsLast w l last) {bit v : Level} (h : isLoopback l (slotEvents c w (!decide (last = some bit)) bit v) = true) :
    v = bit := by
  have hshow : (l.afterAll (driveEvents w (!decide (last = some bit)) bit)).mosi = some bit := by
    by_cases hlast : last = some bit
    · simpa [driveEvents, hlast] using hl hmosi bit hlast
    · simp [driveEvents, hlast, hmosi, Latches.after, Latches.set]
  unfold slotEvents at h
  split at h
  · simp only [isLoopback_append, afterAll_append, afterAll_waitEvents, Bool.and_eq_true] at h
    obtain ⟨-, h⟩ := h
    simpa [driveEvents, sampleEvents, hmosi, hmiso, isLoopback, Latches.after, Latches.set, eq_comm] using h
  · simp only [isLoopback_append, afterAll_append, afterAll_waitEvents, Bool.and_eq_true] at h
    obtain ⟨⟨-, h⟩, -⟩ := h
    simpa [sampleEvents, hmiso, isLoopback, Latches.after, Latches.set, hshow, eq_comm] using h

/-- In a loopback the answers read are the bits sent. -/
theorem loopback_streamEvents (hmosi : w.mosi.isSome = true) (hmiso : w.miso.isSome = true) (ans : Nat → Level)
    (bits : List Level) : ∀ {l : Latches} {last : Option Level} (k : Nat), ShowsLast w l last →
      isLoopback l (streamEvents c w ans last k bits) = true → ∀ j (hj : j < bits.length), ans (k + j) = bits[j] := by
  induction bits with
  | nil => exact fun _ _ _ j hj => absurd hj (Nat.not_lt_zero j)
  | cons bit bits ih =>
    intro l last k hl h j hj
    rw [streamEvents, isLoopback_append, Bool.and_eq_true] at h
    obtain ⟨hslot, hrest⟩ := h
    cases j with
    | zero => exact loopback_slotEvents hmosi hmiso hl hslot
    | succ j =>
      rw [← Nat.add_assoc, Nat.add_right_comm]
      exact ih (k + 1) (showsLast_slotEvents hl bit (ans k)) hrest j (Nat.lt_of_succ_lt_succ hj)

end

/-- A byte whose bits arrive is that byte (20_memory.md R56). -/
theorem byteOfLevels_bitsOf (o : BitOrder) (b : Byte) : byteOfLevels o (bitsOf o b) = b := by
  cases o <;> revert b <;> decide

/-- Answers that are the bits of a byte are received as that byte. -/
theorem receivedByte_of_bitsOf {o : BitOrder} {ans : Nat → Level} {k : Nat} {b : Byte}
    (h : ∀ j (hj : j < (bitsOf o b).length), ans (k + j) = (bitsOf o b)[j]) : receivedByte o ans k = b := by
  have hbits : ((List.range 8).map fun j => ans (k + j)) = bitsOf o b :=
    List.ext_getElem (by simp) fun j _ hj => by simpa using h j hj
  rw [receivedByte, hbits, byteOfLevels_bitsOf]

/-- Answers that are the bits of a stream are received as that stream. -/
theorem receivedBytes_of_bitsOf {c : Cfg} {w : SwPins} (hmiso : w.miso.isSome = true) {ans : Nat → Level} (bs : List Byte) :
    ∀ k : Nat, (∀ j (hj : j < (bs.flatMap (bitsOf c.order)).length), ans (k + j) = (bs.flatMap (bitsOf c.order))[j]) →
      receivedBytes c w ans k bs = bs := by
  induction bs with
  | nil => exact fun _ _ => by simp [receivedBytes]
  | cons b bs ih =>
    intro k h
    have hlen : ((b :: bs).flatMap (bitsOf c.order)).length = 8 + (bs.flatMap (bitsOf c.order)).length := by simp
    have hfirst : receivedByte c.order ans k = b := receivedByte_of_bitsOf fun j hj => by
      rw [h j (by simp at hj; omega)]
      simp [List.getElem_append_left hj]
    have hrest : receivedBytes c w ans (k + 8) bs = bs := ih (k + 8) fun j hj => by
      rw [Nat.add_assoc, h (8 + j) (by omega)]
      simp [List.getElem_append_right]
    rw [receivedBytes_cons, if_pos hmiso, hfirst, hrest]

/-- Settles O31: the answers of a loopback are the bits of the stream, so the bytes received are the bytes sent. -/
theorem loopbackReturnsTheBuffer : Obligations.LoopbackReturnsTheBuffer := by
  intro s t h w b es hr hb hmosi hmiso hx ht hloop
  obtain ⟨htrace, hret⟩ := engineOp_next (.inl ⟨_, rfl⟩) hr hx
  obtain rfl := List.append_cancel_left (ht.symm.trans htrace)
  have hbytes : engineBytes h.cfg (txStream (.transfer b)) s.env = txStream (.transfer b) := by
    simp only [engineEvents, hb] at hloop
    have hanswers := loopback_streamEvents hmosi hmiso _ _ 0 (showsLast_none _) hloop
    simpa [engineBytes, receivedBytes, hb] using receivedBytes_of_bitsOf hmiso _ 0 hanswers
  rw [hret, hbytes, txStream_transfer (goodBuffers_of_next hx)]
  cases hbuf : b.bytes <;> simp [engineRet, overwriteSrc, hbuf]

/-! The latches after a transfer. -/

theorem get_set {r : Role} (hr : r ≠ .miso) (l : Latches) (v : Level) (r' : Role) :
    (l.set v r').get r = if r' = r then some v else l.get r := by
  cases r <;> cases r' <;> simp_all [Latches.get, Latches.set]

/-- A latch under the events of its role, written on the pin or in `Latches`. -/
theorem out_foldl_after {r : Role} (hr : r ≠ .miso) (es : List Event) : ∀ {v : PinState} {l : Latches}, v.out = l.get r →
    (es.foldl (PinState.after r) v).out = (l.afterAll es).get r := by
  induction es with
  | nil => exact fun h => h
  | cons e es ih =>
    intro v l h
    refine ih ?_
    cases e with
    | write r' x =>
      simp only [PinState.after, Latches.after, get_set hr]
      split
      · rfl
      · exact h
    | mode r' d =>
      simp only [PinState.after, Latches.after]
      split <;> exact h
    | _ => exact h

/-- The clock is at 0, and data-out, where present, at the last bit of `b` (R154, R155). -/
structure Settled (c : Cfg) (w : SwPins) (b : Byte) (l : Latches) : Prop where
  clk : l.clk = some false
  mosi : w.mosi.isSome = true → l.mosi = some (b.getLsbD (slotBit c.order 7))

section
variable {c : Cfg} {w : SwPins}

/-- Both sequences write the clock to 0 after they wrote it to 1. -/
theorem clk_afterAll_slotEvents (l : Latches) (changed : Bool) (bit v : Level) :
    (l.afterAll (slotEvents c w changed bit v)).clk = some false := by
  unfold slotEvents
  split <;> simp [afterAll_sampleEvents, Latches.after, Latches.set]

theorem clk_afterAll_streamEvents (ans : Nat → Level) (bits : List Level) (bit : Level) (l : Latches) (last : Option Level)
    (k : Nat) : (l.afterAll (streamEvents c w ans last k (bits ++ [bit]))).clk = some false := by
  rw [streamEvents_append, afterAll_append]
  simp only [streamEvents, List.append_nil]
  exact clk_afterAll_slotEvents _ _ _ _

theorem bitsOf_eq_append_last (o : BitOrder) (b : Byte) :
    ∃ init, bitsOf o b = init ++ [b.getLsbD (slotBit o 7)] :=
  ⟨(List.range 7).map fun k => b.getLsbD (slotBit o k), rfl⟩

theorem settled_engineEvents (hb : c.bus = .software w) (bs : List Byte) (b : Byte) (e : Env) (l : Latches) :
    Settled c w b (l.afterAll (engineEvents c (bs ++ [b]) e)) := by
  obtain ⟨init, hinit⟩ := bitsOf_eq_append_last c.order b
  have hbits : (bs ++ [b]).flatMap (bitsOf c.order) =
      (bs.flatMap (bitsOf c.order) ++ init) ++ [b.getLsbD (slotBit c.order 7)] := by simp [hinit]
  simp only [engineEvents, hb, hbits]
  refine ⟨clk_afterAll_streamEvents _ _ _ _ _ _, fun hmosi => ?_⟩
  exact showsLast_streamEvents _ _ 0 (showsLast_none l) hmosi _ (by simp)

theorem settled_xferEvents (hb : c.bus = .software w) (bs : List Byte) (b : Byte) (e : Env) (l : Latches) :
    Settled c w b (l.afterAll (xferEvents c (bs ++ [b]) e)) := by
  rw [xferEvents_append, afterAll_append]
  simpa [xferEvents] using settled_engineEvents hb [] b (engineEnv c bs e) (l.afterAll (xferEvents c bs e))

/-- Chip-select writes move no other latch. -/
theorem Settled.selectedEvents {on : Bool} {b : Byte} {es : List Event} (h : ∀ l : Latches, Settled c w b (l.afterAll es)) (l : Latches) :
    Settled c w b (l.afterAll (selectedEvents on es)) := by
  cases on with
  | false => simpa [Machine.selectedEvents, csEvents] using h l
  | true =>
    rw [Machine.selectedEvents, afterAll_append, afterAll_append]
    exact ⟨(h _).clk, (h _).mosi⟩

end

/-- WRITE_AND_READ brackets one invocation with chip-select (42_transaction_framer.md R186). -/
theorem execWriteAndRead_trace {h : Handle} {s t : State} {b : Byte} (hr : FrameReady h s) (hx : execWriteAndRead b s = .next t) :
    t.trace = s.trace ++ selectedEvents h.csControlEnabled (engineEvents h.cfg [b] s.env) := by
  obtain ⟨r, u, hb, rfl⟩ := hr.operation_next hx
  obtain ⟨q, hq, hb⟩ := andThen_eq_next.mp hb
  cases hb
  obtain ⟨v, hv, hd, -⟩ := selected_did (s := s.start (.writeAndRead b)) (e := engineEnv h.cfg [b] s.env) hr.live hr.bus hr.cs
    hr.returns fun u hbus henv => henv ▸ xferByte_did hbus (by rw [henv]; exact hr.returns) b
  cases hv.symm.trans hq
  exact hd.trace

/-- In Software mode the events of an operation are those of its invocations, maybe between chip-select writes. -/
def ShowsStream (h : Handle) (i : Instr) (s t : State) : Prop :=
  ∃ on es, t.trace = s.trace ++ selectedEvents on es ∧
    (es = engineEvents h.cfg (txStream i) s.env ∨ es = xferEvents h.cfg (txStream i) s.env)

theorem showsStream_of_isEngineOp {h : Handle} {s t : State} {i : Instr} (hr : Ready h s) (hi : IsEngineOp i)
    (hx : exec i s = .next t) : ShowsStream h i s t := by
  obtain ⟨htrace, -⟩ := engineOp_next hi hr hx
  exact ⟨false, _, by simpa [selectedEvents, csEvents] using htrace, .inl rfl⟩

theorem showsStream_of_isFramed {h : Handle} {s t : State} {w : SwPins} {i : Instr} (hr : FrameReady h s)
    (hb : h.cfg.bus = .software w) (hi : IsFramed i) (hx : exec i s = .next t) : ShowsStream h i s t := by
  have hframe : ∀ es, frameEvents h.cfg h.csControlEnabled es = selectedEvents h.csControlEnabled es := fun es => by
    simp [frameEvents, hb]
  by_cases hw : ∀ b, i ≠ .writeAndRead b
  · rcases exec_composite_trace hr hi hw hx with htrace | htrace
    · exact ⟨_, _, hframe _ ▸ htrace, .inr rfl⟩
    · exact ⟨_, _, hframe _ ▸ htrace, .inl rfl⟩
  · obtain ⟨b, rfl⟩ := not_forall_not.mp hw
    exact ⟨_, _, execWriteAndRead_trace hr hx, .inl rfl⟩

/-- The operations that send bytes are TRANSFER, TRANSFER_BYTE and the framed ones (R188). -/
theorem isEngineOp_or_isFramed {i : Instr} (hne : txStream i ≠ []) : IsEngineOp i ∨ IsFramed i := by
  cases i with
  | transfer b => exact .inl (.inl ⟨b, rfl⟩)
  | transferByte b => exact .inl (.inr ⟨b, rfl⟩)
  | write b l v => exact .inr (.inl ⟨b, l, v, rfl⟩)
  | read b f => exact .inr (.inr (.inl ⟨b, f, rfl⟩))
  | writeThenRead a b f => exact .inr (.inr (.inr (.inl ⟨a, b, f, rfl⟩)))
  | repeated v n l => exact .inr (.inr (.inr (.inr (.inl ⟨v, n, l, rfl⟩))))
  | writeAndRead b => exact .inr (.inr (.inr (.inr (.inr ⟨b, rfl⟩))))
  | _ => exact absurd rfl hne

theorem isConstructor_eq_false_of_txStream {i : Instr} (hne : txStream i ≠ []) : i.isConstructor = false := by
  cases i with
  | constructHw _ _ _ _ _ | constructSw _ _ _ _ _ _ _ => exact absurd rfl hne
  | _ => rfl

/-- The pin of a role is as the operation's events left it. -/
theorem Returned.pin {h : Handle} {i : Instr} {s t : State} {es : List Event} {r : Role} {p : Pin} (hr : Returned h i s t es)
    (hd : PinsDistinct h.cfg) (hp : h.cfg.pinOf r = some p) : t.pin p = es.foldl (PinState.after r) (s.pin p) := by
  rw [pin_eq, hr.pins]
  exact pinGet_replay hd hp _ _

/-- Settles O34: the pins are as the events say (`exec_returned`), and the events end with the clock at 0 and the last bit shown. -/
theorem clockLowAndLastBitAfterTransfer : Obligations.ClockLowAndLastBitAfterTransfer := by
  intro s t h w i bs b hr hd hb hx htx
  have hne : txStream i ≠ [] := by simp [htx]
  have hshows : ShowsStream h i s t := (isEngineOp_or_isFramed hne).elim
    (fun hi => showsStream_of_isEngineOp hr.toReady hi hx) fun hi => showsStream_of_isFramed hr hb hi hx
  obtain ⟨on, es, htrace, hes⟩ := hshows
  obtain ⟨es', hret⟩ := exec_returned hr.live (isConstructor_eq_false_of_txStream hne) hx
  obtain rfl : es' = selectedEvents on es := List.append_cancel_left (hret.trace.symm.trans htrace)
  have hsettled : ∀ l : Latches, Settled h.cfg w b (l.afterAll (selectedEvents on es)) := by
    refine fun l => Settled.selectedEvents (fun l => ?_) l
    rcases hes with rfl | rfl <;> rw [htx]
    · exact settled_engineEvents hb bs b _ l
    · exact settled_xferEvents hb bs b _ l
  refine ⟨?_, fun p hp => ?_⟩
  · rw [hret.pin hd (r := .clk) (by simp [Cfg.pinOf, hb]),
      out_foldl_after (r := .clk) (l := ⟨none, (s.pin w.clk).out, none⟩) (by decide) _ rfl]
    exact (hsettled _).clk
  · rw [hret.pin hd (r := .mosi) (by simpa [Cfg.pinOf, hb] using hp),
      out_foldl_after (r := .mosi) (l := ⟨none, none, (s.pin p).out⟩) (by decide) _ rfl]
    exact ((hsettled _).mosi (Option.isSome_of_mem hp)).trans (by cases h.cfg.order <;> rfl)

end Sys2Proof.Machine

/-! PROOF. O35, O50, O57, O58: the tracker `last_mosi` (10_state.md R36, 41_transfer_engine.md R155), and what the engine, and any
operation, does not look at (R159, R160). Two runs are compared part by part: `Sim` says that where the one answers the other does, with
related answers; `SlotBlind`, `EngineBlind` and `FrameBlind` say which relations between states the parts of an operation preserve. -/

namespace Sys2Proof.Machine

/-! Two runs. -/

/-- Where `x` answers, `y` answers, and the answers are related by `V`. -/
def Sim {α β : Type} (V : α → β → Prop) (x : Res α) (y : Res β) : Prop := ∀ a, x = .next a → ∃ b, y = .next b ∧ V a b

section
variable {α β γ δ : Type} {V : α → β → Prop} {W : γ → δ → Prop}

theorem Sim.next {a : α} {b : β} (h : V a b) : Sim V (.next a) (.next b) := fun _ ha => ⟨b, rfl, by cases ha; exact h⟩

theorem Sim.fault {r : Fault} {y : Res β} : Sim V (.fault r) y := nofun

theorem Sim.refused {r : Refusal} {y : Res β} : Sim V (.refused r) y := nofun

theorem Sim.andThen {x : Res α} {y : Res β} {f : α → Res γ} {g : β → Res δ} (hx : Sim V x y)
    (hf : ∀ a b, V a b → Sim W (f a) (g b)) : Sim W (andThen x f) (andThen y g) := by
  intro c hc
  obtain ⟨a, ha, hc⟩ := andThen_eq_next.mp hc
  obtain ⟨b, hb, hv⟩ := hx a ha
  obtain ⟨d, hd, hw⟩ := hf a b hv c hc
  exact ⟨d, by rw [hb]; exact hd, hw⟩

theorem Sim.whenInitialized {h h' : Handle} (hh : h'.isInitialized = h.isInitialized) {x : Res α} {y : Res β} (hx : Sim V x y) :
    Sim V (whenInitialized h x) (whenInitialized h' y) := by
  unfold Machine.whenInitialized
  rw [hh]
  split
  · exact hx
  · exact Sim.refused

theorem Sim.withSrc {b : SrcBuf} {k : List Byte → Res α} {k' : List Byte → Res β} (hk : ∀ bs, Sim V (k bs) (k' bs)) :
    Sim V (withSrc b k) (withSrc b k') := by
  unfold Machine.withSrc
  split
  · exact hk _
  · exact Sim.refused

theorem Sim.withDst {b : DstBuf} {x : Res α} {y : Res β} (hx : Sim V x y) : Sim V (withDst b x) (withDst b y) := by
  unfold Machine.withDst
  split
  · exact hx
  · exact Sim.refused

end

/-- Two operations of live handles, by their bodies. -/
theorem Sim.operation {V : Ret × State → Ret × State → Prop} {W : State → State → Prop} {op : Instr} {s s' : State}
    {h h' : Handle} {body body' : Handle → State → Res (Ret × State)} (hs : s.handle = some h) (hs' : s'.handle = some h')
    (hbody : Sim V (body h (s.start op)) (body' h' (s'.start op)))
    (hfinish : ∀ r r', V r r' → W (r.2.finish r.1) (r'.2.finish r'.1)) :
    Sim W (operation op s body) (operation op s' body') := by
  rw [operation_live hs, operation_live hs']
  exact hbody.andThen fun r r' hr => Sim.next (hfinish r r' hr)

/-! Relations that the parts of a slot preserve. -/

/-- The state after `PinRead(MISO)` returned and the level was OR-ed into `rx` (R151). -/
def State.sampled (s : State) : State :=
  ((s.setEnv (s.env.dropLevels 1)).emit (.read .miso (s.env.levelAt 0))).setRegs
    { s.regs with rx := if s.env.levelAt 0 then s.regs.rx ||| s.regs.mask else s.regs.rx }

theorem sample_eq (w : SwPins) (s : State) :
    sample w s = match w.miso with
      | none => .next s
      | some p =>
        if (s.pin p).dir = .input then andThen (callPrim (.pinRead .miso) s) fun s => .next s.sampled
        else .refused .pinNotConfigured := by
  unfold sample pinRead
  cases w.miso with
  | none => rfl
  | some p =>
    dsimp only
    split
    · rw [andThen_assoc]
      congr 1
      funext t
      simp only [andThen_next, State.sampled]
      split <;> rfl
    · rfl

/-- States a slot tells apart in nothing it sends: related states have the same pins, bits to send and stall counter, and every change
of state that a slot is made of keeps them related. -/
structure SlotBlind (R : State → State → Prop) : Prop where
  pins {s s' : State} : R s s' → s'.pins = s.pins
  stall {s s' : State} : R s s' → s'.env.stall = s.env.stall
  tx {s s' : State} : R s s' → s'.regs.tx = s.regs.tx
  mask {s s' : State} : R s s' → s'.regs.mask = s.regs.mask
  atCall {s s' : State} (p : Prim) : R s s' → R (s.atCall p) (s'.atCall p)
  setStall {s s' : State} (n : Option Nat) :
    R s s' → R (s.setEnv { s.env with stall := n }) (s'.setEnv { s'.env with stall := n })
  setPin {s s' : State} (p : Pin) (v : PinState) : R s s' → R (s.setPin p v) (s'.setPin p v)
  emit {s s' : State} {e : Event} (he : e.blind = e) : R s s' → R (s.emit e) (s'.emit e)
  sampled {s s' : State} : R s s' → R s.sampled s'.sampled
  setMask {s s' : State} (m : Byte) : R s s' → R (s.setRegs { s.regs with mask := m }) (s'.setRegs { s'.regs with mask := m })

/-- Related states also have the same tracker, which sequence A reads and writes (R148). -/
structure TrackerBlind (R : State → State → Prop) : Prop where
  lastMosi {s s' : State} : R s s' → s'.regs.lastMosi = s.regs.lastMosi
  track {s s' : State} (v : Level) :
    R s s' → R (s.setRegs { s.regs with lastMosi := v }) (s'.setRegs { s'.regs with lastMosi := v })

section
variable {R : State → State → Prop} {c : Cfg} {w : SwPins} {s s' : State}

theorem SlotBlind.pin (hR : SlotBlind R) (h : R s s') (p : Pin) : s'.pin p = s.pin p := by
  rw [pin_eq, pin_eq, hR.pins h]

theorem SlotBlind.callPrim (hR : SlotBlind R) (h : R s s') (p : Prim) : Sim R (callPrim p s) (callPrim p s') := by
  unfold Machine.callPrim
  rw [hR.stall h]
  cases s.env.stall with
  | none => exact Sim.next (hR.atCall p h)
  | some n =>
    cases n with
    | zero => exact Sim.fault
    | succ n => exact Sim.next (hR.setStall (some n) (hR.atCall p h))

/-- A primitive that makes one event, with no answer in it. -/
theorem SlotBlind.callEmit (hR : SlotBlind R) (h : R s s') (p : Prim) {e : Event} (he : e.blind = e) :
    Sim R (andThen (Machine.callPrim p s) fun s => .next (s.emit e)) (andThen (Machine.callPrim p s') fun s => .next (s.emit e)) :=
  (hR.callPrim h p).andThen fun _ _ h => Sim.next (hR.emit he h)

theorem SlotBlind.pinWrite (hR : SlotBlind R) (h : R s s') (r : Role) (p : Pin) (v : Level) :
    Sim R (pinWrite r p v s) (pinWrite r p v s') := by
  unfold Machine.pinWrite
  rw [hR.pin h]
  split
  · refine (hR.callPrim h _).andThen fun t t' h => Sim.next (hR.emit rfl ?_)
    rw [hR.pin h]
    exact hR.setPin _ _ h
  · exact Sim.refused

theorem SlotBlind.pinMode (hR : SlotBlind R) (h : R s s') (r : Role) (p : Pin) (d : Dir) :
    Sim R (pinMode r p d s) (pinMode r p d s') := by
  refine (hR.callPrim h _).andThen fun t t' h => Sim.next (hR.emit rfl ?_)
  rw [hR.pin h]
  exact hR.setPin _ _ h

theorem SlotBlind.waitHalf (hR : SlotBlind R) (h : R s s') : Sim R (waitHalf c s) (waitHalf c s') := by
  unfold Machine.waitHalf
  split
  · exact hR.callEmit h _ rfl
  · exact Sim.next h

theorem SlotBlind.driveAlways (hR : SlotBlind R) (h : R s s') (bit : Level) : Sim R (driveAlways w bit s) (driveAlways w bit s') := by
  unfold Machine.driveAlways
  split
  · exact Sim.next h
  · exact hR.pinWrite h _ _ _

theorem SlotBlind.sample (hR : SlotBlind R) (h : R s s') : Sim R (sample w s) (sample w s') := by
  rw [sample_eq, sample_eq]
  cases w.miso with
  | none => exact Sim.next h
  | some p =>
    dsimp only
    rw [hR.pin h]
    split
    · exact (hR.callPrim h _).andThen fun _ _ h => Sim.next (hR.sampled h)
    · exact Sim.refused

theorem SlotBlind.driveIfChanged (hR : SlotBlind R) (hT : TrackerBlind R) (h : R s s') (bit : Level) :
    Sim R (driveIfChanged w bit s) (driveIfChanged w bit s') := by
  unfold Machine.driveIfChanged
  rw [hT.lastMosi h]
  split
  · exact Sim.next h
  · split
    · exact Sim.next h
    · exact (hR.pinWrite h _ _ _).andThen fun _ _ h => Sim.next (hT.track _ h)

theorem SlotBlind.sequenceA (hR : SlotBlind R) (hT : TrackerBlind R) (h : R s s') (bit : Level) :
    Sim R (sequenceA c w bit s) (sequenceA c w bit s') :=
  (hR.driveIfChanged hT h bit).andThen fun _ _ h => (hR.pinWrite h _ _ _).andThen fun _ _ h =>
    (hR.waitHalf h).andThen fun _ _ h => (hR.sample h).andThen fun _ _ h => hR.pinWrite h _ _ _

theorem SlotBlind.sequenceB (hR : SlotBlind R) (h : R s s') (bit : Level) :
    Sim R (sequenceB c w bit s) (sequenceB c w bit s') :=
  (hR.pinWrite h _ _ _).andThen fun _ _ h => (hR.waitHalf h).andThen fun _ _ h =>
    (hR.driveAlways h bit).andThen fun _ _ h => (hR.pinWrite h _ _ _).andThen fun _ _ h => hR.sample h

/-- A slot of sequence B asks nothing of the tracker (R149). -/
theorem SlotBlind.bitSlot (hR : SlotBlind R) (hT : c.sequenceB = false → TrackerBlind R) (h : R s s') :
    Sim R (bitSlot c w s) (bitSlot c w s') := by
  refine (hR.waitHalf h).andThen fun t t' h => Sim.andThen (V := R) ?_ fun u u' h => Sim.next ?_
  · rw [hR.tx h, hR.mask h]
    cases hb : c.sequenceB with
    | true => exact hR.sequenceB h _
    | false => exact hR.sequenceA (hT hb) h _
  · rw [hR.mask h]
    exact hR.setMask _ h

end

/-! The tracker in a slot. -/

/-- Two states that differ in `last_mosi` at most. -/
def SameButTracker (v : Level) (s s' : State) : Prop := s' = s.setRegs { s.regs with lastMosi := v }

theorem sameButTracker_slotBlind (v : Level) : SlotBlind (SameButTracker v) where
  pins := by rintro s _ rfl; rfl
  stall := by rintro s _ rfl; rfl
  tx := by rintro s _ rfl; rfl
  mask := by rintro s _ rfl; rfl
  atCall _ := by rintro rfl; rfl
  setStall _ := by rintro rfl; rfl
  setPin _ _ := by rintro rfl; rfl
  emit _ := by rintro rfl; rfl
  sampled := by rintro s _ rfl; rfl
  setMask _ := by rintro rfl; rfl

/-- Data-out shows what the tracker says. -/
def Tracked (s : State) (p : Pin) : Prop := (s.pin p).out = some s.regs.lastMosi

/-- What a slot of sequence A may start from: the tracker is right, or, as in the first slot of an invocation (D8), not the bit to be
sent. -/
def InStep (s : State) (p : Pin) : Prop := Tracked s p ∨ s.regs.lastMosi = !maskedBit s.regs.tx s.regs.mask

section
variable {c : Cfg} {w : SwPins} {s t : State} {p : Pin} (hA : c.sequenceB = false) (hm : w.mosi = some p) (hp : w.clk ≠ p)
include hA hm hp

/-- A slot of sequence A ends with the tracker and data-out at its bit (R155). -/
theorem bitSlot_tracked (h : bitSlot c w s = .next t) (hs : InStep s p) :
    t.regs.lastMosi = maskedBit s.regs.tx s.regs.mask ∧ Tracked t p := by
  obtain ⟨hr, -⟩ := bitSlot_next h
  have hlast : t.regs.lastMosi = maskedBit s.regs.tx s.regs.mask := by simp [hr, hA, hm]
  refine ⟨hlast, ?_⟩
  rw [Tracked, hlast]
  exact bitSlot_latch h hA hm hp (hs.imp_right fun hl => by simp [hl])

/-- After `n + 1` slots both are at the bit of the last of them. -/
theorem bitSlots_tracked (n : Nat) : ∀ {t : State}, bitSlots c w (n + 1) s = .next t → InStep s p →
    t.regs.lastMosi = maskedBit s.regs.tx ((nextMask c.order)^[n] s.regs.mask) ∧ Tracked t p := by
  induction n with
  | zero =>
    intro t h hs
    obtain ⟨u, hu, h⟩ := andThen_eq_next.mp h
    cases h
    exact bitSlot_tracked hA hm hp hu hs
  | succ n ih =>
    intro t h hs
    rw [bitSlots_add] at h
    obtain ⟨u, hu, h⟩ := andThen_eq_next.mp h
    obtain ⟨v, hv, h⟩ := andThen_eq_next.mp h
    cases h
    obtain ⟨htx, hmask, -, -⟩ := bitSlots_next _ hu
    rw [← htx, ← hmask]
    exact bitSlot_tracked hA hm hp hv (.inl (ih hu hs).2)

/-- After a byte both are at its last bit (R145, R155). -/
theorem swByte_tracked {b : Byte} {r : Byte × State} (h : swByte c w b s = .next r) (hs : InStep (s.loadByte c b) p) :
    r.2.regs.lastMosi = b.getLsbD (slotBit c.order 7) ∧ Tracked r.2 p := by
  obtain ⟨u, hu, h⟩ := andThen_eq_next.mp h
  cases h
  rw [← maskedBit_last]
  exact bitSlots_tracked hA hm hp 7 hu hs

/-- After any number of bytes both are at the last bit of the last of them: a byte starts from what the one before it left. -/
theorem swBytes_tracked (bs : List Byte) : ∀ {s : State} {b last : Byte} {r : List Byte × State},
    swBytes c w (b :: bs) s = .next r → InStep (s.loadByte c b) p → (b :: bs).getLast? = some last →
    r.2.regs.lastMosi = last.getLsbD (slotBit c.order 7) ∧ Tracked r.2 p := by
  induction bs with
  | nil =>
    intro s b last r h hs hlast
    obtain ⟨q, hq, h⟩ := andThen_eq_next.mp h
    cases h
    obtain rfl : b = last := by simpa using hlast
    exact swByte_tracked hA hm hp hq hs
  | cons b' bs ih =>
    intro s b last r h hs hlast
    obtain ⟨q, hq, h⟩ := andThen_eq_next.mp h
    obtain ⟨rs, hrs, h⟩ := andThen_eq_next.mp h
    cases h
    exact ih (r := rs) hrs (.inl (swByte_tracked hA hm hp hq hs).2) (by simpa [List.getLast?_cons_cons] using hlast)

end

/-- Settles O57: sequence A by `bitSlot_tracked`; sequence B by running the slot from states that differ in the tracker. -/
theorem slotTracksDataOut : Obligations.SlotTracksDataOut := by
  intro c w s t hd hb h
  refine ⟨fun hA p hm hs => bitSlot_tracked hA hm (hd.clk_ne_mosi hb hm) h hs, fun hB => ⟨?_, fun v => ?_⟩⟩
  · obtain ⟨hr, -⟩ := bitSlot_next h
    simp [hr, hB]
  · obtain ⟨t', ht', rfl⟩ := (sameButTracker_slotBlind v).bitSlot (by simp [hB]) (s' := s.setRegs { s.regs with lastMosi := v }) rfl
      t h
    exact ht'

/-- Settles O58: the loop equations by definition of the loops, the last clause by `swBytes_tracked`. -/
theorem trackerCarriesAcrossBytes : Obligations.TrackerCarriesAcrossBytes := by
  intro c w hd hb
  refine ⟨fun s b bs => ?_, fun s b => rfl, fun s n => ?_, fun s bs b' => ?_, fun s => ⟨rfl, rfl⟩, ?_⟩
  · rw [← maskedBit_start]
    rfl
  · rw [bitSlots_add]
    congr 1
    funext u
    simp only [bitSlots]
    cases bitSlot c w u <;> rfl
  · rw [swBytes_append]
    simp only [swBytes, andThen_assoc, andThen_next]
  · intro s t bs b first rs hA hfirst hlast h p hm
    obtain ⟨rest, hrest⟩ : ∃ rest, bs ++ [b] = first :: rest := by
      cases bs with
      | nil => exact ⟨[], by simpa using hfirst⟩
      | cons x xs => exact ⟨xs ++ [b], by simpa using hfirst⟩
    have hend : (first :: rest).getLast? = some b := by simp [← hrest]
    rw [hrest] at h
    have hstart : InStep (s.loadByte c first) p := .inr (by simp [hlast, maskedBit_start])
    obtain ⟨hl, htracked⟩ := swBytes_tracked hA hm (hd.clk_ne_mosi hb hm) rest h hstart hend
    exact ⟨hl, htracked, fun b' => hl⟩

/-! Relations that the parts of an invocation preserve. -/

/-- States an invocation tells apart in nothing it sends; with `exact`, in nothing it gives back either. -/
structure EngineBlind (exact : Prop) (R : State → State → Prop) : Prop extends SlotBlind R, TrackerBlind R where
  loadByte {s s' : State} (c : Cfg) (b : Byte) : R s s' → R (s.loadByte c b) (s'.loadByte c b)
  advance {s s' : State} (n : Nat) : R s s' → R (s.advance n) (s'.advance n)
  forgetRegs {s s' : State} : R s s' → R s.forgetRegs s'.forgetRegs
  transferred {s s' : State} (bs : List Byte) : R s s' →
    R ((s.setEnv (s.env.dropBytes bs.length)).emit (.transfer bs (s.env.bytes bs.length)))
      ((s'.setEnv (s'.env.dropBytes bs.length)).emit (.transfer bs (s'.env.bytes bs.length)))
  rx {s s' : State} : exact → R s s' → s'.regs.rx = s.regs.rx
  bytes {s s' : State} (n : Nat) : exact → R s s' → s'.env.bytes n = s.env.bytes n

/-- States a frame, too, tells apart in nothing it does. -/
structure FrameBlind (exact : Prop) (R : State → State → Prop) : Prop extends EngineBlind exact R where
  csControl {s s' : State} : R s s' → s'.csControl = s.csControl
  atPhase {s s' : State} (ph : Phase) : R s s' → R (s.atPhase ph) (s'.atPhase ph)

/-- Answers whose states are related, and with `exact` whose values are the same. -/
def Alike (exact : Prop) (R : State → State → Prop) {α : Type} (r r' : α × State) : Prop := (exact → r'.1 = r.1) ∧ R r.2 r'.2

section
variable {exact : Prop} {R : State → State → Prop} {c : Cfg} {w : SwPins} {s s' : State}

theorem EngineBlind.bitSlots (hR : EngineBlind exact R) (n : Nat) : ∀ {s s' : State}, R s s' →
    Sim R (bitSlots c w n s) (bitSlots c w n s') := by
  induction n with
  | zero => exact Sim.next
  | succ n ih => exact fun h => (hR.bitSlot (fun _ => hR.toTrackerBlind) h).andThen fun _ _ => ih

theorem EngineBlind.swByte (hR : EngineBlind exact R) (h : R s s') (b : Byte) :
    Sim (Alike exact R) (swByte c w b s) (swByte c w b s') :=
  (hR.bitSlots 8 (hR.loadByte c b h)).andThen fun _ _ h => Sim.next ⟨fun hx => by rw [hR.rx hx h], hR.advance 1 h⟩

theorem EngineBlind.swBytes (hR : EngineBlind exact R) (bs : List Byte) : ∀ {s s' : State}, R s s' →
    Sim (Alike exact R) (swBytes c w bs s) (swBytes c w bs s') := by
  induction bs with
  | nil => exact fun h => Sim.next ⟨fun _ => rfl, h⟩
  | cons b bs ih =>
    exact fun h => (hR.swByte h b).andThen fun _ _ h => (ih h.2).andThen fun _ _ hs =>
      Sim.next ⟨fun hx => by rw [h.1 hx, hs.1 hx], hs.2⟩

theorem EngineBlind.engine (hR : EngineBlind exact R) (h : R s s') (bs : List Byte) :
    Sim (Alike exact R) (engine c bs s) (engine c bs s') := by
  cases bs with
  | nil => exact Sim.next ⟨fun _ => rfl, h⟩
  | cons b bs =>
    unfold Machine.engine
    dsimp only
    split
    · refine Sim.andThen (V := Alike exact R) ((hR.callPrim h _).andThen fun t t' h => Sim.next ?_) fun _ _ h =>
        Sim.next ⟨h.1, hR.advance _ h.2⟩
      exact ⟨fun hx => hR.bytes _ hx h, hR.transferred _ h⟩
    · exact (hR.swBytes (b :: bs) (hR.track _ h)).andThen fun _ _ h => Sim.next ⟨h.1, hR.forgetRegs h.2⟩

theorem EngineBlind.xferByte (hR : EngineBlind exact R) (h : R s s') (b : Byte) :
    Sim (Alike exact R) (xferByte c b s) (xferByte c b s') :=
  (hR.engine h [b]).andThen fun _ _ h => Sim.next ⟨fun hx => by rw [h.1 hx], h.2⟩

theorem EngineBlind.xferAll (hR : EngineBlind exact R) (bs : List Byte) : ∀ {s s' : State}, R s s' →
    Sim (Alike exact R) (xferAll c bs s) (xferAll c bs s') := by
  induction bs with
  | nil => exact fun h => Sim.next ⟨fun _ => rfl, h⟩
  | cons b bs ih =>
    exact fun h => (hR.xferByte h b).andThen fun _ _ h => (ih h.2).andThen fun _ _ hs =>
      Sim.next ⟨fun hx => by rw [h.1 hx, hs.1 hx], hs.2⟩

theorem EngineBlind.writeThenReadBody (hR : EngineBlind exact R) (h : R s s') (ws : List Byte) (n : Nat) (fill : Byte) :
    Sim (Alike exact R) (writeThenReadBody c ws n fill s) (writeThenReadBody c ws n fill s') :=
  (hR.xferAll ws h).andThen fun _ _ h => hR.xferAll _ h.2

theorem FrameBlind.driveCs (hR : FrameBlind exact R) (h : R s s') (v : Level) : Sim R (driveCs c v s) (driveCs c v s') := by
  unfold Machine.driveCs
  rw [hR.csControl h]
  split
  · exact hR.pinWrite h _ _ _
  · exact Sim.next h

variable {α : Type} {body : State → Res (α × State)}

theorem FrameBlind.selected (hR : FrameBlind exact R) (hbody : ∀ u u', R u u' → Sim (Alike exact R) (body u) (body u')) (h : R s s') :
    Sim (Alike exact R) (selected c body s) (selected c body s') :=
  (hR.driveCs (hR.atPhase _ h) _).andThen fun _ _ h => (hbody _ _ (hR.atPhase _ h)).andThen fun _ _ hb =>
    (hR.driveCs (hR.atPhase _ hb.2) _).andThen fun _ _ h => Sim.next ⟨hb.1, h⟩

theorem FrameBlind.frame (hR : FrameBlind exact R) (hbody : ∀ u u', R u u' → Sim (Alike exact R) (body u) (body u')) (h : R s s') :
    Sim (Alike exact R) (frame c body s) (frame c body s') := by
  have hbegin : ∀ {u u' : State}, R u u' → Sim R (beginSession c u) (beginSession c u') := fun h => by
    unfold beginSession
    split
    · exact hR.callEmit h _ rfl
    · exact Sim.next h
  have hend : ∀ {u u' : State}, R u u' → Sim R (endSession c u) (endSession c u') := fun h => by
    unfold endSession
    split
    · exact hR.callEmit h _ rfl
    · exact Sim.next h
  exact (hbegin (hR.atPhase _ h)).andThen fun _ _ h => (hR.selected hbody h).andThen fun _ _ hb =>
    (hend (hR.atPhase _ hb.2)).andThen fun _ _ h => Sim.next ⟨hb.1, h⟩

end

/-! The engine reads no flag. -/

/-- Two states that differ in the handle at most. -/
def SameButHandle (h : Handle) (s s' : State) : Prop := s' = s.setHandle (some h)

theorem sameButHandle_engineBlind (h : Handle) : EngineBlind True (SameButHandle h) where
  pins := by rintro s _ rfl; rfl
  stall := by rintro s _ rfl; rfl
  tx := by rintro s _ rfl; rfl
  mask := by rintro s _ rfl; rfl
  atCall _ := by rintro rfl; rfl
  setStall _ := by rintro rfl; rfl
  setPin _ _ := by rintro rfl; rfl
  emit _ := by rintro rfl; rfl
  sampled := by rintro s _ rfl; rfl
  setMask _ := by rintro rfl; rfl
  lastMosi := by rintro s _ rfl; rfl
  track _ := by rintro rfl; rfl
  loadByte _ _ := by rintro rfl; rfl
  advance _ := by rintro rfl; rfl
  forgetRegs := by rintro s _ rfl; rfl
  transferred _ := by rintro rfl; rfl
  rx _ := by rintro rfl; rfl
  bytes _ _ := by rintro rfl; rfl

/-- An engine operation under another handle of the same configuration that was initialised too does the same. -/
theorem exec_engineOp_setHandle {i : Instr} {h h' : Handle} {s t : State} (hi : IsEngineOp i) (hs : s.handle = some h)
    (hcfg : h'.cfg = h.cfg) (hinit : h'.isInitialized = h.isInitialized) (hx : exec i s = .next t) :
    exec i (s.setHandle (some h')) = .next (t.setHandle (some h')) := by
  have hg := goodBuffers_of_next hx
  have hsim : Sim (SameButHandle h') (exec i s) (exec i (s.setHandle (some h'))) := by
    rw [exec_engineOp hi hg, exec_engineOp hi hg]
    refine Sim.operation (V := fun r r' => r'.1 = r.1 ∧ SameButHandle h' r.2 r'.2) hs (setHandle_handle s (some h')) ?_ ?_
    · rw [hcfg]
      refine Sim.whenInitialized hinit (((sameButHandle_engineBlind h').engine (s := s.start i) rfl _).andThen fun r r' hr => ?_)
      exact Sim.next ⟨by rw [hr.1 trivial], hr.2⟩
    · rintro ⟨r, u⟩ ⟨r', u'⟩ ⟨(rfl : r' = r), (rfl : u' = u.setHandle (some h'))⟩
      rfl
  obtain ⟨t', ht', rfl⟩ := hsim t hx
  exact ht'

/-- An engine operation of a live handle, in any state, makes engine events and keeps the handle. -/
theorem engineOp_returned {i : Instr} {h : Handle} {s t : State} (hi : IsEngineOp i) (hs : s.handle = some h)
    (hx : exec i s = .next t) : ∃ es, t.trace = s.trace ++ es ∧ t.handle = some h ∧ ∀ e ∈ es, EngineEvent h.cfg e := by
  rw [exec_engineOp hi (goodBuffers_of_next hx)] at hx
  obtain ⟨r, u, hb, rfl⟩ := operation_live_next hs hx
  obtain ⟨q, hq, hb⟩ := andThen_eq_next.mp (whenInitialized_eq_next.mp hb).2
  cases hb
  obtain ⟨es, he, hes⟩ := (engine_ran _).of_next hq
  exact ⟨es, he.trace, he.handle.trans hs, hes⟩

theorem EngineEvent.isSession_eq_false {c : Cfg} {e : Event} (he : EngineEvent c e) : e.isSession = false := by
  unfold EngineEvent at he
  cases hb : c.bus with
  | hardware p =>
    rw [hb] at he
    obtain ⟨_, _, rfl, -⟩ := he
    rfl
  | software w =>
    rw [hb] at he
    rcases he with ⟨_, rfl⟩ | ⟨_, rfl, -⟩ | ⟨_, rfl, -⟩ | ⟨rfl, -⟩ <;> rfl

/-- Settles O35: the events are `EngineEvent`s, and the engine runs alike from states that differ in the handle. -/
theorem engineLeavesFramingAlone : Obligations.EngineLeavesFramingAlone := by
  intro s t h i es hs hi hx ht
  obtain ⟨es', htrace, hhandle, hes⟩ := engineOp_returned hi hs hx
  obtain rfl : es = es' := List.append_cancel_left (ht.symm.trans htrace)
  exact ⟨hhandle, fun e he => ⟨(hes e he).onCs_eq_false, (hes e he).isSession_eq_false⟩,
    fun on => exec_engineOp_setHandle (h' := h.withCsControl on) hi hs rfl rfl hx⟩

/-! No operation sends what it received. -/

/-- What a state shows of what was sent and will be: the answers are taken out of its events, and the answers to come, the received
byte, the sequencer's position, the requests and the result are left out. -/
structure Sent where
  handle : Option Handle
  pins : Pins
  tx : Byte
  mask : Byte
  lastMosi : Level
  fresh : Nat
  events : List Event
  stall : Option Nat

/-- What `s` shows. -/
def State.sent (s : State) : Sent :=
  ⟨s.handle, s.pins, s.regs.tx, s.regs.mask, s.regs.lastMosi, s.fresh, s.trace.map Event.blind, s.env.stall⟩

theorem sent_emit (s : State) (e : Event) : (s.emit e).sent = { s.sent with events := s.sent.events ++ [e.blind] } := by
  simp [State.sent]

/-- Two states that differ in what the environment answered and will answer. -/
def SameSent (s s' : State) : Prop := s'.sent = s.sent

theorem SameSent.map {s s' u u' : State} (h : SameSent s s') (f : Sent → Sent) (hu : u.sent = f s.sent) (hu' : u'.sent = f s'.sent) :
    SameSent u u' := by
  rw [SameSent, hu, hu', h]

theorem SameSent.handle {s s' : State} (h : SameSent s s') : s'.handle = s.handle := congrArg Sent.handle h

/-- Events that differ in an answer at most. -/
theorem SameSent.emit {s s' : State} {e e' : Event} (h : SameSent s s') (he : e'.blind = e.blind) :
    SameSent (s.emit e) (s'.emit e') := by
  unfold SameSent at *
  rw [sent_emit, sent_emit, h, he]

/-- What each change of state shows is a function of what the state showed before: no part of an operation looks further. -/
theorem sameSent_frameBlind : FrameBlind False SameSent where
  pins h := congrArg Sent.pins h
  stall h := congrArg Sent.stall h
  tx h := congrArg Sent.tx h
  mask h := congrArg Sent.mask h
  lastMosi h := congrArg Sent.lastMosi h
  atCall _ h := h
  setStall n h := h.map (fun x => { x with stall := n }) rfl rfl
  setPin p v h := h.map (fun x => { x with pins := pinPut p v x.pins }) rfl rfl
  emit _ h := h.emit rfl
  sampled {s s'} h := SameSent.emit (s := s.setEnv (s.env.dropLevels 1)) (s' := s'.setEnv (s'.env.dropLevels 1)) h rfl
  setMask m h := h.map (fun x => { x with mask := m }) rfl rfl
  track v h := h.map (fun x => { x with lastMosi := v }) rfl rfl
  loadByte c b h := h.map (fun x => { x with tx := b, mask := startMask c.order }) rfl rfl
  advance _ h := h
  forgetRegs h := h.map (fun x => { x with
    tx := Config.freeByte x.fresh, mask := Config.freeByte (x.fresh + 2), lastMosi := Config.freeLevel x.fresh,
    fresh := x.fresh + 3 }) rfl rfl
  transferred {s s'} bs h := SameSent.emit (s := s.setEnv (s.env.dropBytes bs.length)) (s' := s'.setEnv (s'.env.dropBytes bs.length)) h
    (by simp [Event.blind])
  rx := nofun
  bytes _ := nofun
  csControl h := by
    unfold State.csControl
    rw [h.handle]
  atPhase _ h := h

section
variable {s s' : State} {V : State → State → Prop}

theorem Sim.withDataMode {mode : Nat} {k k' : BitVec 2 → Res State} (hk : ∀ m, Sim V (k m) (k' m)) :
    Sim V (withDataMode mode k) (withDataMode mode k') := by
  unfold Machine.withDataMode
  split
  · exact hk _
  · exact Sim.refused

theorem Sim.withCsPin {cs : Option Pin} {k k' : Pin → Res State} (hk : ∀ p, Sim V (k p) (k' p)) :
    Sim V (withCsPin cs k) (withCsPin cs k') := by
  cases cs with
  | none => exact Sim.refused
  | some p => exact hk p

theorem Sim.withDistinct {pins : List Pin} {x y : Res State} (hx : Sim V x y) : Sim V (withDistinct pins x) (withDistinct pins y) := by
  unfold Machine.withDistinct
  split
  · exact hx
  · exact Sim.refused

theorem SameSent.construct (h : SameSent s s') (c : Cfg) (r : Ret) :
    SameSent ((s.construct c).finish r) ((s'.construct c).finish r) :=
  h.map (fun x => { x with
    handle := some (Handle.fresh c), pins := c.pins.foldr pinClear x.pins, tx := Config.freeByte x.fresh,
    mask := Config.freeByte (x.fresh + 2), lastMosi := Config.freeLevel x.fresh, fresh := x.fresh + 3 }) rfl rfl

theorem SameSent.setHandle (h : SameSent s s') (hd : Option Handle) : SameSent (s.setHandle hd) (s'.setHandle hd) :=
  h.map (fun x => { x with handle := hd }) rfl rfl

/-- An operation, by its body; the values returned may differ. -/
theorem SameSent.operation {op : Instr} {body : Handle → State → Res (Ret × State)} (h : SameSent s s')
    (hbody : ∀ hd u u', SameSent u u' → Sim (Alike False SameSent) (body hd u) (body hd u')) :
    Sim SameSent (operation op s body) (operation op s' body) := by
  cases hs : s.handle with
  | none =>
    rw [operation_noHandle hs]
    exact Sim.refused
  | some hd =>
    exact Sim.operation hs (h.handle.trans hs) (hbody hd (s.start op) (s'.start op) h) fun _ _ hr => hr.2

/-- The end of a body: the result is made from the value, whatever it is. -/
theorem Sim.ret {α : Type} {x y : Res (α × State)} {f : α × State → Res (Ret × State)} (hx : Sim (Alike False SameSent) x y)
    (hf : ∀ r, ∃ v, f r = .next (v, r.2)) : Sim (Alike False SameSent) (Machine.andThen x f) (Machine.andThen y f) :=
  hx.andThen fun r r' hr => by
    obtain ⟨v, hv⟩ := hf r
    obtain ⟨v', hv'⟩ := hf r'
    rw [hv, hv']
    exact Sim.next ⟨nofun, hr.2⟩

theorem SameSent.onlyHardware {hd : Handle} {sig : State → Res State} (h : SameSent s s') (hsig : Sim SameSent (sig s) (sig s')) :
    Sim (Alike False SameSent) (onlyHardware hd sig s) (onlyHardware hd sig s') := by
  unfold Machine.onlyHardware
  split
  · exact Sim.whenInitialized rfl (hsig.andThen fun _ _ h => Sim.next ⟨nofun, h⟩)
  · exact Sim.next ⟨nofun, h⟩

theorem SameSent.beginOutput (h : SameSent s s') (r : Role) (p : Option Pin) (v : Level) :
    Sim SameSent (beginOutput r p v s) (beginOutput r p v s') := by
  cases p with
  | none => exact Sim.next h
  | some p => exact (sameSent_frameBlind.pinMode h r p _).andThen fun _ _ h => sameSent_frameBlind.pinWrite h r p v

theorem SameSent.beginInput (h : SameSent s s') (r : Role) (p : Option Pin) : Sim SameSent (beginInput r p s) (beginInput r p s') := by
  cases p with
  | none => exact Sim.next h
  | some p => exact sameSent_frameBlind.pinMode h r p _

theorem SameSent.beginCs (h : SameSent s s') (c : Cfg) : Sim SameSent (beginCs c s) (beginCs c s') := by
  unfold Machine.beginCs
  rw [sameSent_frameBlind.csControl h]
  split
  · exact h.beginOutput .cs (some c.csPin) true
  · exact Sim.next h

theorem SameSent.beginBus (h : SameSent s s') (c : Cfg) : Sim SameSent (beginBus c s) (beginBus c s') := by
  unfold Machine.beginBus
  split
  · exact sameSent_frameBlind.callEmit h _ rfl
  · exact (h.beginOutput _ _ _).andThen fun _ _ h => (h.beginOutput _ _ _).andThen fun _ _ h => h.beginInput _ _

/-- Every operation, under any answers, sends the same. -/
theorem exec_sameSent (h : SameSent s s') (i : Instr) : Sim SameSent (exec i s) (exec i s') := by
  have hR := sameSent_frameBlind
  cases i with
  | constructHw cs freq order mode periph =>
    simp only [exec, execConstructHw]
    exact Sim.withDataMode fun m => Sim.withCsPin fun p => Sim.next (h.construct _ _)
  | constructSw cs clk miso mosi freq order mode =>
    simp only [exec, execConstructSw]
    exact Sim.withDataMode fun m => Sim.withDistinct (Sim.withCsPin fun p => Sim.next (h.construct _ _))
  | beginInit =>
    simp only [exec, execBegin]
    exact h.operation fun hd u u' h => (h.beginCs hd.cfg).andThen fun _ _ h => (h.beginBus hd.cfg).andThen fun _ _ h =>
      Sim.next ⟨nofun, h.setHandle _⟩
  | endRelease =>
    simp only [exec, execEnd]
    exact h.operation fun hd u u' h => h.onlyHardware (hR.callEmit h _ rfl)
  | beginTransaction =>
    simp only [exec, execBeginTransaction]
    exact h.operation fun hd u u' h => h.onlyHardware (hR.callEmit h _ rfl)
  | endTransaction =>
    simp only [exec, execEndTransaction]
    exact h.operation fun hd u u' h => h.onlyHardware (hR.callEmit h _ rfl)
  | disableCsToggle | enableCsToggle | destroy =>
    simp only [exec, execDisableCsToggle, execEnableCsToggle, execDestroy]
    exact h.operation fun hd u u' h => Sim.next ⟨nofun, h.setHandle _⟩
  | write b l v =>
    simp only [exec, execWrite]
    exact h.operation fun hd u u' h => Sim.whenInitialized rfl <| Sim.withSrc fun ps => Sim.withSrc fun bs =>
      (hR.frame (fun _ _ => hR.xferAll _) h).ret fun _ => ⟨_, rfl⟩
  | read b f =>
    simp only [exec, execRead]
    exact h.operation fun hd u u' h => Sim.whenInitialized rfl <| Sim.withDst <|
      (hR.frame (fun _ _ h => hR.engine h _) h).ret fun _ => ⟨_, rfl⟩
  | writeThenRead a b f =>
    simp only [exec, execWriteThenRead]
    exact h.operation fun hd u u' h => Sim.whenInitialized rfl <| Sim.withSrc fun ws => Sim.withDst <|
      (hR.frame (fun _ _ h => hR.writeThenReadBody h _ _ _) h).ret fun _ => ⟨_, rfl⟩
  | repeated v n l =>
    simp only [exec, execRepeated]
    exact h.operation fun hd u u' h => Sim.whenInitialized rfl <| Sim.withSrc fun ps =>
      (hR.frame (fun _ _ => hR.xferAll _) h).ret fun _ => ⟨_, rfl⟩
  | transfer b =>
    simp only [exec, execTransfer]
    exact h.operation fun hd u u' h => Sim.whenInitialized rfl <| Sim.withSrc fun bs => (hR.engine h _).ret fun _ => ⟨_, rfl⟩
  | transferByte b =>
    simp only [exec, execTransferByte]
    exact h.operation fun hd u u' h => Sim.whenInitialized rfl <| (hR.xferByte h _).ret fun _ => ⟨_, rfl⟩
  | writeAndRead b =>
    simp only [exec, execWriteAndRead]
    exact h.operation fun hd u u' h => Sim.whenInitialized rfl <| (hR.selected (fun _ _ h => hR.xferByte h _) h).ret fun _ => ⟨_, rfl⟩

end

/-- Settles O50: the state under other answers shows the same at the start, so it does at the end (`exec_sameSent`). -/
theorem sentDataIgnoresReceivedData : Obligations.SentDataIgnoresReceivedData := by
  intro s t i e es hstall hx ht
  have hstart : SameSent s { s with env := e } := by simp only [SameSent, State.sent, hstall]
  obtain ⟨t', hx', hend⟩ := exec_sameSent hstart i t hx
  obtain ⟨⟨es', htrace⟩, -⟩ := traceOnlyGrows _ _ _ hx'
  refine ⟨t', es', hx', htrace.symm, ?_, congrArg Sent.pins hend, hend.handle⟩
  have hevents : t'.trace.map Event.blind = t.trace.map Event.blind := congrArg Sent.events hend
  rw [← htrace, ht, List.map_append, List.map_append] at hevents
  exact List.append_cancel_left hevents

end Sys2Proof.Machine

/-! PROOF. O36, O37, O38, O39, O40, O41, O42, O43, O44: what the Transaction Framer does (42_transaction_framer.md). Each composite
operation is a frame around a body that `BodyDoes` describes (`FrameReady.frame_moved`); what the wire shows is the stream because
all of an operation's transfer events are those of its invocations (`exec_carries`), slot by slot. -/

namespace Sys2Proof.Machine

/-! The composite operations of a ready handle. -/

/-- A part that did its events and left all but the pins `l`, then the result, is a move of bytes. -/
theorem moved_of_did {α : Type} {c : Cfg} {s : State} {op : Instr} {x : Res (α × State)} {a : α} {es : List Event} {e : Env}
    {l : List Pin} (hx : ∃ u, x = .next (a, u) ∧ Did c (s.start op) u es ∧ u.env = e)
    (hk : PinsKept l s.pins (replay c s.pins es)) (ret : α → Ret) :
    ∃ t, andThen (andThen x fun r => .next (ret r.1, r.2)) (fun r => .next (r.2.finish r.1)) = .next t ∧
      Moved s t es e l ∧ t.ret = ret a := by
  obtain ⟨u, rfl, hd, rfl⟩ := hx
  exact ⟨u.finish (ret a), rfl, hd.moved hk _, rfl⟩

section
variable {α : Type} {h : Handle} {s : State} {op : Instr} {body : State → Res (α × State)} {a : α} {es : List Event} {e : Env}

/-- A body of engine events inside the frame writes chip-select, clock and data-out only (R180, R181). -/
theorem FrameReady.frame_moved (hr : FrameReady h s) (hbody : BodyDoes h.cfg s.env body a es e)
    (hes : ∀ x ∈ es, EngineWrites x) (ret : α → Ret) :
    ∃ t, andThen (andThen (frame h.cfg body (s.start op)) fun r => .next (ret r.1, r.2)) (fun r => .next (r.2.finish r.1)) =
        .next t ∧
      Moved s t (frameEvents h.cfg h.csControlEnabled es) e (framePins h) ∧ t.ret = ret a :=
  moved_of_did (frame_did (s := s.start op) hr.live hr.bus hr.cs hr.returns hbody) (frame_kept hes _) ret

/-- The same of the chip-select bracket alone (R186). -/
theorem FrameReady.selected_moved (hr : FrameReady h s) (hbody : BodyDoes h.cfg s.env body a es e)
    (hes : ∀ x ∈ es, EngineWrites x) (ret : α → Ret) :
    ∃ t, andThen (andThen (selected h.cfg body (s.start op)) fun r => .next (ret r.1, r.2))
        (fun r => .next (r.2.finish r.1)) = .next t ∧
      Moved s t (selectedEvents h.csControlEnabled es) e (framePins h) ∧ t.ret = ret a :=
  moved_of_did (selected_did (s := s.start op) hr.live hr.bus hr.cs hr.returns hbody) (selected_kept hes _) ret

end

theorem xferByte_does (c : Cfg) {e : Env} (he : e.stall = none) (b : Byte) :
    BodyDoes c e (xferByte c b) ((engineBytes c [b] e).headD b) (engineEvents c [b] e) (engineEnv c [b] e) := by
  rintro u hb rfl
  exact xferByte_did hb he b

theorem invertIf_eq_map (invert : Bool) (bs : List Byte) :
    invertIf invert bs = bs.map fun x => if invert then ~~~x else x := by
  cases invert with
  | false => simp [invertIf]
  | true => exact List.map_congr_left fun x _ => BitVec.xor_allOnes

/-- Settles O36: the body is the byte-by-byte loop over the stream. -/
theorem writeSendsPrefixAndBuffer : Obligations.WriteSendsPrefixAndBuffer := by
  intro s h b l invert tx hr hb hl htx
  rw [← invertIf_eq_map] at htx
  simp only [exec, execWrite, operation_live hr.live, whenInitialized_true hr.initialized, withSrc_good hl, withSrc_good hb,
    ← htx]
  exact hr.frame_moved (xferAll_does _ hr.returns tx) (xferEvents_writes tx _)
    fun _ => { value := .success true, buffer := b.bytes, lead := l.bytes }

/-- Settles O37: the body is one invocation. -/
theorem readFillsAndTransfersOnce : Obligations.ReadFillsAndTransfersOnce := by
  intro s h b fill hr hb
  simp only [exec, execRead, operation_live hr.live, whenInitialized_true hr.initialized, withDst_good hb]
  exact hr.frame_moved (engine_does _ hr.returns _) engineEvents_writes
    fun rs => { value := .success true, buffer := fillDst b rs }

/-- The bytes of the second phase are what is left of the bytes of both (R184). -/
theorem drop_xferBytes_append (c : Cfg) (xs ys : List Byte) (e : Env) :
    (xferBytes c (xs ++ ys) e).drop xs.length = xferBytes c ys (engineEnv c xs e) := by
  rw [xferBytes_append, List.drop_left' (xferBytes_length c xs e)]

/-- Settles O38: the body is the two phases, one after the other. -/
theorem writeThenReadKeepsThePhasesApart : Obligations.WriteThenReadKeepsThePhasesApart := by
  intro s h a b fill ws hr ha hb hws
  simp only [exec, execWriteThenRead, operation_live hr.live, whenInitialized_true hr.initialized, withSrc_good ha,
    withDst_good hb, ← hws, drop_xferBytes_append]
  exact hr.frame_moved (writeThenReadBody_does _ hr.returns ws b.len fill) (xferEvents_writes _ _)
    fun rs => { value := .success true, buffer := fillDst b rs, source := a.bytes }

/-- Settles O39: the body is the byte-by-byte loop over the stream. -/
theorem repeatedSendsCopies : Obligations.RepeatedSendsCopies := by
  intro s h value times l tx hr hl htx
  simp only [exec, execRepeated, operation_live hr.live, whenInitialized_true hr.initialized, withSrc_good hl, ← htx]
  exact hr.frame_moved (xferAll_does _ hr.returns tx) (xferEvents_writes tx _)
    fun _ => { value := .success true, lead := l.bytes }

/-- Settles O40: chip-select brackets one invocation on a byte of its own. -/
theorem writeAndReadSelectsOneByte : Obligations.WriteAndReadSelectsOneByte := by
  intro s h b hr
  simp only [exec, execWriteAndRead, operation_live hr.live, whenInitialized_true hr.initialized]
  obtain ⟨t, hx, hm, hret⟩ := hr.selected_moved (op := .writeAndRead b) (xferByte_does _ hr.returns b) engineEvents_writes
    fun x => { value := .byte x }
  exact ⟨t, hx, hm, hret.trans (congrArg (fun x => ({ value := .byte x } : Ret)) (engineBytes_single_headD h.cfg b s.env))⟩

/-! Empty streams. -/

@[simp] theorem engineEnv_nil (c : Cfg) (e : Env) : engineEnv c [] e = e := by
  unfold engineEnv; cases c.bus <;> simp

/-- Settles O43: the effect of each composite operation (O36 to O39) at the empty stream; WRITE_AND_READ's has its byte. -/
theorem emptyStreamsStillFrame : Obligations.EmptyStreamsStillFrame := by
  intro s h i hr hi htx hwrite hread hwriteThenRead hrepeated
  rcases hi with ⟨b, l, v, rfl⟩ | ⟨b, f, rfl⟩ | ⟨a, b, f, rfl⟩ | ⟨v, n, l, rfl⟩ | ⟨b, rfl⟩
  · obtain ⟨hb, hl⟩ := hwrite b l v rfl
    rw [txStream, readSrc_good hl, readSrc_good hb, invertIf_eq_map] at htx
    obtain ⟨t, hx, hm, -⟩ := writeSendsPrefixAndBuffer s h b l v [] hr hb hl htx.symm
    exact ⟨t, hx, hm.trace, by simpa using hm.env⟩
  · obtain ⟨t, hx, hm, -⟩ := readFillsAndTransfersOnce s h b f hr (hread b f rfl)
    rw [txStream] at htx
    exact ⟨t, hx, by simpa [htx] using hm.trace, by simpa [htx] using hm.env⟩
  · obtain ⟨ha, hb⟩ := hwriteThenRead a b f rfl
    rw [txStream, readSrc_good ha, Option.getD_some] at htx
    obtain ⟨t, hx, hm, -⟩ := writeThenReadKeepsThePhasesApart s h a b f _ hr ha hb rfl
    rw [htx] at hm
    exact ⟨t, hx, hm.trace, by simpa using hm.env⟩
  · have hl := hrepeated v n l rfl
    rw [txStream, readSrc_good hl] at htx
    obtain ⟨t, hx, hm, -⟩ := repeatedSendsCopies s h v n l [] hr hl htx.symm
    exact ⟨t, hx, hm.trace, by simpa using hm.env⟩
  · cases htx

/-! The success indicator. -/

/-- An operation returns what its body returns. -/
theorem ret_of_operation_next {op : Instr} {s t : State} {body : Handle → State → Res (Ret × State)} {v : RetVal}
    (hbody : ∀ h u r, body h u = .next r → r.1.value = v) (hx : operation op s body = .next t) : t.ret.value = v := by
  obtain ⟨h, r, u, -, hb, rfl⟩ := operation_eq_next hx
  exact hbody h _ (r, u) hb

/-- A sequence returns what its last part returns. -/
theorem ret_of_andThen_next {α : Type} {x : Res α} {ret : α → Ret} {st : α → State} {r : Ret × State} {v : RetVal}
    (hret : ∀ a, (ret a).value = v) (hx : andThen x (fun a => .next (ret a, st a)) = .next r) : r.1.value = v := by
  obtain ⟨a, -, ha⟩ := andThen_eq_next.mp hx
  cases ha
  exact hret a

/-- Settles O41: each of the five bodies, if it answers, ends with the success indicator true. -/
theorem successIsAlwaysTrue : Obligations.SuccessIsAlwaysTrue := by
  intro s t i hi hx
  cases i with
  | beginInit =>
    simp only [exec, execBegin] at hx
    refine ret_of_operation_next (fun h u r hb => ?_) hx
    obtain ⟨v, -, hb⟩ := andThen_eq_next.mp hb
    exact ret_of_andThen_next (fun _ => rfl) hb
  | write b l v =>
    simp only [exec, execWrite] at hx
    refine ret_of_operation_next (fun h u r hb => ?_) hx
    obtain ⟨-, hb⟩ := withSrc_eq_next (whenInitialized_eq_next.mp hb).2
    exact ret_of_andThen_next (fun _ => rfl) (withSrc_eq_next hb).2
  | read b f =>
    simp only [exec, execRead] at hx
    refine ret_of_operation_next (fun h u r hb => ?_) hx
    obtain ⟨-, hb⟩ := withDst_eq_next (whenInitialized_eq_next.mp hb).2
    exact ret_of_andThen_next (fun _ => rfl) hb
  | writeThenRead a b f =>
    simp only [exec, execWriteThenRead] at hx
    refine ret_of_operation_next (fun h u r hb => ?_) hx
    obtain ⟨-, hb⟩ := withSrc_eq_next (whenInitialized_eq_next.mp hb).2
    exact ret_of_andThen_next (fun _ => rfl) (withDst_eq_next hb).2
  | repeated v n l =>
    simp only [exec, execRepeated] at hx
    refine ret_of_operation_next (fun h u r hb => ?_) hx
    obtain ⟨-, hb⟩ := withSrc_eq_next (whenInitialized_eq_next.mp hb).2
    exact ret_of_andThen_next (fun _ => rfl) hb
  | _ => cases hi

/-! Chip-select around the stream. -/

theorem Event.isCsWrite_eq_false {e : Event} (he : e.onCs = false) : e.isCsWrite = false := by
  cases e with
  | write r v =>
    cases r with
    | cs => cases he
    | _ => rfl
  | _ => rfl

theorem not_isTransferEvent_of_isSession {e : Event} (he : e.isSession = true) : ¬ IsTransferEvent e := by
  cases e with
  | beginSession _ _ _ | endSession => simp [IsTransferEvent, Event.isBitBang]
  | _ => cases he

/-- Settles O42: a framed operation that answered made engine events inside the bracket and session signals around it
(`framed_next`), and the chip-select pin is as its own events left it. -/
theorem chipSelectBracketsTheStream : Obligations.ChipSelectBracketsTheStream := by
  intro s t h i es hs hd hi hx ht
  obtain ⟨mid, pre, post, hmid, hsession, htrace, hpins, -⟩ := framed_next hs hi hx
  obtain rfl := List.append_cancel_left (ht.symm.trans htrace)
  obtain ⟨hpre, hpost⟩ := List.forall_mem_append.mp hsession
  have hpreOff : ∀ e ∈ pre, e.onCs = false := fun e he => onCs_eq_false_of_isSession (hpre e he)
  have hmidOff : ∀ e ∈ mid, e.onCs = false := fun e he => (hmid e he).onCs_eq_false
  have hpostOff : ∀ e ∈ post, e.onCs = false := fun e he => onCs_eq_false_of_isSession (hpost e he)
  have hpin : t.pin h.cfg.csPin =
      (pre ++ selectedEvents h.csControlEnabled mid ++ post).foldl (PinState.after .cs) (s.pin h.cfg.csPin) := by
    rw [pin_eq, hpins]
    exact pinGet_replay hd rfl _ _
  refine ⟨fun hon => ?_, fun hoff => ?_⟩
  · rw [hon] at hpin ⊢
    have hout : (t.pin h.cfg.csPin).out = some true := by
      rw [hpin, List.foldl_append, foldl_after_cs_of_off hpostOff]
      simp [selectedEvents, csEvents, PinState.after]
    have hallOff : ∀ e ∈ pre ++ mid ++ post, e.onCs = false :=
      List.forall_mem_append.mpr ⟨List.forall_mem_append.mpr ⟨hpreOff, hmidOff⟩, hpostOff⟩
    exact ⟨hout, pre, mid, post, by simp [selectedEvents, csEvents], fun e he => Event.isCsWrite_eq_false (hallOff e he),
      fun e he => not_isTransferEvent_of_isSession (hsession e he)⟩
  · have hcs := disabledChipSelectIsNeverDriven s t h i _ hs hoff hx ht
    exact ⟨hcs, hpin.trans (foldl_after_cs_of_off hcs _)⟩

/-! What the wire shows. -/

theorem sentBytes_append (xs ys : List Event) : sentBytes (xs ++ ys) = sentBytes xs ++ sentBytes ys := List.flatMap_append

theorem clockedBits_append (v : Level) (xs ys : List Event) : ∀ l : Latches,
    clockedBits v l (xs ++ ys) = clockedBits v l xs ++ clockedBits v (l.afterAll xs) ys := by
  induction xs with
  | nil => exact fun _ => rfl
  | cons e xs ih =>
    intro l
    simp only [List.cons_append, clockedBits, ih, afterAll_cons, List.append_assoc]

/-- Events that are no transfer's send nothing to the peripheral. -/
theorem sentBytes_of_not_transfer {es : List Event} (hes : ∀ e ∈ es, ¬ IsTransferEvent e) : sentBytes es = [] := by
  refine List.flatMap_eq_nil_iff.mpr fun e he => ?_
  cases e with
  | transfer s r => exact absurd (.inr ⟨s, r, rfl⟩) (hes _ he)
  | _ => rfl

/-- Events that are no transfer's do not clock. -/
theorem clockedBits_of_not_transfer (v : Level) {es : List Event} (hes : ∀ e ∈ es, ¬ IsTransferEvent e) :
    ∀ l : Latches, clockedBits v l es = [] := by
  induction es with
  | nil => exact fun _ => rfl
  | cons e es ih =>
    intro l
    obtain ⟨he, hes⟩ := List.forall_mem_cons.mp hes
    have hclk : e ≠ .write .clk v := by
      rintro rfl
      exact he (.inl rfl)
    simp only [clockedBits, if_neg hclk, List.nil_append, ih hes]

section
variable {c : Cfg}

theorem sentBytes_engineEvents {p : PeriphRef} (hb : c.bus = .hardware p) (bs : List Byte) (e : Env) :
    sentBytes (engineEvents c bs e) = bs := by
  cases bs with
  | nil => rw [engineEvents_nil]; rfl
  | cons b bs => simp [engineEvents_hardware hb, sentBytes]

theorem sentBytes_xferEvents {p : PeriphRef} (hb : c.bus = .hardware p) (bs : List Byte) :
    ∀ e : Env, sentBytes (xferEvents c bs e) = bs := by
  induction bs with
  | nil => exact fun _ => rfl
  | cons b bs ih => intro e; rw [xferEvents, sentBytes_append, sentBytes_engineEvents hb, ih]; rfl

variable {w : SwPins}

/-- A slot clocks its bit, once: sequence A drives data-out before the clock goes to 1, sequence B before it goes to 0. -/
theorem clockedBits_slotEvents (hmosi : w.mosi.isSome = true) {l : Latches} {last : Option Level} (hl : ShowsLast w l last)
    (bit v : Level) :
    clockedBits (!c.sequenceB) l (slotEvents c w (!decide (last = some bit)) bit v) = [some bit] := by
  have hwait : ∀ u l, clockedBits u l (waitEvents c) = [] := fun u l => by
    unfold waitEvents; split <;> rfl
  have hsample : ∀ u l, clockedBits u l (sampleEvents w v) = [] := fun u l => by
    unfold sampleEvents; split <;> rfl
  have hdrive : ∀ u l drive, clockedBits u l (driveEvents w drive bit) = [] := fun u l drive => by
    unfold driveEvents; split <;> rfl
  unfold slotEvents
  cases hB : c.sequenceB with
  | true =>
    simp [clockedBits_append, hwait, hsample, afterAll_waitEvents, clockedBits, driveEvents, hmosi, Latches.after,
      Latches.set]
  | false =>
    have hshow : (l.afterAll (driveEvents w (!decide (last = some bit)) bit)).mosi = some bit := by
      by_cases hlast : last = some bit
      · simpa [driveEvents, hlast] using hl hmosi bit hlast
      · simp [driveEvents, hlast, hmosi, Latches.after, Latches.set]
    simp [clockedBits_append, hwait, hsample, hdrive, afterAll_waitEvents, clockedBits, hshow]

theorem clockedBits_streamEvents (hmosi : w.mosi.isSome = true) (ans : Nat → Level) (bits : List Level) :
    ∀ {l : Latches} {last : Option Level} (k : Nat), ShowsLast w l last →
      clockedBits (!c.sequenceB) l (streamEvents c w ans last k bits) = bits.map some := by
  induction bits with
  | nil => exact fun _ _ => rfl
  | cons bit bits ih =>
    intro l last k hl
    rw [streamEvents, clockedBits_append, clockedBits_slotEvents hmosi hl, ih (k + 1) (showsLast_slotEvents hl bit (ans k))]
    rfl

theorem clockedBits_engineEvents (hb : c.bus = .software w) (hmosi : w.mosi.isSome = true) (bs : List Byte) (e : Env)
    (l : Latches) :
    clockedBits (!c.sequenceB) l (engineEvents c bs e) = (bs.flatMap (bitsOf c.order)).map some := by
  simp only [engineEvents, hb]
  exact clockedBits_streamEvents hmosi _ _ 0 (showsLast_none l)

theorem clockedBits_xferEvents (hb : c.bus = .software w) (hmosi : w.mosi.isSome = true) (bs : List Byte) :
    ∀ (e : Env) (l : Latches),
      clockedBits (!c.sequenceB) l (xferEvents c bs e) = (bs.flatMap (bitsOf c.order)).map some := by
  induction bs with
  | nil => exact fun _ _ => rfl
  | cons b bs ih =>
    intro e l
    rw [xferEvents, clockedBits_append, clockedBits_engineEvents hb hmosi, ih]
    simp

end

/-! The transfer events of any operation. -/

/-- All transfer events of the trace `es` are those of an operation's invocations, in one piece. -/
def Carries (c : Cfg) (bs : List Byte) (e : Env) (es : List Event) : Prop :=
  ∃ pre mid post, es = pre ++ mid ++ post ∧ (mid = engineEvents c bs e ∨ mid = xferEvents c bs e) ∧
    ∀ x ∈ pre ++ post, ¬ IsTransferEvent x

theorem Carries.sentBytes_eq {c : Cfg} {p : PeriphRef} {bs : List Byte} {e : Env} {es : List Event} (h : Carries c bs e es)
    (hb : c.bus = .hardware p) : sentBytes es = bs := by
  obtain ⟨pre, mid, post, rfl, hmid, hout⟩ := h
  obtain ⟨hpre, hpost⟩ := List.forall_mem_append.mp hout
  have hsent : sentBytes mid = bs := by
    rcases hmid with rfl | rfl
    · exact sentBytes_engineEvents hb bs e
    · exact sentBytes_xferEvents hb bs e
  simp [sentBytes_append, sentBytes_of_not_transfer hpre, sentBytes_of_not_transfer hpost, hsent]

theorem Carries.clockedBits_eq {c : Cfg} {w : SwPins} {bs : List Byte} {e : Env} {es : List Event} (h : Carries c bs e es)
    (hb : c.bus = .software w) (hmosi : w.mosi.isSome = true) (l : Latches) :
    clockedBits (!c.sequenceB) l es = (bs.flatMap (bitsOf c.order)).map some := by
  obtain ⟨pre, mid, post, rfl, hmid, hout⟩ := h
  obtain ⟨hpre, hpost⟩ := List.forall_mem_append.mp hout
  have hclocked : ∀ l, clockedBits (!c.sequenceB) l mid = (bs.flatMap (bitsOf c.order)).map some := by
    rcases hmid with rfl | rfl
    · exact clockedBits_engineEvents hb hmosi bs e
    · exact clockedBits_xferEvents hb hmosi bs e
  simp only [clockedBits_append, clockedBits_of_not_transfer _ hpre, clockedBits_of_not_transfer _ hpost, hclocked,
    List.nil_append, List.append_nil]

/-- Other events before and after change nothing. -/
theorem Carries.around {c : Cfg} {bs : List Byte} {e : Env} {es xs ys : List Event} (h : Carries c bs e es)
    (hxs : ∀ x ∈ xs, ¬ IsTransferEvent x) (hys : ∀ x ∈ ys, ¬ IsTransferEvent x) : Carries c bs e (xs ++ es ++ ys) := by
  obtain ⟨pre, mid, post, rfl, hmid, hout⟩ := h
  obtain ⟨hpre, hpost⟩ := List.forall_mem_append.mp hout
  exact ⟨xs ++ pre, mid, post ++ ys, by simp, hmid,
    List.forall_mem_append.mpr ⟨List.forall_mem_append.mpr ⟨hxs, hpre⟩, List.forall_mem_append.mpr ⟨hpost, hys⟩⟩⟩

theorem carries_engineEvents (c : Cfg) (bs : List Byte) (e : Env) : Carries c bs e (engineEvents c bs e) :=
  ⟨[], _, [], by simp, .inl rfl, by simp⟩

theorem carries_xferEvents (c : Cfg) (bs : List Byte) (e : Env) : Carries c bs e (xferEvents c bs e) :=
  ⟨[], _, [], by simp, .inr rfl, by simp⟩

/-- A trace without transfer events carries the empty stream. -/
theorem carries_of_not_transfer (c : Cfg) (e : Env) {es : List Event} (hes : ∀ x ∈ es, ¬ IsTransferEvent x) :
    Carries c [] e es := by
  simpa [xferEvents] using (carries_xferEvents c [] e).around hes (ys := []) nofun

theorem Carries.selected {c : Cfg} {bs : List Byte} {e : Env} {es : List Event} (h : Carries c bs e es) (on : Bool) :
    Carries c bs e (selectedEvents on es) := by
  have hcs : ∀ v, ∀ x ∈ csEvents on v, ¬ IsTransferEvent x := by
    cases on <;> simp [csEvents, IsTransferEvent, Event.isBitBang]
  exact h.around (hcs false) (hcs true)

theorem Carries.frame {c : Cfg} {bs : List Byte} {e : Env} {es : List Event} (h : Carries c bs e es) (on : Bool) :
    Carries c bs e (frameEvents c on es) := by
  unfold frameEvents
  cases c.bus with
  | software w => exact h.selected on
  | hardware p =>
    have hsession : ∀ e : Event, e.isSession = true → ∀ x ∈ [e], ¬ IsTransferEvent x := fun e he x hx =>
      List.mem_singleton.mp hx ▸ not_isTransferEvent_of_isSession he
    exact (h.selected on).around (hsession _ rfl) (hsession _ rfl)

/-- BEGIN in Hardware mode sets up the peripheral and chip-select, and transfers nothing (40_lifecycle_control.md R113, D24). -/
theorem beginEvents_not_transfer {c : Cfg} {p : PeriphRef} (hb : c.bus = .hardware p) (on : Bool) :
    ∀ x ∈ beginEvents c on, ¬ IsTransferEvent x := by
  cases on <;> simp [beginEvents, hb, IsTransferEvent, Event.isBitBang]

/-- A signal to the peripheral transfers nothing: its event in Hardware mode, none in Software mode (D27). -/
theorem carries_of_signal {h : Handle} {i : Instr} {s t : State} {e : Event} {r : Ret} (hr : Ready h s)
    (hx : exec i s = .next t) (he : ¬ IsTransferEvent e)
    (hhard : ∀ p, h.cfg.bus = .hardware p → h.isInitialized = true → PrimitivesReturn s →
      exec i s = .next { s with trace := s.trace ++ [e], ret := r, seq := none })
    (hsoft : ∀ w, h.cfg.bus = .software w → exec i s = .next { s with ret := r, seq := none }) :
    ∃ es, t.trace = s.trace ++ es ∧ Carries h.cfg [] s.env es := by
  cases hb : h.cfg.bus with
  | hardware p =>
    cases (hhard p hb hr.initialized hr.returns).symm.trans hx
    exact ⟨[e], rfl, carries_of_not_transfer _ _ (by simpa using he)⟩
  | software w =>
    cases (hsoft w hb).symm.trans hx
    exact ⟨[], by simp, carries_of_not_transfer _ _ nofun⟩

/-- All transfer events of an operation of a ready handle are those of its stream. BEGIN in Software mode is left out: it writes
the clock and data-out too, and sends nothing (R113). -/
theorem exec_carries {h : Handle} {i : Instr} {s t : State} (hr : FrameReady h s) (hx : exec i s = .next t)
    (hbegin : i = .beginInit → ∃ p, h.cfg.bus = .hardware p) :
    ∃ es, t.trace = s.trace ++ es ∧ Carries h.cfg (txStream i) s.env es := by
  have quiet : t.trace = s.trace → ∃ es, t.trace = s.trace ++ es ∧ Carries h.cfg [] s.env es := fun ht =>
    ⟨[], by simpa using ht, carries_of_not_transfer _ _ nofun⟩
  cases i with
  | constructHw _ _ _ _ _ | constructSw _ _ _ _ _ _ _ =>
    obtain ⟨c, -, rfl⟩ := exec_constructor rfl hx
    exact quiet (by simp)
  | beginInit =>
    obtain ⟨p, hb⟩ := hbegin rfl
    exact ⟨_, (returned_begin hr.live hx).trace, carries_of_not_transfer _ _ (beginEvents_not_transfer hb _)⟩
  | endRelease =>
    obtain ⟨hhard, hsoft⟩ := endReleasesPeripheralOnly s h hr.live
    exact carries_of_signal hr.toReady hx (by simp [IsTransferEvent, Event.isBitBang]) hhard hsoft
  | beginTransaction =>
    obtain ⟨hhard, hsoft⟩ := transactionSignals s h hr.live
    exact carries_of_signal hr.toReady hx (not_isTransferEvent_of_isSession rfl)
      (fun p hb hi hp => (hhard p hb hi hp).1) fun w hb => (hsoft w hb).1
  | endTransaction =>
    obtain ⟨hhard, hsoft⟩ := transactionSignals s h hr.live
    exact carries_of_signal hr.toReady hx (not_isTransferEvent_of_isSession rfl)
      (fun p hb hi hp => (hhard p hb hi hp).2) fun w hb => (hsoft w hb).2
  | disableCsToggle =>
    cases (csTogglesWriteTheFlag s h hr.live).1.symm.trans hx
    exact quiet rfl
  | enableCsToggle =>
    cases (csTogglesWriteTheFlag s h hr.live).2.symm.trans hx
    exact quiet rfl
  | destroy =>
    cases (destroyLeavesPins s h hr.live).symm.trans hx
    exact quiet rfl
  | transfer b => exact ⟨_, (engineOp_next (.inl ⟨b, rfl⟩) hr.toReady hx).1, carries_engineEvents _ _ _⟩
  | transferByte b => exact ⟨_, (engineOp_next (.inr ⟨b, rfl⟩) hr.toReady hx).1, carries_engineEvents _ _ _⟩
  | write b l v => exact ⟨_, execWrite_trace hr hx, (carries_xferEvents _ _ _).frame _⟩
  | read b f => exact ⟨_, execRead_trace hr hx, (carries_engineEvents _ _ _).frame _⟩
  | writeThenRead a b f => exact ⟨_, execWriteThenRead_trace hr hx, (carries_xferEvents _ _ _).frame _⟩
  | repeated v n l => exact ⟨_, execRepeated_trace hr hx, (carries_xferEvents _ _ _).frame _⟩
  | writeAndRead b => exact ⟨_, execWriteAndRead_trace hr hx, (carries_engineEvents _ _ _).selected _⟩

/-- Settles O44: the events of the operation's invocations send, or clock, exactly the stream, and its other events nothing. -/
theorem wireShowsTheStream : Obligations.WireShowsTheStream := by
  intro s t h i es hr hx ht
  have hcarries : (i = .beginInit → ∃ p, h.cfg.bus = .hardware p) → Carries h.cfg (txStream i) s.env es := fun hbegin => by
    obtain ⟨es', htrace, hes⟩ := exec_carries hr hx hbegin
    obtain rfl : es = es' := List.append_cancel_left (ht.symm.trans htrace)
    exact hes
  refine ⟨fun p hb => (hcarries fun _ => ⟨p, hb⟩).sentBytes_eq hb, fun w hb hmosi hi => ?_⟩
  rw [(hcarries fun h => absurd h hi).clockedBits_eq hb hmosi, List.map_flatMap]
  simp [bitsOf, Function.comp_def]

end Sys2Proof.Machine

/-! PROOF. O21, O22, O53, O54, O55: refusals without a handle and before BEGIN (60_exceptions.md R214, R216), and the hang (R217). A
hang, like any other outcome of an operation, is read off `exec_ran`: it is inside the operation, with the stall counter run out. -/

namespace Sys2Proof.Machine

/-! The tests before an operation's body. -/

/-- Settles O21: the test for a handle comes before every other. -/
theorem noHandleRefused : Obligations.NoHandleRefused := fun _ _ hs hc =>
  ⟨⟨_, exec_noHandle hs hc⟩, fun _ => exec_noHandle hs hc⟩

/-- Before BEGIN a signal to the peripheral is refused in Hardware mode. -/
theorem operation_onlyHardware_notInitialized {op : Instr} {s : State} {h : Handle} {p : PeriphRef} (hs : s.handle = some h)
    (hb : h.cfg.bus = .hardware p) (hi : h.isInitialized = false) (sig : Handle → State → Res State) :
    operation op s (fun h s => onlyHardware h (sig h) s) = .refused .notInitialized := by
  unfold onlyHardware
  rw [operation_live hs, hb]
  dsimp only
  rw [whenInitialized_false hi, andThen_refused]

/-- Before BEGIN nothing is transferred, whatever the buffers (D15). -/
theorem exec_transfers_notInitialized {i : Instr} {s : State} {h : Handle} (hs : s.handle = some h)
    (hi : h.isInitialized = false) (ht : IsFramed i ∨ IsEngineOp i) : exec i s = .refused .notInitialized := by
  rcases ht with (⟨b, l, v, rfl⟩ | ⟨b, f, rfl⟩ | ⟨a, b, f, rfl⟩ | ⟨v, n, l, rfl⟩ | ⟨b, rfl⟩) | ⟨b, rfl⟩ | ⟨b, rfl⟩ <;>
    simp only [exec, execWrite, execRead, execWriteThenRead, execRepeated, execWriteAndRead, execTransfer, execTransferByte,
      operation_live hs, whenInitialized_false hi, andThen_refused]

/-- Before BEGIN the peripheral of a Hardware-mode handle gets no signal (D15). -/
theorem exec_signals_notInitialized {i : Instr} {s : State} {h : Handle} {p : PeriphRef} (hs : s.handle = some h)
    (hb : h.cfg.bus = .hardware p) (hi : h.isInitialized = false)
    (hsig : i = .endRelease ∨ i = .beginTransaction ∨ i = .endTransaction) : exec i s = .refused .notInitialized := by
  rcases hsig with rfl | rfl | rfl
  · exact operation_onlyHardware_notInitialized hs hb hi fun _ => periphRelease
  · exact operation_onlyHardware_notInitialized hs hb hi fun h => periphBeginTransaction h.cfg
  · exact operation_onlyHardware_notInitialized hs hb hi fun _ => periphEndTransaction

/-- Settles O22: the test for BEGIN comes before those of the buffers. -/
theorem notInitializedRefused : Obligations.NotInitializedRefused := by
  intro s h i hs hi hop
  have hx : exec i s = .refused .notInitialized := by
    rcases hop with ht | ⟨⟨p, hb⟩, hsig⟩
    · exact exec_transfers_notInitialized hs hi ht
    · exact exec_signals_notInitialized hs hb hi hsig
  exact ⟨⟨_, hx⟩, fun _ => hx⟩

/-! The hang. -/

/-- What `exec_ran` says of an outcome other than NoHandle, which a live handle alone can have. -/
theorem exec_opRan {i : Instr} {s : State} {x : Res State} (hc : i.isConstructor = false) (hx : exec i s = x)
    (hne : x ≠ .refused .noHandle) : ∃ h, s.handle = some h ∧ OpRan h i s x := by
  cases hs : s.handle with
  | none => exact absurd (hx.symm.trans (exec_noHandle hs hc)) hne
  | some h => exact ⟨h, rfl, hx ▸ exec_ran hs hc⟩

/-- Only an operation of a live handle hangs, and `OpRan` says where it is stuck. -/
theorem exec_hang {i : Instr} {s u : State} (hx : exec i s = .fault (.neverReturns u)) :
    ∃ h, s.handle = some h ∧ OpRan h i s (.fault (.neverReturns u)) := by
  cases hc : i.isConstructor with
  | true => exact absurd hx (exec_constructor_ne_fault hc _)
  | false => exact exec_opRan hc hx nofun

/-- An operation that returns neither makes nor lifts the assumption PrimitivesReturn. -/
theorem exec_next_primitivesReturn {i : Instr} {s t : State} (hx : exec i s = .next t) :
    PrimitivesReturn t ↔ PrimitivesReturn s := by
  cases hc : i.isConstructor with
  | true =>
    obtain ⟨c, -, rfl⟩ := exec_constructor hc hx
    exact Iff.rfl
  | false =>
    obtain ⟨h, -, es, -, -, -, -, hreturns, -⟩ := exec_opRan hc hx nofun
    exact hreturns

/-- Settles O53: a hang would find the stall counter at 0, where the assumption has none. -/
theorem operationsEndIfPrimitivesReturn : Obligations.OperationsEndIfPrimitivesReturn := by
  refine fun s i hr => ⟨fun ⟨u⟩ hx => ?_, fun t hx => (exec_next_primitivesReturn hx).mpr hr⟩
  obtain ⟨h, -, es, hext, -, hstall, -⟩ := exec_hang hx
  have hnone : u.env.stall = none := hext.returns.mpr hr
  cases hnone.symm.trans hstall

/-- From inside an operation there is no further step (R217). -/
theorem step_stuck {s : State} {q : Position} (hq : s.seq = some q) : step s = .fault (.neverReturns s) := by
  unfold step; rw [hq]

/-- Settles O54: the trace and the requests are those of the started operation, extended by its events. -/
theorem hangLeavesTheMachineStuck : Obligations.HangLeavesTheMachineStuck := by
  intro s u i hx
  obtain ⟨h, -, es, hext, -, hstall, q, hq, hop, hcall⟩ := exec_hang hx
  exact ⟨⟨q, hq, hop, hcall⟩, hstall, ⟨es, hext.trace.symm⟩, hext.pending, step_stuck hq⟩

/-- A Hardware-mode handle after BEGIN with chip-select on pin 10, whose third primitive call will not return: the one after
`PeriphBeginTransaction` and the chip-select write of a frame. -/
def thirdCallStalls : State :=
  { State.reset with
    handle := some ⟨⟨10, 1000000, .msbFirst, 0#2, .hardware 0⟩, true, true⟩
    pins := [(10, ⟨.output, some true⟩)]
    env := ⟨[], 0, [], 0, some 2⟩ }

theorem thirdCallStalls_inv : Inv thirdCallStalls where
  canonical := by decide
  idle := rfl
  handle := by
    rintro h ⟨⟩
    exact ⟨by unfold PinsDistinct; decide, fun _ => trivial, fun _ => rfl⟩

/-- A WRITE of one byte from there, stuck at its `PeriphTransfer`: the session is open and chip-select asserted. -/
def stuckInWrite : State :=
  { thirdCallStalls with
    pins := [(10, ⟨.output, some false⟩)]
    seq := some ⟨.write ⟨some [0x5A], 1⟩ ⟨none, 0⟩ false, some .transfers, 0, some (.periphTransfer [0x5A])⟩
    trace := [.beginSession 1000000 .msbFirst 0#2, .write .cs false]
    env := ⟨[], 0, [], 0, some 0⟩ }

theorem exec_write_thirdCallStalls :
    exec (.write ⟨some [0x5A], 1⟩ ⟨none, 0⟩ false) thirdCallStalls = .fault (.neverReturns stuckInWrite) := rfl

/-- Settles O55: nothing after the hang takes chip-select back. -/
theorem hangCanLeaveChipSelectAsserted : Obligations.HangCanLeaveChipSelectAsserted :=
  ⟨thirdCallStalls, stuckInWrite, _, _, thirdCallStalls_inv, rfl, .inl ⟨_, _, _, rfl⟩, rfl, exec_write_thirdCallStalls, rfl⟩

end Sys2Proof.Machine

/-! PROOF. O7, O24, O51, O52: waiting and being stuck (70_reset_and_hazards.md R241, 60_exceptions.md R217), and three hazards of
70_reset_and_hazards.md section 3: a chip-select that is no output (R250), the data modes (R252) and an absent data-in pin (R253). -/

namespace Sys2Proof.Machine

/-! With nothing to run. -/

/-- An idle machine with nothing issued waits (R241). -/
theorem step_idle {s : State} (hidle : s.seq = none) (hp : s.pending = []) : step s = .next s := by
  simp only [step, fetch, hidle, hp]

/-- Settles O7: an idle machine with no request waits, and a running operation holds the sequencer. -/
theorem stepWaitsOrIsStuck : Obligations.StepWaitsOrIsStuck := by
  refine ⟨fun s hidle hp => step_idle hidle hp, fun s hs => ?_⟩
  obtain ⟨q, hq⟩ := Option.ne_none_iff_exists'.mp hs
  exact step_stuck hq

/-! A chip-select that is no output. -/

/-- Where primitives return, phase (a) of a frame is over with handle and pins untouched (R180). -/
theorem beginSession_returns (c : Cfg) {s : State} (hr : PrimitivesReturn s) :
    ∃ u, beginSession c s = .next u ∧ u.handle = s.handle ∧ u.pins = s.pins := by
  unfold beginSession
  split
  · exact ⟨_, periphBeginTransaction_returns c hr, rfl, rfl⟩
  · exact ⟨s, rfl, rfl, rfl⟩

section
variable {α : Type} {h : Handle} {s : State} (hs : s.handle = some h) (hon : h.csControlEnabled = true)
  (hd : (s.pin h.cfg.csPin).dir ≠ .output)
include hs hon hd

/-- The chip-select step writes a pin that is no output (R181, 10_state.md R34). -/
theorem driveCs_pinNotConfigured (v : Level) : driveCs h.cfg v s = .refused .pinNotConfigured := by
  unfold driveCs pinWrite
  rw [csControl_live hs, if_pos hon, if_neg hd]

/-- The bracket is refused at its first step, whatever its body. -/
theorem selected_pinNotConfigured (body : State → Res (α × State)) :
    selected h.cfg body s = .refused .pinNotConfigured := by
  unfold selected
  rw [driveCs_pinNotConfigured (s := s.atPhase .csLow) hs hon hd, andThen_refused]

/-- The frame is refused at its bracket: phase (a) returns. -/
theorem frame_pinNotConfigured (hr : PrimitivesReturn s) (body : State → Res (α × State)) :
    frame h.cfg body s = .refused .pinNotConfigured := by
  obtain ⟨u, hu, hhandle, hpins⟩ := beginSession_returns h.cfg (s := s.atPhase .beginTransaction) hr
  have hd' : (u.pin h.cfg.csPin).dir ≠ .output := by rwa [pin_eq, hpins]
  unfold frame
  rw [hu, andThen_next, selected_pinNotConfigured (hhandle.trans hs) hon hd', andThen_refused]

end

/-- Settles O24: each operation passes its tests of the handle and of the buffers, and its frame, or for WRITE_AND_READ its bracket, is
refused. -/
theorem unconfiguredChipSelectRefused : Obligations.UnconfiguredChipSelectRefused := by
  intro s h hs hi hr hon hd
  have hframe : ∀ (op : Instr) {α : Type} (body : State → Res (α × State)),
      frame h.cfg body (s.start op) = .refused .pinNotConfigured :=
    fun op _ => frame_pinNotConfigured (s := s.start op) hs hon hd hr
  refine ⟨fun b l v hb hl => ?_, fun b f hb => ?_, fun a b f ha hb => ?_, fun v n l hl => ?_, fun b => ?_⟩
  · simp only [exec, execWrite, operation_live hs, whenInitialized_true hi, withSrc_good hl, withSrc_good hb, hframe, andThen_refused]
  · simp only [exec, execRead, operation_live hs, whenInitialized_true hi, withDst_good hb, hframe, andThen_refused]
  · simp only [exec, execWriteThenRead, operation_live hs, whenInitialized_true hi, withSrc_good ha, withDst_good hb, hframe,
      andThen_refused]
  · simp only [exec, execRepeated, operation_live hs, whenInitialized_true hi, withSrc_good hl, hframe, andThen_refused]
  · simp only [exec, execWriteAndRead, operation_live hs, whenInitialized_true hi,
      selected_pinNotConfigured (s := s.start (.writeAndRead b)) hs hon hd, andThen_refused]

/-! Without a data-in pin. -/

/-- Whatever the state, if the part answers, it gives back `a`. -/
def GivesBack {α : Type} (a : α) (part : State → Res (α × State)) : Prop := ∀ s r, part s = .next r → r.1 = a

section
variable {α : Type} {a : α} {part : State → Res (α × State)} {c : Cfg}

theorem GivesBack.selected (hp : GivesBack a part) : GivesBack a (selected c part) := by
  intro s r hx
  obtain ⟨_, -, hx⟩ := andThen_eq_next.mp hx
  obtain ⟨q, hq, hx⟩ := andThen_eq_next.mp hx
  obtain ⟨_, -, hx⟩ := andThen_eq_next.mp hx
  cases hx
  exact hp _ q hq

theorem GivesBack.frame (hp : GivesBack a part) : GivesBack a (frame c part) := by
  intro s r hx
  obtain ⟨_, -, hx⟩ := andThen_eq_next.mp hx
  obtain ⟨q, hq, hx⟩ := andThen_eq_next.mp hx
  obtain ⟨_, -, hx⟩ := andThen_eq_next.mp hx
  cases hx
  exact hp.selected _ q hq

/-- A body that ends with a part makes its result of what the part gives back. -/
theorem GivesBack.ret (hp : GivesBack a part) (ret : α → Ret) {s : State} {r : Ret × State}
    (hx : andThen (part s) (fun q => .next (ret q.1, q.2)) = .next r) : r.1 = ret a := by
  obtain ⟨q, hq, hx⟩ := andThen_eq_next.mp hx
  cases hx
  exact congrArg ret (hp s q hq)

end

section
variable {c : Cfg} {w : SwPins} (hm : w.miso = none)
include hm

/-- The write-back leaves the byte as it was sent (41_transfer_engine.md R151). -/
theorem swByte_givesBack (b : Byte) : GivesBack b (swByte c w b) := by
  intro s r hx
  obtain ⟨_, -, hx⟩ := andThen_eq_next.mp hx
  cases hx
  simp [hm]

theorem swBytes_givesBack (bs : List Byte) : GivesBack bs (swBytes c w bs) := by
  induction bs with
  | nil => intro s r hx; cases hx; rfl
  | cons b bs ih =>
    intro s r hx
    obtain ⟨q, hq, hx⟩ := andThen_eq_next.mp hx
    obtain ⟨qs, hqs, hx⟩ := andThen_eq_next.mp hx
    cases hx
    exact congrArg₂ List.cons (swByte_givesBack hm b _ q hq) (ih _ qs hqs)

variable (hb : c.bus = .software w)
include hb

theorem engine_givesBack (bs : List Byte) : GivesBack bs (engine c bs) := by
  intro s r hx
  cases bs with
  | nil => cases hx; rfl
  | cons b bs =>
    simp only [engine, hb] at hx
    obtain ⟨q, hq, hx⟩ := andThen_eq_next.mp hx
    cases hx
    exact swBytes_givesBack hm (b :: bs) _ q hq

theorem xferByte_givesBack (b : Byte) : GivesBack b (xferByte c b) := by
  intro s r hx
  obtain ⟨q, hq, hx⟩ := andThen_eq_next.mp hx
  cases hx
  rw [engine_givesBack hm hb [b] s q hq]
  rfl

theorem xferAll_givesBack (bs : List Byte) : GivesBack bs (xferAll c bs) := by
  induction bs with
  | nil => intro s r hx; cases hx; rfl
  | cons b bs ih =>
    intro s r hx
    obtain ⟨q, hq, hx⟩ := andThen_eq_next.mp hx
    obtain ⟨qs, hqs, hx⟩ := andThen_eq_next.mp hx
    cases hx
    exact congrArg₂ List.cons (xferByte_givesBack hm hb b _ q hq) (ih _ qs hqs)

/-- The second phase of WRITE_THEN_READ gives back its fill (R184). -/
theorem writeThenReadBody_givesBack (ws : List Byte) (n : Nat) (fill : Byte) :
    GivesBack (List.replicate n fill) (writeThenReadBody c ws n fill) := by
  intro s r hx
  obtain ⟨q, -, hx⟩ := andThen_eq_next.mp hx
  exact xferAll_givesBack hm hb _ _ r hx

end

/-- A buffer overwritten with its own bytes is as it was. -/
theorem overwriteSrc_self (b : SrcBuf) : overwriteSrc b ((b.bytes.getD []).take b.len) = b.bytes := by
  unfold overwriteSrc
  cases b.bytes <;> simp

/-- Settles O52: each operation's result is made of what its part gives back, and without data-in that is what was sent. -/
theorem withoutDataInBuffersKeepWhatWasSent : Obligations.WithoutDataInBuffersKeepWhatWasSent := by
  intro s t h w hs hb hm
  refine ⟨fun b hx => ?_, fun b f hx => ?_, fun a b f hx => ?_, fun b hx => ?_⟩
  · simp only [exec, execTransfer] at hx
    obtain ⟨r, u, hbody, rfl⟩ := operation_live_next hs hx
    have hr := (engine_givesBack hm hb _).ret (fun rs => { value := .nothing, buffer := overwriteSrc b rs })
      (withSrc_eq_next (whenInitialized_eq_next.mp hbody).2).2
    exact (congrArg Ret.buffer hr).trans (overwriteSrc_self b)
  · simp only [exec, execRead] at hx
    obtain ⟨r, u, hbody, rfl⟩ := operation_live_next hs hx
    have hr := (engine_givesBack hm hb _).frame.ret (fun rs => { value := .success true, buffer := fillDst b rs })
      (withDst_eq_next (whenInitialized_eq_next.mp hbody).2).2
    exact congrArg Ret.buffer hr
  · simp only [exec, execWriteThenRead] at hx
    obtain ⟨r, u, hbody, rfl⟩ := operation_live_next hs hx
    have hr := (writeThenReadBody_givesBack hm hb _ b.len f).frame.ret
      (fun rs => { value := .success true, buffer := fillDst b rs, source := a.bytes })
      (withDst_eq_next (withSrc_eq_next (whenInitialized_eq_next.mp hbody).2).2).2
    exact congrArg Ret.buffer hr
  · simp only [exec, execTransferByte, execWriteAndRead] at hx
    rcases hx with hx | hx <;> obtain ⟨r, u, hbody, rfl⟩ := operation_live_next hs hx
    · exact congrArg Ret.value
        ((xferByte_givesBack hm hb b).ret (fun x => { value := .byte x }) (whenInitialized_eq_next.mp hbody).2)
    · exact congrArg Ret.value
        ((xferByte_givesBack hm hb b).selected.ret (fun x => { value := .byte x }) (whenInitialized_eq_next.mp hbody).2)

/-! The high data modes. -/

/-- The configuration with another data mode. -/
def Cfg.withMode (c : Cfg) (m : BitVec 2) : Cfg := { c with dataMode := m }

/-- The handle with another data mode. -/
def Handle.withMode (h : Handle) (m : BitVec 2) : Handle := { h with cfg := h.cfg.withMode m }

/-- The state with another data mode in its handle. -/
def State.withMode (s : State) (m : BitVec 2) : State := s.setHandle (s.handle.map (·.withMode m))

theorem withMode_handle {s : State} {h : Handle} (hs : s.handle = some h) (m : BitVec 2) :
    (s.withMode m).handle = some (h.withMode m) := by
  simp [State.withMode, hs]

section
variable {c : Cfg} {m : BitVec 2} (hbit : m.getLsbD 0 = c.dataMode.getLsbD 0)
include hbit

/-- A slot asks bit 0 of the data mode which sequence it is, and nothing else of the mode: "raise" and "lower" are absolute levels
(30_encoding.md R89, C1, D3). -/
theorem bitSlot_withMode (w : SwPins) : bitSlot (c.withMode m) w = bitSlot c w := by
  have hseq : (c.withMode m).sequenceB = c.sequenceB := hbit
  funext s
  unfold bitSlot
  rw [hseq]
  rfl

theorem bitSlots_withMode (w : SwPins) (n : Nat) : bitSlots (c.withMode m) w n = bitSlots c w n := by
  induction n with
  | zero => rfl
  | succ n ih => funext s; simp only [bitSlots, bitSlot_withMode hbit, ih]

theorem swBytes_withMode (w : SwPins) (bs : List Byte) : swBytes (c.withMode m) w bs = swBytes c w bs := by
  induction bs with
  | nil => rfl
  | cons b bs ih =>
    funext s
    simp only [swBytes, swByte, bitSlots_withMode hbit, ih]
    rfl

variable {w : SwPins} (hb : c.bus = .software w)
include hb

theorem engine_withMode (bs : List Byte) : engine (c.withMode m) bs = engine c bs := by
  have hb' : (c.withMode m).bus = .software w := hb
  funext s
  cases bs with
  | nil => rfl
  | cons b bs =>
    simp only [engine, hb, hb', swTransfer, swBytes_withMode hbit]
    rfl

theorem xferByte_withMode (b : Byte) : xferByte (c.withMode m) b = xferByte c b := by
  funext s
  simp only [xferByte, engine_withMode hbit hb]

theorem xferAll_withMode (bs : List Byte) : xferAll (c.withMode m) bs = xferAll c bs := by
  induction bs with
  | nil => rfl
  | cons b bs ih => funext s; simp only [xferAll, xferByte_withMode hbit hb, ih]

theorem writeThenReadBody_withMode (ws : List Byte) (n : Nat) (fill : Byte) :
    writeThenReadBody (c.withMode m) ws n fill = writeThenReadBody c ws n fill := by
  funext s
  simp only [writeThenReadBody, xferAll_withMode hbit hb]

end

/-- A Software-mode frame signals no session, so it is the chip-select bracket, and that asks nothing of the data mode (R180). -/
theorem frame_withMode {α : Type} {c : Cfg} {w : SwPins} (hb : c.bus = .software w) (m : BitVec 2)
    (body : State → Res (α × State)) : frame (c.withMode m) body = frame c body := by
  have hb' : (c.withMode m).bus = .software w := hb
  funext s
  simp only [frame, beginSession, endSession, hb, hb']
  rfl

/-- Two states that differ in the data mode of their handle at most. -/
def SameButMode (m : BitVec 2) (s s' : State) : Prop := s' = s.withMode m

theorem sameButMode_frameBlind (m : BitVec 2) : FrameBlind True (SameButMode m) where
  pins := by rintro s _ rfl; rfl
  stall := by rintro s _ rfl; rfl
  tx := by rintro s _ rfl; rfl
  mask := by rintro s _ rfl; rfl
  atCall _ := by rintro rfl; rfl
  setStall _ := by rintro rfl; rfl
  setPin _ _ := by rintro rfl; rfl
  emit _ := by rintro rfl; rfl
  sampled := by rintro s _ rfl; rfl
  setMask _ := by rintro rfl; rfl
  lastMosi := by rintro s _ rfl; rfl
  track _ := by rintro rfl; rfl
  loadByte _ _ := by rintro rfl; rfl
  advance _ := by rintro rfl; rfl
  forgetRegs := by rintro s _ rfl; rfl
  transferred _ := by rintro rfl; rfl
  rx _ := by rintro rfl; rfl
  bytes _ _ := by rintro rfl; rfl
  csControl {s _} := by
    rintro rfl
    simp only [State.csControl, State.withMode, setHandle_handle]
    cases s.handle <;> rfl
  atPhase _ := by rintro rfl; rfl

/-- The end of a body: from the same value, the same result. -/
theorem Sim.sameRet {α : Type} {R : State → State → Prop} {x y : Res (α × State)} (hx : Sim (Alike True R) x y) (ret : α → Ret) :
    Sim (Alike True R) (Machine.andThen x fun r => .next (ret r.1, r.2)) (Machine.andThen y fun r => .next (ret r.1, r.2)) :=
  hx.andThen fun _ _ hr => Sim.next ⟨fun _ => congrArg ret (hr.1 trivial), hr.2⟩

section
variable {s : State} {h : Handle} {w : SwPins} {m : BitVec 2} (hs : s.handle = some h)
include hs

/-- An operation of a live handle, by its body. -/
theorem operation_sameButMode {op : Instr} {body : Handle → State → Res (Ret × State)}
    (hbody : ∀ u u', SameButMode m u u' → Sim (Alike True (SameButMode m)) (body h u) (body (h.withMode m) u')) :
    Sim (SameButMode m) (operation op s body) (operation op (s.withMode m) body) := by
  refine Sim.operation hs (withMode_handle hs m) (hbody (s.start op) ((s.withMode m).start op) rfl) ?_
  rintro ⟨r, u⟩ ⟨r', u'⟩ ⟨hr, hu⟩
  obtain rfl : r' = r := hr trivial
  obtain rfl : u' = u.withMode m := hu
  rfl

variable (hb : h.cfg.bus = .software w) (hbit : m.getLsbD 0 = h.cfg.dataMode.getLsbD 0)
include hb hbit

/-- Every operation but BEGIN, the constructors and DESTROY does the same under a data mode with the same bit 0. -/
theorem exec_sameButMode {i : Instr} (hbegin : i ≠ .beginInit) (hc : i.isConstructor = false) (hd : i ≠ .destroy) :
    Sim (SameButMode m) (exec i s) (exec i (s.withMode m)) := by
  have hR := sameButMode_frameBlind m
  have hcfg : (h.withMode m).cfg = h.cfg.withMode m := rfl
  have hs' := withMode_handle hs m
  have hb' : (h.withMode m).cfg.bus = .software w := hb
  cases i with
  | constructHw _ _ _ _ _ | constructSw _ _ _ _ _ _ _ => cases hc
  | beginInit => exact absurd rfl hbegin
  | destroy => exact absurd rfl hd
  | endRelease =>
    rw [(endReleasesPeripheralOnly s h hs).2 w hb, (endReleasesPeripheralOnly _ _ hs').2 w hb']
    exact Sim.next rfl
  | beginTransaction =>
    rw [((transactionSignals s h hs).2 w hb).1, ((transactionSignals _ _ hs').2 w hb').1]
    exact Sim.next rfl
  | endTransaction =>
    rw [((transactionSignals s h hs).2 w hb).2, ((transactionSignals _ _ hs').2 w hb').2]
    exact Sim.next rfl
  | disableCsToggle =>
    rw [(csTogglesWriteTheFlag s h hs).1, (csTogglesWriteTheFlag _ _ hs').1]
    exact Sim.next rfl
  | enableCsToggle =>
    rw [(csTogglesWriteTheFlag s h hs).2, (csTogglesWriteTheFlag _ _ hs').2]
    exact Sim.next rfl
  | write b l v =>
    simp only [exec, execWrite]
    refine operation_sameButMode hs fun u u' hu => ?_
    refine Sim.whenInitialized rfl <| Sim.withSrc fun ps => Sim.withSrc fun bs => ?_
    rw [hcfg, frame_withMode hb, xferAll_withMode hbit hb]
    exact (hR.frame (fun _ _ => hR.xferAll _) hu).sameRet fun _ => { value := .success true, buffer := b.bytes, lead := l.bytes }
  | read b f =>
    simp only [exec, execRead]
    refine operation_sameButMode hs fun u u' hu => Sim.whenInitialized rfl <| Sim.withDst ?_
    rw [hcfg, frame_withMode hb, engine_withMode hbit hb]
    exact (hR.frame (fun _ _ h => hR.engine h _) hu).sameRet fun rs => { value := .success true, buffer := fillDst b rs }
  | writeThenRead a b f =>
    simp only [exec, execWriteThenRead]
    refine operation_sameButMode hs fun u u' hu => Sim.whenInitialized rfl <| Sim.withSrc fun ws => Sim.withDst ?_
    rw [hcfg, frame_withMode hb]
    simp only [writeThenReadBody_withMode hbit hb]
    exact (hR.frame (fun _ _ h => hR.writeThenReadBody h _ _ _) hu).sameRet
      fun rs => { value := .success true, buffer := fillDst b rs, source := a.bytes }
  | repeated v n l =>
    simp only [exec, execRepeated]
    refine operation_sameButMode hs fun u u' hu => Sim.whenInitialized rfl <| Sim.withSrc fun ps => ?_
    rw [hcfg, frame_withMode hb, xferAll_withMode hbit hb]
    exact (hR.frame (fun _ _ => hR.xferAll _) hu).sameRet fun _ => { value := .success true, lead := l.bytes }
  | writeAndRead b =>
    simp only [exec, execWriteAndRead]
    refine operation_sameButMode hs fun u u' hu => Sim.whenInitialized rfl ?_
    rw [hcfg, xferByte_withMode hbit hb]
    exact (hR.selected (fun _ _ h => hR.xferByte h _) hu).sameRet fun x => { value := .byte x }
  | transfer b =>
    simp only [exec, execTransfer]
    refine operation_sameButMode hs fun u u' hu => Sim.whenInitialized rfl <| Sim.withSrc fun bs => ?_
    rw [hcfg, engine_withMode hbit hb]
    exact (hR.engine hu _).sameRet fun rs => { value := .nothing, buffer := overwriteSrc b rs }
  | transferByte b =>
    simp only [exec, execTransferByte]
    refine operation_sameButMode hs fun u u' hu => Sim.whenInitialized rfl ?_
    rw [hcfg, xferByte_withMode hbit hb]
    exact (hR.xferByte hu _).sameRet fun x => { value := .byte x }

end

/-- Settles O51: the engine is the same function under both modes, the frame asks nothing of the mode, and a handle is left (O46). -/
theorem highModesActAsLowModes : Obligations.HighModesActAsLowModes := by
  intro s t h w i m hs hb hbegin hc hd hbit hx
  obtain ⟨t', hx', rfl⟩ := exec_sameButMode hs hb hbit hbegin hc hd t hx
  obtain ⟨h', ht, -⟩ := onlyTheirOwnOperationsWriteTheHandle s t h i hs hx hc hd
  have hstart : s.withMode m = { s with handle := some { h with cfg := { h.cfg with dataMode := m } } } := by
    rw [State.withMode, hs]; rfl
  have hend : t.withMode m = { t with handle := some { h' with cfg := { h'.cfg with dataMode := m } } } := by
    rw [State.withMode, ht]; rfl
  exact ⟨t.withMode m, h', hstart ▸ hx', ht, hend⟩

end Sys2Proof.Machine
